-- ==== Sys2Proof/Word.lean ====
section
/-! DEFINITION. The word types of the engine (spec/00_scope.md R7, R15). -/

namespace Sys2Proof

/-- A byte of a buffer, of the key or of the cipher state (00_scope.md R9). -/
abbrev Byte := BitVec 8

/-- A register of the window, a command word, or a word of the expanded key: REG_WIDTH = 32 bits (00_scope.md R7). -/
abbrev Word := BitVec 32

/-- A 16-byte block (BLOCK_BYTES of 00_scope.md R7) as the number `BE` of its bytes: byte 0 is the most significant
(00_scope.md R11, 10_state.md R22). -/
abbrev Block := BitVec 128

end Sys2Proof
end

