-- ==== Sys2Proof/Syntax.lean ====
section
/-! DEFINITION. The commands of the engine, one constructor per row of spec/opcode_table.json. -/

namespace Sys2Proof

/-- The seven commands of spec/30_encoding.md R92. Every operand but ARG is a register (R97). -/
inductive Instr
  /-- SELECT_BACKEND, opcode 0x01; `arg` is `zext_32(w[15:8])`, the backend id (30_encoding.md R91). -/
  | selectBackend (arg : Word)
  /-- KEY_EXPAND, opcode 0x02. -/
  | keyExpand
  /-- ENC_BLOCK, opcode 0x03. -/
  | encBlock
  /-- ENC_BATCH, opcode 0x04. -/
  | encBatch
  /-- CTR_INC, opcode 0x05. -/
  | ctrInc
  /-- STREAM_ENC, opcode 0x06. -/
  | streamEnc
  /-- STREAM_DEC, opcode 0x07. -/
  | streamDec
deriving DecidableEq, Repr

end Sys2Proof
end

