-- ==== Sys2Proof/WellFormed.lean ====
section
/-! DEFINITION. Which commands some command word encodes. -/

namespace Sys2Proof

/-- ARG is an 8-bit unsigned immediate, zero-extended to 32 bits (spec/30_encoding.md R91), so a SELECT_BACKEND whose
argument is 256 or more is no command; no other command has an operand in its word. -/
def Instr.wellFormed : Instr → Bool
  | .selectBackend arg => decide (arg.toNat < 256)
  | .keyExpand => true
  | .encBlock => true
  | .encBatch => true
  | .ctrInc => true
  | .streamEnc => true
  | .streamDec => true

end Sys2Proof
end

