-- ==== Sys2Proof/Decode.lean ====
section
/-! DEFINITION. The command decoder and the encoder (spec/30_encoding.md R90 to R95). -/

namespace Sys2Proof

/-- Why a command word is illegal (30_encoding.md R93). -/
inductive DecodeError
  /-- `w[31:16] ≠ 0`. -/
  | reservedBits
  /-- `w[7:0]` is 0x00 or one of 0x08..0xFF. -/
  | reservedOpcode
  /-- `w[15:8] ≠ 0` in a command other than SELECT_BACKEND. -/
  | argumentNotZero
deriving DecidableEq, Repr

/-- OPCODE, bits 7:0 of the command word (30_encoding.md R91). -/
def opcodeField (w : Word) : Byte := w.extractLsb' 0 8

/-- ARG, bits 15:8 of the command word (30_encoding.md R91). -/
def argField (w : Word) : Byte := w.extractLsb' 8 8

/-- RSVD, bits 31:16 of the command word (30_encoding.md R91). -/
def reservedField (w : Word) : BitVec 16 := w.extractLsb' 16 16

/-- A command other than SELECT_BACKEND: its ARG must be 0 (30_encoding.md R91, R93). -/
def withoutArgument (arg : Byte) (i : Instr) : Except DecodeError Instr :=
  if arg = 0 then .ok i else .error .argumentNotZero

/-- The decoder: every 32-bit word is exactly one of the seven commands of 30_encoding.md R92 or illegal by R93
(30_encoding.md R95). -/
def decode (w : Word) : Except DecodeError Instr :=
  if reservedField w ≠ 0 then .error .reservedBits
  else
    match (opcodeField w).toNat with
    | 1 => .ok (.selectBackend ((argField w).setWidth 32))
    | 2 => withoutArgument (argField w) .keyExpand
    | 3 => withoutArgument (argField w) .encBlock
    | 4 => withoutArgument (argField w) .encBatch
    | 5 => withoutArgument (argField w) .ctrInc
    | 6 => withoutArgument (argField w) .streamEnc
    | 7 => withoutArgument (argField w) .streamDec
    | _ => .error .reservedOpcode

/-- A command word from its three fields, RSVD = 0 (30_encoding.md R91). -/
def commandWord (opcode arg : Byte) : Word := (0#16 ++ arg) ++ opcode

/-- The word of a command, written from the opcode map of 30_encoding.md R92. -/
def encode : Instr → Word
  | .selectBackend arg => commandWord 0x01 (arg.setWidth 8)
  | .keyExpand => commandWord 0x02 0
  | .encBlock => commandWord 0x03 0
  | .encBatch => commandWord 0x04 0
  | .ctrInc => commandWord 0x05 0
  | .streamEnc => commandWord 0x06 0
  | .streamDec => commandWord 0x07 0

/-- The command the decoder reads from the word whose bits are `w`. There is one length, 32 bits (30_encoding.md
R90), so a number that needs more bits is no command. -/
def decodeTableWord (nbits w : Nat) : Option Instr :=
  if nbits ≤ 32 ∧ w < 2 ^ nbits then
    match decode (BitVec.ofNat 32 w) with
    | .ok i => some i
    | .error _ => none
  else none

end Sys2Proof
end

