-- ==== Sys2Proof/Machine/Aes.lean ====
section
/-! DEFINITION. The field GF(2^8), the S-box, the AES-256 key expansion and the forward cipher
(spec/41_key_schedule.md R140 to R151, spec/42_block_cipher.md R170 to R177). -/

namespace Sys2Proof.Machine

/-! ### Bytes of words and blocks -/

/-- Byte `j` of a word, byte 0 the most significant (00_scope.md R15, 10_state.md R22). -/
def wordByte (w : Word) (j : Nat) : Byte := w.extractLsb' (24 - 8 * j) 8

/-- The word with bytes `[a0, a1, a2, a3]` (00_scope.md R15). -/
def wordOf (a0 a1 a2 a3 : Byte) : Word := (a0 ++ a1) ++ (a2 ++ a3)

/-- Byte `i` of a block, byte 0 the most significant (00_scope.md R11). -/
def blockByte (b : Block) (i : Nat) : Byte := b.extractLsb' (120 - 8 * i) 8

/-- The block of four words in increasing word order (10_state.md R22). -/
def blockOf (w0 w1 w2 w3 : Word) : Block := (w0 ++ w1) ++ (w2 ++ w3)

/-- The block with byte `f i` at position `i`. -/
def blockOfBytes (f : Nat → Byte) : Block :=
  blockOf (wordOf (f 0) (f 1) (f 2) (f 3)) (wordOf (f 4) (f 5) (f 6) (f 7))
    (wordOf (f 8) (f 9) (f 10) (f 11)) (wordOf (f 12) (f 13) (f 14) (f 15))

/-- The 16 bytes of a block in order. -/
def blockBytes (b : Block) : List Byte := (List.range 16).map (blockByte b)

/-- The word at position `i` of a block held in four registers (10_state.md R22). -/
def blockWord (b : Block) (i : Nat) : Word := b.extractLsb' (96 - 32 * i) 32

/-! ### The field -/

/-- Multiplication by x modulo 0x11B (41_key_schedule.md R141). -/
def xtime (b : Byte) : Byte :=
  let t : BitVec 9 := b ++ 0#1
  (if t.getLsbD 8 then t ^^^ 0x11b#9 else t).setWidth 8

/-- The loop of `gmul`: bit by bit of `b` from bit 0 (41_key_schedule.md R142). -/
def gmulLoop : Nat → Byte → Byte → Byte → Byte
  | 0, _, _, r => r
  | n + 1, a, b, r => gmulLoop n (xtime a) (b >>> 1) (if b.getLsbD 0 then r ^^^ a else r)

/-- The field product (41_key_schedule.md R142). -/
def gmul (a b : Byte) : Byte := gmulLoop 8 a b 0

/-- The field inverse, with `inv(0) = 0` (41_key_schedule.md R143). -/
def gfInverse (b : Byte) : Byte :=
  (((List.range 256).map (BitVec.ofNat 8)).find? fun c => gmul b c == 1).getD 0

/-- The affine map of the S-box: bit `i` takes bits `i`, `i+4`, `i+5`, `i+6`, `i+7` modulo 8 and the constant 0x63
(41_key_schedule.md R144). -/
def sboxAffine (b : Byte) : Byte :=
  b ^^^ b.rotateRight 4 ^^^ b.rotateRight 5 ^^^ b.rotateRight 6 ^^^ b.rotateRight 7 ^^^ 0x63

/-! ### The S-box -/

/-- The table of 41_key_schedule.md R145: one block per row `x`, the entry of column `y` being its byte `y`. -/
def sboxRows : List Block :=
  [0x637c777bf26b6fc53001672bfed7ab76, 0xca82c97dfa5947f0add4a2af9ca472c0,
   0xb7fd9326363ff7cc34a5e5f171d83115, 0x04c723c31896059a071280e2eb27b275,
   0x09832c1a1b6e5aa0523bd6b329e32f84, 0x53d100ed20fcb15b6acbbe394a4c58cf,
   0xd0efaafb434d338545f9027f503c9fa8, 0x51a3408f929d38f5bcb6da2110fff3d2,
   0xcd0c13ec5f974417c4a77e3d645d1973, 0x60814fdc222a908846eeb814de5e0bdb,
   0xe0323a0a4906245cc2d3ac629195e479, 0xe7c8376d8dd54ea96c56f4ea657aae08,
   0xba78252e1ca6b4c6e8dd741f4bbd8b8a, 0x703eb5664803f60e613557b986c11d9e,
   0xe1f8981169d98e949b1e87e9ce5528df, 0x8ca1890dbfe6426841992d0fb054bb16]

/-- `SBOX[16x + y]`, the entry in row `x`, column `y` (41_key_schedule.md R145). -/
def sbox (b : Byte) : Byte := blockByte (sboxRows.getD (b.toNat / 16) 0) (b.toNat % 16)

/-! ### The key expansion -/

/-- RotWord: `[a1, a2, a3, a0]` (41_key_schedule.md R146). -/
def rotWord (a : Word) : Word := wordOf (wordByte a 1) (wordByte a 2) (wordByte a 3) (wordByte a 0)

/-- SubWord: the S-box on each byte (41_key_schedule.md R146). -/
def subWord (a : Word) : Word :=
  wordOf (sbox (wordByte a 0)) (sbox (wordByte a 1)) (sbox (wordByte a 2)) (sbox (wordByte a 3))

/-- `rc_j`: `rc_1 = 0x01`, `rc_j = xtime(rc_(j-1))` (41_key_schedule.md R147). -/
def roundConstant : Nat → Byte
  | 0 => 0
  | 1 => 1
  | j + 2 => xtime (roundConstant (j + 1))

/-- `Rcon[j] = [rc_j, 0, 0, 0]` (41_key_schedule.md R147). -/
def rcon (j : Nat) : Word := wordOf (roundConstant j) 0 0 0

/-- `temp` of the recurrence for word `i`, from word `i - 1` (41_key_schedule.md R149, with the `i mod 8 = 4` step that
90_conflicts.md C2 keeps). -/
def scheduleTemp (i : Nat) (previous : Word) : Word :=
  if i % 8 = 0 then subWord (rotWord previous) ^^^ rcon (i / 8)
  else if i % 8 = 4 then subWord previous
  else previous

/-- Word `i` of the expansion from the words before it, `i` being how many there are (41_key_schedule.md R149). -/
def nextScheduleWord (ws : List Word) : Word :=
  ws.getD (ws.length - 8) 0 ^^^ scheduleTemp ws.length (ws.getD (ws.length - 1) 0)

/-- The next `n` words of the expansion, appended to the words so far. -/
def expandLoop : Nat → List Word → List Word
  | 0, ws => ws
  | n + 1, ws => expandLoop n (ws ++ [nextScheduleWord ws])

theorem expandLoop_length (n : Nat) (ws : List Word) : (expandLoop n ws).length = ws.length + n := by
  induction n generalizing ws with
  | zero => rfl
  | succ n ih => simp only [expandLoop, ih, List.length_append, List.length_singleton]; omega

/-- `Expand(K)`: the 8 words of the key, then words 8 to 59 (41_key_schedule.md R148 to R150). It depends on the key
alone (R151), whatever the backend (R153). -/
def expandKey (key : Vector Word 8) : Vector Word 60 :=
  ⟨(expandLoop 52 key.toList).toArray, by simp [expandLoop_length]⟩

/-! ### The cipher -/

/-- `s[r][c]` of the cipher state loaded from a block: byte `r + 4c` (42_block_cipher.md R170). -/
def stateCell (b : Block) (r c : Nat) : Byte := blockByte b (r + 4 * c)

/-- The block read out of the cipher state with `s[r][c] = f r c` (42_block_cipher.md R170). -/
def blockOfCells (f : Nat → Nat → Byte) : Block := blockOfBytes fun i => f (i % 4) (i / 4)

/-- SubBytes (42_block_cipher.md R171). -/
def subBytes (b : Block) : Block := blockOfCells fun r c => sbox (stateCell b r c)

/-- ShiftRows: row `r` rotated left by `r` (42_block_cipher.md R172). -/
def shiftRows (b : Block) : Block := blockOfCells fun r c => stateCell b r ((c + r) % 4)

/-- MixColumns (42_block_cipher.md R173). -/
def mixColumns (b : Block) : Block :=
  blockOfCells fun r c =>
    let a := fun k => stateCell b k c
    match r with
    | 0 => gmul (a 0) 2 ^^^ gmul (a 1) 3 ^^^ a 2 ^^^ a 3
    | 1 => a 0 ^^^ gmul (a 1) 2 ^^^ gmul (a 2) 3 ^^^ a 3
    | 2 => a 0 ^^^ a 1 ^^^ gmul (a 2) 2 ^^^ gmul (a 3) 3
    | _ => gmul (a 0) 3 ^^^ a 1 ^^^ a 2 ^^^ gmul (a 3) 2

/-- Round key `r` as a block: word `RK[4r + c]` is its column `c` (41_key_schedule.md R150). -/
def roundKey (rk : Vector Word 60) (r : Fin 15) : Block :=
  blockOf rk[4 * r.val] rk[4 * r.val + 1] rk[4 * r.val + 2] rk[4 * r.val + 3]

/-- AddRoundKey with round key `r` (42_block_cipher.md R174): byte `j` of word `RK[4r + c]` stands where `s[j][c]`
does. -/
def addRoundKey (rk : Vector Word 60) (r : Fin 15) (b : Block) : Block := b ^^^ roundKey rk r

/-- One of the rounds 1 to 13 (42_block_cipher.md R175). -/
def cipherRound (rk : Vector Word 60) (b : Block) (r : Fin 15) : Block :=
  addRoundKey rk r (mixColumns (shiftRows (subBytes b)))

/-- `AES(RK, in)`, the forward cipher (42_block_cipher.md R175), the same for every backend (R177). -/
def aes (rk : Vector Word 60) (input : Block) : Block :=
  let afterRound13 := ([1, 2, 3, 4, 5, 6, 7, 8, 9, 10, 11, 12, 13] : List (Fin 15)).foldl (cipherRound rk)
    (addRoundKey rk 0 input)
  addRoundKey rk 14 (shiftRows (subBytes afterRound13))

end Sys2Proof.Machine
end

