-- ==== Sys2Proof/Config.lean ====
section
/-! DEFINITION. What the platform fixes (spec/00_scope.md R8) and the free values the spec leaves open. -/

namespace Sys2Proof

/-- The two kinds of engine access to the data space (spec/20_memory.md R61). -/
inductive AccessKind
  | read
  | write
deriving DecidableEq, Repr

/-- A range of data-space addresses the platform answers, with the kinds of access it answers there. -/
structure Region where
  base : Nat
  size : Nat
  readable : Bool
  writable : Bool
deriving DecidableEq, Repr, Inhabited

/-- The open parameters of 00_scope.md R8 that the model takes as an argument: REG_BASE (256-aligned, so its upper
24 bits), HAS_VECTOR, HAS_DELEGATED and MEM_ADMIT (the regions that are answered; log entries 5 and 6). -/
structure Platform where
  windowPage : BitVec 24
  hasVector : Bool
  hasDelegated : Bool
  answers : List Region
deriving DecidableEq, Repr, Inhabited

namespace Config

/-- The platform of the machine after reset. No value is chosen (00_scope.md R8: "the source leaves them to the
platform"; log entry 5). -/
opaque platform : Platform

/-- The value of the `n`-th host read of CTR, DOUT, RESULT or PHYS_POS made while the engine is BUSY: "a free draw"
(10_state.md R40; log entry 7). -/
opaque busyRead : Nat → Word

end Config

end Sys2Proof
end

