-- ==== Sys2Proof/Machine/State.lean ====
section
/-! DEFINITION. The state of one engine instance, its data space, its platform and the moves still to happen, as
plain data (spec/10_state.md, spec/70_reset_and_hazards.md R270). -/

namespace Sys2Proof.Machine

/-- Why the machine stops. -/
inductive Fault
  /-- Raised by a host access to the register window that is not a 32-bit access at a 4-byte-aligned offset, and by a
  byte access of the data space that falls into the window: "A model treats such an access as a fault of the host"
  (20_memory.md R71). Safe: the spec gives the access no effect. -/
  | irregularAccess (offset : BitVec 8)
deriving DecidableEq, Repr

/-- Why the machine gives an instruction no meaning. -/
inductive Refusal
  /-- Raised by an arm of `exec` whose instruction has no meaning yet. Safe: no claim can be proved about it. -/
  | notModelled (mnemonic : String)
deriving DecidableEq, Repr

/-- The three backends (44_backend_select.md R230); id 3 names none. -/
inductive Backend
  | software
  | vector
  | delegated
deriving DecidableEq, Repr

/-- The width of a host access to the register window (20_memory.md R71). -/
inductive AccessSize
  | byte
  | half
  | word
  | double
deriving DecidableEq, Repr

/-- What may happen next. The host stands for every agent of the data space but this engine (log entry 12). -/
inductive Move
  /-- The engine takes one micro-step (log entry 14). -/
  | engine
  /-- A host that keeps 70_reset_and_hazards.md R276 writes the word to CMD and leaves the engine alone until the
  command has completed: one atomic step (70 R286; log entry 2). -/
  | command (w : Word)
  /-- The host writes a register of the window (30_encoding.md R98 `wr`). -/
  | writeReg (offset : BitVec 8) (size : AccessSize) (v : Word)
  /-- The host reads a register of the window (30_encoding.md R98 `rd`). -/
  | readReg (offset : BitVec 8) (size : AccessSize)
  /-- Another agent stores a byte of the data space; `hostWins` says which value a byte that the running command has
  already written keeps at completion (20_memory.md R76; log entry 8). -/
  | store (a : Word) (v : Byte) (hostWins : Bool)
  /-- Another agent loads a byte of the data space; `engineValue` says whether it gets the value the running command
  has written or the value before it (20_memory.md R76; log entry 8). -/
  | load (a : Word) (engineValue : Bool)
  /-- The platform resets the engine (70_reset_and_hazards.md R270); `landed` says which bytes of the iteration in
  progress hold the command's value afterwards (R271; log entry 8). -/
  | reset (landed : List Bool)
deriving DecidableEq, Repr

/-- The loop cursors of 10_state.md R42 and 43_stream_transform.md R190, R193. ENC_BATCH counts its blocks in
`written` (42_block_cipher.md R179) and leaves the others at 0. -/
structure Cursors where
  bo : Nat
  first : Bool
  written : Nat
  pos : Nat
deriving DecidableEq, Repr

/-- One iteration whose addresses are all admitted (20_memory.md R66): the source addresses it reads, the destination
addresses it writes with the keystream byte of each, the cursors after it, and whether it completes its cipher block
(43_stream_transform.md R204). -/
structure Plan where
  reads : List Nat
  writes : List Host.Cell
  next : Cursors
  advance : Bool
deriving DecidableEq, Repr

/-- The commands that run as loops (70_reset_and_hazards.md R283). -/
inductive Loop
  | batch
  | enc
  | dec
deriving DecidableEq, Repr

/-- Where a loop command stands: at the head of its loop, reading the source bytes of an iteration, or writing its
destination bytes (20_memory.md R65). -/
inductive Stage
  | head (c : Cursors)
  | reading (p : Plan) (todo : List Nat) (got : List Byte)
  | writing (p : Plan) (todo written : List Host.Cell)
deriving DecidableEq, Repr

/-- How far a BUSY command has come. -/
inductive Phase
  | accepted
  | looping (l : Loop) (stage : Stage)
deriving DecidableEq, Repr

/-- The command in progress: its word (10_state.md R42), how far it has come, and the bytes its completed iterations
wrote, which other agents need not see before completion (20_memory.md R77; log entry 9). -/
structure Running where
  word : Word
  phase : Phase
  pending : List Host.Cell
deriving DecidableEq, Repr

/-- The sequencer SEQ (10_state.md R24). -/
inductive Seq
  | idle
  | busy (r : Running)
deriving DecidableEq, Repr

/-- The data space (20_memory.md R60): the bytes that differ from what an unlisted address reads as, by rising
address. -/
structure Memory where
  cells : List Host.Cell
deriving DecidableEq, Repr

structure State where
  /-- The open parameters of 00_scope.md R8; no step changes them. -/
  platform : Platform
  /-- SEQ, and with it STATUS.BUSY (10_state.md R24). -/
  seq : Seq
  /-- CTRL.IRQ_EN (10_state.md R25). -/
  irqEn : Bool
  /-- STATUS.DONE (10_state.md R26). -/
  done : Bool
  /-- STATUS.RK_VALID (10_state.md R26, R31). -/
  rkValid : Bool
  /-- STATUS.ERR (10_state.md R26). -/
  err : BitVec 3
  /-- STATUS.CAUSE (10_state.md R26). -/
  cause : BitVec 8
  /-- STATUS.BACKEND (10_state.md R38). -/
  backend : Backend
  /-- The key store KEYBYTES behind KEY0..KEY7 (10_state.md R29, R30). -/
  key : Vector Word 8
  /-- The expanded key RK (10_state.md R31, R43). -/
  rk : Vector Word 60
  /-- CTR0..CTR3, the Counter (10_state.md R32). -/
  ctr : Vector Word 4
  /-- DIN0..DIN3 (10_state.md R33). -/
  din : Vector Word 4
  /-- DOUT0..DOUT3 (10_state.md R33). -/
  dout : Vector Word 4
  /-- INC_LO and INC_HI (10_state.md R34). -/
  incLo : Word
  incHi : Word
  /-- The geometry registers (10_state.md R35). -/
  chunkSize : Word
  tagLen : Word
  c2bOff : Word
  blkOff : Word
  /-- The buffer registers (10_state.md R36). -/
  srcAddr : Word
  srcOff : Word
  dstAddr : Word
  dstOff : Word
  count : Word
  avail : Word
  /-- RESULT and PHYS_POS (10_state.md R37). -/
  result : Word
  physPos : Word
  /-- The data space (20_memory.md R60). -/
  mem : Memory
  /-- The model's own: the moves still to happen, oldest first (log entry 1). -/
  schedule : List Move
  /-- The model's own: the values host reads returned, newest first (log entry 15). -/
  reported : List Word
  /-- The model's own: how many free values have been drawn (log entry 7). -/
  draws : Nat
deriving DecidableEq, Repr

/-- The machine after reset (70_reset_and_hazards.md R270). RK, the data space and the model's own fields hold the
values of log entries 3, 4, 1, 15 and 7. -/
def State.reset : State where
  platform := Config.platform
  seq := .idle
  irqEn := false
  done := false
  rkValid := false
  err := 0
  cause := 0
  backend := .software
  key := Vector.replicate 8 0
  rk := Vector.replicate 60 0
  ctr := Vector.replicate 4 0
  din := Vector.replicate 4 0
  dout := Vector.replicate 4 0
  incLo := 0
  incHi := 0
  chunkSize := 0
  tagLen := 0
  c2bOff := 0
  blkOff := 0
  srcAddr := 0
  srcOff := 0
  dstAddr := 0
  dstOff := 0
  count := 0
  avail := 0
  result := 0
  physPos := 0
  mem := ⟨[]⟩
  schedule := []
  reported := []
  draws := 0

end Sys2Proof.Machine
end

