-- ==== Sys2Proof/Machine/Flags.lean ====
section
/-! DEFINITION. Outcome and cause codes, the STATUS, CAP and CTRL words, and the interrupt output
(spec/10_state.md R25 to R27, spec/60_exceptions.md R240, R241, R250). -/

namespace Sys2Proof.Machine

/-- The sub-causes of INVALID_ARGUMENT (60_exceptions.md R241). -/
inductive ArgumentCause
  | keyNotExpanded
  | negativeIncrement
  | blockOffsetRange
  | chunkSizeAlign
  | c2bRange
  | c2bBlockMismatch
  | badBackendId
deriving DecidableEq, Repr

/-- The outcomes a command completes with (60_exceptions.md R240). -/
inductive Completion
  | ok
  | overflow
  | invalidArgument (c : ArgumentCause)
  | shortRead
  | backendUnavailable
  | busError (k : AccessKind)
  | illegalCommand
deriving DecidableEq, Repr

/-- The CAUSE code of an argument error (60_exceptions.md R241). -/
def argumentCauseCode : ArgumentCause → BitVec 8
  | .keyNotExpanded => 1
  | .negativeIncrement => 2
  | .blockOffsetRange => 3
  | .chunkSizeAlign => 4
  | .c2bRange => 5
  | .c2bBlockMismatch => 6
  | .badBackendId => 7

/-- The CAUSE code of a bus error: 1 READ, 2 WRITE (60_exceptions.md R241). -/
def busErrorCode : AccessKind → BitVec 8
  | .read => 1
  | .write => 2

/-- The code written to STATUS.ERR (60_exceptions.md R240); code 7 is never written. -/
def errCode : Completion → BitVec 3
  | .ok => 0
  | .overflow => 1
  | .invalidArgument _ => 2
  | .shortRead => 3
  | .backendUnavailable => 4
  | .busError _ => 5
  | .illegalCommand => 6

/-- The code written to STATUS.CAUSE: 0 for every outcome R241 does not list (60_exceptions.md R241). -/
def causeCode : Completion → BitVec 8
  | .ok => 0
  | .overflow => 0
  | .invalidArgument c => argumentCauseCode c
  | .shortRead => 0
  | .backendUnavailable => 0
  | .busError k => busErrorCode k
  | .illegalCommand => 0

/-- The two-bit id of a backend (44_backend_select.md R230). -/
def backendId : Backend → BitVec 2
  | .software => 0
  | .vector => 1
  | .delegated => 2

/-- The backend an id names; 3 and above name none (44_backend_select.md R230). -/
def backendOfId (id : Nat) : Option Backend :=
  match id with
  | 0 => some .software
  | 1 => some .vector
  | 2 => some .delegated
  | _ => none

/-- `SEQ = BUSY` (10_state.md R24). -/
def isBusy (s : State) : Bool :=
  match s.seq with
  | .idle => false
  | .busy _ => true

/-- STATUS.IRQ_PEND: `CTRL.IRQ_EN AND STATUS.DONE` (10_state.md R26). -/
def irqPending (s : State) : Bool := s.irqEn && s.done

/-- The interrupt output, a level signal with the value of STATUS.IRQ_PEND (60_exceptions.md R250). -/
def irq (s : State) : Bool := irqPending s

/-- CTRL as the host reads it: bit 0 IRQ_EN, bits 31:1 reserved (10_state.md R25). -/
def ctrlWord (s : State) : Word := 0#31 ++ BitVec.ofBool s.irqEn

/-- STATUS as the host reads it (10_state.md R26). -/
def statusWord (s : State) : Word :=
  0#14 ++ backendId s.backend ++ s.cause ++ 0#1 ++ s.err ++ BitVec.ofBool (irqPending s) ++ BitVec.ofBool s.rkValid ++
    BitVec.ofBool s.done ++ BitVec.ofBool (isBusy s)

/-- CAP (10_state.md R27): ROUNDS = 14, BLOCK_BYTES = 16, NONCE_BYTES = 8, then DEL, VEC and SW. -/
def capWord (p : Platform) : Word :=
  14#8 ++ 16#8 ++ 8#8 ++ 0#5 ++ BitVec.ofBool p.hasDelegated ++ BitVec.ofBool p.hasVector ++ 1#1

/-- The backend is present in this instance: bit `id` of CAP (44_backend_select.md R230, R231; `backendPresent_eq_capBit`
of Laws/Flags.lean says that it is that bit). -/
def backendPresent (p : Platform) : Backend → Bool
  | .software => true
  | .vector => p.hasVector
  | .delegated => p.hasDelegated

end Sys2Proof.Machine
end

