-- ==== Sys2Proof/Machine/Operands.lean ====
section
/-! DEFINITION. The operands a command reads (spec/30_encoding.md R97): the Counter, the increment, the effective
addresses, the geometry, and which addresses are admitted (spec/20_memory.md R61, R62). -/

namespace Sys2Proof.Machine

/-! ### The Counter and the increment operand -/

/-- The Nonce, `CTRBYTES[0..8)` (40_counter.md R120). -/
def nonce (s : State) : BitVec 64 := s.ctr[0] ++ s.ctr[1]

/-- The BlockIndex, `BE(CTRBYTES[8..16))` (40_counter.md R121). -/
def blockIndex (s : State) : BitVec 64 := s.ctr[2] ++ s.ctr[3]

/-- The cipher input block `Nonce ‖ BEbytes_8(b)` (42_block_cipher.md R180). -/
def counterBlock (n b : BitVec 64) : Block := n ++ b

/-- INC read as a two's complement number, `signed64(INC_HI * 2^32 + INC_LO)` (10_state.md R34, 40_counter.md R127). -/
def incOperand (s : State) : Int := (s.incHi ++ s.incLo : BitVec 64).toInt

/-- A 16-byte datum held in four registers (10_state.md R22). -/
def blockOfRegs (v : Vector Word 4) : Block := blockOf v[0] v[1] v[2] v[3]

/-- The four registers that hold a block (10_state.md R22). -/
def regsOfBlock (b : Block) : Vector Word 4 := #v[blockWord b 0, blockWord b 1, blockWord b 2, blockWord b 3]

/-! ### Effective addresses and geometry -/

/-- `SRC_ADDR + SRC_OFF`, unbounded (20_memory.md R62). -/
def srcBase (s : State) : Nat := s.srcAddr.toNat + s.srcOff.toNat

/-- `DST_ADDR + DST_OFF`, unbounded (20_memory.md R62). -/
def dstBase (s : State) : Nat := s.dstAddr.toNat + s.dstOff.toNat

/-- The chunk size C (43_stream_transform.md R192). -/
def chunkBytes (s : State) : Nat := s.chunkSize.toNat

/-- The effective tag length T: 0 when CHUNK_SIZE = 0, whatever TAG_LEN holds (43_stream_transform.md R192). -/
def tagBytes (s : State) : Nat := if s.chunkSize.toNat = 0 then 0 else s.tagLen.toNat

/-- The effective chunk offset c2b: 0 when CHUNK_SIZE = 0, whatever C2B_OFF holds (43_stream_transform.md R192). -/
def chunkSkip (s : State) : Nat := if s.chunkSize.toNat = 0 then 0 else s.c2bOff.toNat

/-! ### Admission -/

/-- REG_BASE, which is 256-aligned (00_scope.md R8). -/
def regBase (p : Platform) : Word := p.windowPage ++ 0#8

/-- The address lies in the engine's own register window (20_memory.md R61). -/
def inWindow (p : Platform) (a : Nat) : Bool := decide ((regBase p).toNat ≤ a ∧ a < (regBase p).toNat + 256)

/-- A region answers accesses of this kind at this address. -/
def regionAnswers (r : Region) (a : Nat) (k : AccessKind) : Bool :=
  decide (r.base ≤ a ∧ a < r.base + r.size) &&
    match k with
    | .read => r.readable
    | .write => r.writable

/-- MEM_ADMIT (00_scope.md R8): some region of the platform answers. -/
def memAdmit (p : Platform) (a : Nat) (k : AccessKind) : Bool := p.answers.any fun r => regionAnswers r a k

/-- An engine access of kind `k` to address `a` is admitted (20_memory.md R61). -/
def admits (p : Platform) (a : Nat) (k : AccessKind) : Bool :=
  decide (a < 2 ^ 32) && memAdmit p a k && !inWindow p a

end Sys2Proof.Machine
end

