-- ==== Sys2Proof/Machine/Ops.lean ====
section
/-! DEFINITION. The shared operations: the data space, the counter increment, accepting and completing a command,
running one atomically, the loop of the loop commands, and reset (spec/20_memory.md, spec/40_counter.md R123,
spec/30_encoding.md R96, spec/60_exceptions.md R245, spec/70_reset_and_hazards.md R270, R271, R286). -/

namespace Sys2Proof.Machine

/-! ### The data space -/

/-- What a byte that nothing has written reads as. DESIGN CHOICE, unsafe (log entry 3): the spec gives RAM no
contents. -/
def unwritten : Byte := 0

/-- The byte at an address in a list of cells. -/
def readCells : List Host.Cell → Nat → Byte
  | [], _ => unwritten
  | c :: cs, a => if c.1 = a then c.2 else readCells cs a

/-- A cell put in its place by rising address. -/
def insertCell : List Host.Cell → Host.Cell → List Host.Cell
  | [], c => [c]
  | d :: ds, c => if d.1 < c.1 then d :: insertCell ds c else c :: d :: ds

/-- A byte stored into a list of cells, which stays sorted and lists no unwritten value. -/
def writeCells (cs : List Host.Cell) (a : Nat) (v : Byte) : List Host.Cell :=
  let others := cs.filter fun c => c.1 != a
  if v = unwritten then others else insertCell others (a, v)

/-- `MemRead(a, 1)` (00_scope.md R13, 20_memory.md R63). -/
def Memory.read (m : Memory) (a : Nat) : Byte := readCells m.cells a

/-- `MemWrite(a, 1, v)` (00_scope.md R13, 20_memory.md R63). -/
def Memory.write (m : Memory) (a : Nat) (v : Byte) : Memory := ⟨writeCells m.cells a v⟩

/-- The bytes stored one after the other (20_memory.md R65). -/
def Memory.writeAll (m : Memory) (cs : List Host.Cell) : Memory := cs.foldl (fun m c => m.write c.1 c.2) m

/-- The one canonical form of a data space: rising addresses, each in `0 .. 2^32 - 1` (20_memory.md R60), and no entry
equal to what an unlisted address reads as. -/
abbrev Memory.wf (m : Memory) : Prop :=
  m.cells.Pairwise (fun c d => c.1 < d.1) ∧ ∀ c ∈ m.cells, c.1 < 2 ^ 32 ∧ c.2 ≠ unwritten

/-- The bytes the completed iterations of the running command wrote, which are not yet visible to every agent
(20_memory.md R77). -/
def pendingWrites (s : State) : List Host.Cell :=
  match s.seq with
  | .idle => []
  | .busy r => r.pending

/-- The data space as the engine itself sees it: its own writes in order (20_memory.md R65, R77). -/
def engineView (s : State) : Memory := s.mem.writeAll (pendingWrites s)

/-! ### The Counter -/

/-- `increment(n)` on a BlockIndex (40_counter.md R123): the check is made on the full sum before any byte is written
(R125), and the Nonce never takes a carry (R122). -/
def increment (b : BitVec 64) (n : Int) : Except Completion (BitVec 64) :=
  if n < 0 then .error (.invalidArgument .negativeIncrement)
  else if 2 ^ 64 ≤ (b.toNat : Int) + n then .error .overflow
  else .ok (BitVec.ofInt 64 ((b.toNat : Int) + n))

/-- `CTRBYTES[8..16) <- BEbytes_8(b)`; CTR0 and CTR1 are untouched (40_counter.md R122, R123). -/
def setBlockIndex (s : State) (b : BitVec 64) : State :=
  { s with ctr := #v[s.ctr[0], s.ctr[1], b.extractLsb' 32 32, b.extractLsb' 0 32] }

/-! ### Acceptance and completion -/

/-- Acceptance of command word `w` (30_encoding.md R96). RESULT and PHYS_POS keep their values. -/
def accept (w : Word) (s : State) : State :=
  { s with
    seq := .busy { word := w, phase := .accepted, pending := [] }
    done := false
    err := 0
    cause := 0 }

/-- Completion, the one way a command ends, whether it finishes or raises (60_exceptions.md R245, 00_scope.md R14):
this is all that "taking an exception" is on this hardware (R246). Every data-space write of the command is performed
first (20_memory.md R75). -/
def complete (o : Completion) (result phys : Nat) (s : State) : State :=
  { s with
    mem := engineView s
    result := BitVec.ofNat 32 result
    physPos := BitVec.ofNat 32 phys
    err := errCode o
    cause := causeCode o
    done := true
    seq := .idle }

/-- A CMD write whose command runs from acceptance to completion in one step (70_reset_and_hazards.md R286). While
BUSY the write is ignored and starts nothing (30_encoding.md R96, 10_state.md R39). -/
def runCommand (w : Word) (body : State → State) (s : State) : State :=
  if isBusy s then s else body (accept w s)

/-- An illegal command word: accepted, completes at once with ILLEGAL_COMMAND (30_encoding.md R93). -/
def illegalCommand (s : State) : State := complete .illegalCommand 0 0 s

/-! ### Loop commands -/

/-- What the head of a loop decides: the command ends there with this outcome and physical cursor, or one iteration
with all its addresses admitted follows. -/
inductive Head
  | done (o : Completion) (phys : Nat)
  | go (p : Plan)
deriving DecidableEq, Repr

/-- The destination bytes of an iteration: each keystream byte XORed with its source byte, and the keystream byte as it
is where the command reads no source (43_stream_transform.md R195, R200; 42_block_cipher.md R179). -/
def xorSource : List Host.Cell → List Byte → List Host.Cell
  | c :: cs, v :: vs => (c.1, v ^^^ c.2) :: xorSource cs vs
  | cs, [] => cs
  | [], _ :: _ => []

/-- All accesses of one iteration: its source bytes in order, then its destination bytes in order (20_memory.md R65). -/
def performPlan (p : Plan) (s : State) : State :=
  { s with mem := s.mem.writeAll (xorSource p.writes (p.reads.map s.mem.read)) }

/-- After an iteration's writes: `increment(1)` exactly when its cipher block is complete (43_stream_transform.md R204),
which may raise OVERFLOW (R206). -/
def advanceBlock (p : Plan) (s : State) : Except Completion State :=
  if p.advance then
    match increment (blockIndex s) 1 with
    | .ok b => .ok (setBlockIndex s b)
    | .error o => .error o
  else .ok s

/-- The loop of a loop command from cursors `c`. The fuel is at least the number of bytes (or blocks) still to do, and
every iteration does at least one (43_stream_transform.md R196), so running out of it is the loop's own exit. -/
def runLoop (head : State → Cursors → Head) : Nat → Cursors → State → State
  | 0, c, s => complete .ok c.written c.pos s
  | n + 1, c, s =>
    match head s c with
    | .done o phys => complete o c.written phys s
    | .go p =>
      match advanceBlock p (performPlan p s) with
      | .error o => complete o p.next.written p.next.pos (performPlan p s)
      | .ok t => runLoop head n p.next t

/-- A loop command: its argument checks, then its loop (60_exceptions.md R248). -/
def runLoopCommand (start : State → Except Completion Cursors) (head : State → Cursors → Head) (s : State) : State :=
  match start s with
  | .error o => complete o 0 0 s
  | .ok c => runLoop head s.count.toNat c s

/-! ### Reset -/

/-- The bytes of an iteration that land when a reset interrupts it: byte `i` when `landed` says so; a byte it does not
mention keeps its old value (70_reset_and_hazards.md R271). -/
def landedCells : List Host.Cell → List Bool → List Host.Cell
  | c :: cs, b :: bs => if b then c :: landedCells cs bs else landedCells cs bs
  | _, _ => []

/-- The destination bytes of the iteration in progress with the values the command has written or would write
(70_reset_and_hazards.md R271; log entry 17). -/
def iterationWrites (s : State) : List Host.Cell :=
  match s.seq with
  | .idle => []
  | .busy r =>
    match r.phase with
    | .accepted => []
    | .looping _ (.head _) => []
    | .looping _ (.reading p todo got) => xorSource p.writes (got ++ todo.map (engineView s).read)
    | .looping _ (.writing _ todo written) => written ++ todo

/-- Reset (70_reset_and_hazards.md R270): every register at its reset value. The data space keeps what the command had
written, and of the iteration in progress the bytes that landed (R271). The platform and the model's own fields are no
state of the engine (log entry 18). -/
def resetEngine (landed : List Bool) (s : State) : State :=
  { State.reset with
    platform := s.platform
    mem := (engineView s).writeAll (landedCells (iterationWrites s) landed)
    schedule := s.schedule
    reported := s.reported
    draws := s.draws }

end Sys2Proof.Machine
end

