-- ==== Sys2Proof/Machine/Backend.lean ====
section
/-! DEFINITION. SELECT_BACKEND (spec/44_backend_select.md R231). -/

namespace Sys2Proof.Machine

/-- The pseudocode of 44_backend_select.md R231 on an accepted command. -/
def selectBackendBody (arg : Word) (s : State) : State :=
  match backendOfId arg.toNat with
  | none => complete (.invalidArgument .badBackendId) 0 0 s
  | some b =>
    if backendPresent s.platform b then complete .ok 0 0 { s with backend := b, rkValid := false }
    else complete .backendUnavailable 0 0 s

/-- SELECT_BACKEND (44_backend_select.md R231). -/
def execSelectBackend (arg : Word) (s : State) : Host.Outcome State Fault Refusal :=
  .next (runCommand (encode (.selectBackend arg)) (selectBackendBody arg) s)

end Sys2Proof.Machine
end

