-- ==== Sys2Proof/Machine/BlockCipher.lean ====
section
/-! DEFINITION. ENC_BLOCK and ENC_BATCH (spec/42_block_cipher.md R178, R179). -/

namespace Sys2Proof.Machine

/-- The pseudocode of 42_block_cipher.md R178 on an accepted command. -/
def encBlockBody (s : State) : State :=
  if s.rkValid then complete .ok 0 0 { s with dout := regsOfBlock (aes s.rk (blockOfRegs s.din)) }
  else complete (.invalidArgument .keyNotExpanded) 0 0 s

/-- ENC_BLOCK (42_block_cipher.md R178). -/
def execEncBlock (s : State) : Host.Outcome State Fault Refusal :=
  .next (runCommand (encode .encBlock) encBlockBody s)

/-- The argument checks of ENC_BATCH, made before any write (42_block_cipher.md R179). -/
def encBatchStart (s : State) : Except Completion Cursors :=
  if s.rkValid = false then .error (.invalidArgument .keyNotExpanded)
  else if 1 ≤ s.count.toNat ∧ 2 ^ 64 ≤ (blockIndex s).toNat + (s.count.toNat - 1) then .error .overflow
  else .ok { bo := 0, first := false, written := 0, pos := 0 }

/-- Keystream block `i` of a batch: `AES(RK, Nonce ‖ BEbytes_8(b0 + i))` (42_block_cipher.md R180). -/
def batchBlock (s : State) (i : Nat) : Block := aes s.rk (counterBlock (nonce s) (blockIndex s + BitVec.ofNat 64 i))

/-- The 16 destination addresses of block `i` of a batch (42_block_cipher.md R179). -/
def batchAddresses (s : State) (i : Nat) : List Nat := (List.range 16).map fun k => dstBase s + 16 * i + k

/-- The head of the loop of 42_block_cipher.md R179 for block `c.written`: an unadmitted byte ends the command before any
write of the block, with the blocks before it kept. -/
def encBatchHead (s : State) (c : Cursors) : Head :=
  if ¬ c.written < s.count.toNat then .done .ok c.pos
  else if (batchAddresses s c.written).any (fun a => !admits s.platform a .write) then .done (.busError .write) 0
  else
    .go
      { reads := []
        writes := (batchAddresses s c.written).zip (blockBytes (batchBlock s c.written))
        next := { bo := 0, first := false, written := c.written + 1, pos := 0 }
        advance := false }

/-- ENC_BATCH (42_block_cipher.md R179). -/
def execEncBatch (s : State) : Host.Outcome State Fault Refusal :=
  .next (runCommand (encode .encBatch) (runLoopCommand encBatchStart encBatchHead) s)

end Sys2Proof.Machine
end

