-- ==== Sys2Proof/Machine/Counter.lean ====
section
/-! DEFINITION. CTR_INC (spec/40_counter.md R127). -/

namespace Sys2Proof.Machine

/-- The pseudocode of 40_counter.md R127 on an accepted command. -/
def ctrIncBody (s : State) : State :=
  match increment (blockIndex s) (incOperand s) with
  | .ok b => complete .ok 0 0 (setBlockIndex s b)
  | .error o => complete o 0 0 s

/-- CTR_INC (40_counter.md R127). -/
def execCtrInc (s : State) : Host.Outcome State Fault Refusal :=
  .next (runCommand (encode .ctrInc) ctrIncBody s)

end Sys2Proof.Machine
end

