-- ==== Sys2Proof/Machine/KeySchedule.lean ====
section
/-! DEFINITION. KEY_EXPAND (spec/41_key_schedule.md R152). -/

namespace Sys2Proof.Machine

/-- The pseudocode of 41_key_schedule.md R152 on an accepted command. -/
def keyExpandBody (s : State) : State :=
  complete .ok 0 0 { s with rk := expandKey s.key, key := Vector.replicate 8 0, rkValid := true }

/-- KEY_EXPAND (41_key_schedule.md R152). -/
def execKeyExpand (s : State) : Host.Outcome State Fault Refusal :=
  .next (runCommand (encode .keyExpand) keyExpandBody s)

end Sys2Proof.Machine
end

