-- ==== Sys2Proof/Machine/Stream.lean ====
section
/-! DEFINITION. STREAM_ENC and STREAM_DEC (spec/43_stream_transform.md R190 to R211). -/

namespace Sys2Proof.Machine

/-- The argument checks of 43_stream_transform.md R191, in its order, then the working copies of R193. They run even
when COUNT = 0. -/
def streamStart (s : State) : Except Completion Cursors :=
  if s.rkValid = false then .error (.invalidArgument .keyNotExpanded)
  else if 16 ≤ s.blkOff.toNat then .error (.invalidArgument .blockOffsetRange)
  else if s.chunkSize.toNat % 16 ≠ 0 then .error (.invalidArgument .chunkSizeAlign)
  else if 0 < s.chunkSize.toNat ∧ s.chunkSize.toNat ≤ s.c2bOff.toNat then .error (.invalidArgument .c2bRange)
  else if 0 < s.chunkSize.toNat ∧ s.c2bOff.toNat % 16 ≠ s.blkOff.toNat then
    .error (.invalidArgument .c2bBlockMismatch)
  else .ok { bo := s.blkOff.toNat, first := true, written := 0, pos := 0 }

/-- The physical cursor at which an iteration transforms its first byte: past the tag at a chunk boundary, then past
the chunk offset on the first iteration, in this fixed order (43_stream_transform.md R197, R201, R202). -/
def iterationPos (s : State) (c : Cursors) : Nat :=
  let afterTag := if 0 < chunkBytes s ∧ c.pos % (chunkBytes s + tagBytes s) = 0 then c.pos + tagBytes s else c.pos
  if c.first then afterTag + chunkSkip s else afterTag

/-- The keystream block of an iteration: `AES(RK, CTRBYTES)` for the Counter as it stands (43_stream_transform.md
R194). -/
def streamBlock (s : State) : Block := aes s.rk (counterBlock (nonce s) (blockIndex s))

/-- The `len` addresses from `base` on, in increasing order (20_memory.md R65). -/
def addressRun (base len : Nat) : List Nat := (List.range len).map (base + ·)

/-- One iteration of `len` bytes at physical cursor `pos`: the checks of 20_memory.md R66, all read addresses first, then
all write addresses; then `ks[bo .. bo + len)` against the source bytes (43_stream_transform.md R194), and the cursors
after it (R195, R200). -/
def streamIteration (s : State) (c : Cursors) (pos len source destination : Nat) : Head :=
  if (addressRun source len).any (fun a => !admits s.platform a .read) then .done (.busError .read) pos
  else if (addressRun destination len).any (fun a => !admits s.platform a .write) then .done (.busError .write) pos
  else
    .go
      { reads := addressRun source len
        writes := (addressRun destination len).zip (((blockBytes (streamBlock s)).drop c.bo).take len)
        next := { bo := 0, first := false, written := c.written + len, pos := pos + len }
        advance := decide (c.bo + len = 16) }

/-- The head of the loop of 43_stream_transform.md R195: at most `16 - bo` bytes (R196) from the logical source to the
physical destination. -/
def streamEncHead (s : State) (c : Cursors) : Head :=
  if ¬ c.written < s.count.toNat then .done .ok c.pos
  else
    streamIteration s c (iterationPos s c) (min (16 - c.bo) (s.count.toNat - c.written))
      (srcBase s + c.written) (dstBase s + iterationPos s c)

/-- The head of the loop of 43_stream_transform.md R200: no byte at physical offset AVAIL or beyond (R199), a
zero-length iteration ends the command with SHORT_READ (R203; its PHYS_POS: log entry 21). -/
def streamDecHead (s : State) (c : Cursors) : Head :=
  if ¬ c.written < s.count.toNat then .done .ok c.pos
  else
    let pos := iterationPos s c
    let len := min (min (s.count.toNat - c.written) (s.avail.toNat - pos)) (16 - c.bo)
    if len = 0 then .done .shortRead pos
    else streamIteration s c pos len (srcBase s + pos) (dstBase s + c.written)

/-- STREAM_ENC (43_stream_transform.md R195). -/
def execStreamEnc (s : State) : Host.Outcome State Fault Refusal :=
  .next (runCommand (encode .streamEnc) (runLoopCommand streamStart streamEncHead) s)

/-- STREAM_DEC (43_stream_transform.md R200). -/
def execStreamDec (s : State) : Host.Outcome State Fault Refusal :=
  .next (runCommand (encode .streamDec) (runLoopCommand streamStart streamDecHead) s)

end Sys2Proof.Machine
end

