-- ==== Sys2Proof/Machine/Dispatch.lean ====
section
/-! DEFINITION. The meaning of every command: one arm per constructor of Instr. -/

namespace Sys2Proof.Machine

def exec (i : Instr) (s : State) : Host.Outcome State Fault Refusal :=
  match i with
  | .selectBackend arg => Sys2Proof.Machine.execSelectBackend arg s
  | .keyExpand => Sys2Proof.Machine.execKeyExpand s
  | .encBlock => Sys2Proof.Machine.execEncBlock s
  | .encBatch => Sys2Proof.Machine.execEncBatch s
  | .ctrInc => Sys2Proof.Machine.execCtrInc s
  | .streamEnc => Sys2Proof.Machine.execStreamEnc s
  | .streamDec => Sys2Proof.Machine.execStreamDec s

end Sys2Proof.Machine
end

