-- ==== Sys2Proof/Machine/Engine.lean ====
section
/-! DEFINITION. The engine in micro-steps of at most one data-space byte access each, between which the host may act
(spec/20_memory.md R63, R65, R76, R77; spec/70_reset_and_hazards.md R283, R286). -/

namespace Sys2Proof.Machine

/-- The argument checks of a loop command. -/
def loopStart : Loop → State → Except Completion Cursors
  | .batch => encBatchStart
  | .enc => streamStart
  | .dec => streamStart

/-- The loop head of a loop command. -/
def loopHead : Loop → State → Cursors → Head
  | .batch => encBatchHead
  | .enc => streamEncHead
  | .dec => streamDecHead

/-- The running command moves to another stage of its loop. -/
def enterStage (r : Running) (l : Loop) (stage : Stage) (s : State) : State :=
  { s with seq := .busy { r with phase := .looping l stage } }

/-- The first micro-step of a loop command: its argument checks. -/
def beginLoop (r : Running) (l : Loop) (s : State) : State :=
  match loopStart l s with
  | .error o => complete o 0 0 s
  | .ok c => enterStage r l (.head c) s

/-- The first micro-step of an accepted command: the word is decoded (30_encoding.md R96); KEY_EXPAND, ENC_BLOCK,
CTR_INC, SELECT_BACKEND and an illegal word complete "in one step of work" (70_reset_and_hazards.md R283). -/
def beginCommand (r : Running) (s : State) : State :=
  match decode r.word with
  | .error _ => illegalCommand s
  | .ok (.selectBackend arg) => selectBackendBody arg s
  | .ok .keyExpand => keyExpandBody s
  | .ok .encBlock => encBlockBody s
  | .ok .encBatch => beginLoop r .batch s
  | .ok .ctrInc => ctrIncBody s
  | .ok .streamEnc => beginLoop r .enc s
  | .ok .streamDec => beginLoop r .dec s

/-- The end of an iteration: its writes join those of the iterations before it, then the Counter
(43_stream_transform.md R204, R206). -/
def endIteration (r : Running) (l : Loop) (p : Plan) (written : List Host.Cell) (s : State) : State :=
  let r' : Running := { r with pending := r.pending ++ written }
  let s' : State := { s with seq := .busy r' }
  match advanceBlock p s' with
  | .error o => complete o p.next.written p.next.pos s'
  | .ok t => enterStage r' l (.head p.next) t

/-- One micro-step of a loop command: decide the iteration at the loop head, read one source byte, or write one
destination byte (20_memory.md R63, R65). -/
def loopStep (r : Running) (l : Loop) (stage : Stage) (s : State) : State :=
  match stage with
  | .head c =>
    match loopHead l s c with
    | .done o phys => complete o c.written phys s
    | .go p => enterStage r l (.reading p p.reads []) s
  | .reading p (a :: todo) got => enterStage r l (.reading p todo (got ++ [(engineView s).read a])) s
  | .reading p [] got => enterStage r l (.writing p (xorSource p.writes got) []) s
  | .writing p (c :: todo) written => enterStage r l (.writing p todo (written ++ [c])) s
  | .writing p [] written => endIteration r l p written s

/-- One micro-step of the engine. Nothing but reset changes an IDLE engine without a host write (60_exceptions.md
R257). -/
def engineStep (s : State) : State :=
  match s.seq with
  | .idle => s
  | .busy r =>
    match r.phase with
    | .accepted => beginCommand r s
    | .looping l stage => loopStep r l stage s

end Sys2Proof.Machine
end

