-- ==== Sys2Proof/Machine/HostBus.lean ====
section
/-! DEFINITION. The register window as the host sees it, host accesses to the data space, and every move that can
happen (spec/10_state.md R21 to R40, spec/20_memory.md R71, R76, spec/70_reset_and_hazards.md R284). -/

namespace Sys2Proof.Machine

/-- The registers of the window (10_state.md R21). -/
inductive Reg
  | ctrl
  | cmd
  | status
  | cap
  | key (i : Fin 8)
  | ctr (i : Fin 4)
  | din (i : Fin 4)
  | dout (i : Fin 4)
  | incLo
  | incHi
  | chunkSize
  | tagLen
  | c2bOff
  | blkOff
  | srcAddr
  | srcOff
  | dstAddr
  | dstOff
  | count
  | avail
  | result
  | physPos
deriving DecidableEq, Repr

/-- The offset of a register in the window (10_state.md R21). -/
def regOffset : Reg → BitVec 8
  | .ctrl => 0x00
  | .cmd => 0x04
  | .status => 0x08
  | .cap => 0x0C
  | .key i => 0x20 + BitVec.ofNat 8 (4 * i.val)
  | .ctr i => 0x40 + BitVec.ofNat 8 (4 * i.val)
  | .din i => 0x50 + BitVec.ofNat 8 (4 * i.val)
  | .dout i => 0x60 + BitVec.ofNat 8 (4 * i.val)
  | .incLo => 0x70
  | .incHi => 0x74
  | .chunkSize => 0x80
  | .tagLen => 0x84
  | .c2bOff => 0x88
  | .blkOff => 0x8C
  | .srcAddr => 0x90
  | .srcOff => 0x94
  | .dstAddr => 0x98
  | .dstOff => 0x9C
  | .count => 0xA0
  | .avail => 0xA4
  | .result => 0xB0
  | .physPos => 0xB4

/-- The registers in the order of the table of 10_state.md R21. -/
def allRegs : List Reg :=
  [.ctrl, .cmd, .status, .cap, .key 0, .key 1, .key 2, .key 3, .key 4, .key 5, .key 6, .key 7,
   .ctr 0, .ctr 1, .ctr 2, .ctr 3, .din 0, .din 1, .din 2, .din 3, .dout 0, .dout 1, .dout 2, .dout 3,
   .incLo, .incHi, .chunkSize, .tagLen, .c2bOff, .blkOff, .srcAddr, .srcOff, .dstAddr, .dstOff, .count, .avail,
   .result, .physPos]

/-- The register at an offset; none at a reserved one (10_state.md R21, R23). -/
def regAt (offset : BitVec 8) : Option Reg := allRegs.find? fun r => regOffset r == offset

/-- A regular access of the window: 32 bits at a 4-byte-aligned offset (20_memory.md R71). -/
def regularAccess (offset : BitVec 8) (size : AccessSize) : Bool := decide (size = .word) && decide (offset.toNat % 4 = 0)

/-- What a read of a register returns while IDLE, and while BUSY if no command writes it (10_state.md R25 to R37, R40).
The write-only CMD and KEY registers read 0 (R28, R29). -/
def regValue (s : State) : Reg → Word
  | .ctrl => ctrlWord s
  | .cmd => 0
  | .status => statusWord s
  | .cap => capWord s.platform
  | .key _ => 0
  | .ctr i => s.ctr[i.val]
  | .din i => s.din[i.val]
  | .dout i => s.dout[i.val]
  | .incLo => s.incLo
  | .incHi => s.incHi
  | .chunkSize => s.chunkSize
  | .tagLen => s.tagLen
  | .c2bOff => s.c2bOff
  | .blkOff => s.blkOff
  | .srcAddr => s.srcAddr
  | .srcOff => s.srcOff
  | .dstAddr => s.dstAddr
  | .dstOff => s.dstOff
  | .count => s.count
  | .avail => s.avail
  | .result => s.result
  | .physPos => s.physPos

/-- The registers whose reads are unspecified while BUSY (10_state.md R40). -/
def unspecifiedWhileBusy : Reg → Bool
  | .ctr _ => true
  | .dout _ => true
  | .result => true
  | .physPos => true
  | .ctrl => false
  | .cmd => false
  | .status => false
  | .cap => false
  | .key _ => false
  | .din _ => false
  | .incLo => false
  | .incHi => false
  | .chunkSize => false
  | .tagLen => false
  | .c2bOff => false
  | .blkOff => false
  | .srcAddr => false
  | .srcOff => false
  | .dstAddr => false
  | .dstOff => false
  | .count => false
  | .avail => false

/-- The host gets a value back (30_encoding.md R98 "the value is reported"). -/
def report (v : Word) (s : State) : State := { s with reported := v :: s.reported }

/-- A host read of a register: no side effect (20_memory.md R72) but the report; a free draw where 10_state.md R40 leaves
the value open. -/
def readRegister (r : Reg) (s : State) : State :=
  if isBusy s && unspecifiedWhileBusy r then report (Config.busyRead s.draws) { s with draws := s.draws + 1 }
  else report (regValue s r) s

/-- A host read at an offset of the window; reserved offsets read 0 (10_state.md R23). -/
def readWindow (offset : BitVec 8) (s : State) : State :=
  match regAt offset with
  | none => report 0 s
  | some r => readRegister r s

/-- A host write of a register while IDLE (10_state.md R25 to R37): read-only registers ignore it, CMD accepts the
command (30_encoding.md R96), KEY0..KEY7 clear RK_VALID (R29), STATUS bit 1 clears DONE (R26). -/
def writeRegisterIdle (r : Reg) (v : Word) (s : State) : State :=
  match r with
  | .ctrl => { s with irqEn := v.getLsbD 0 }
  | .cmd => accept v s
  | .status => if v.getLsbD 1 then { s with done := false } else s
  | .cap => s
  | .key i => { s with key := s.key.set i.val v, rkValid := false }
  | .ctr i => { s with ctr := s.ctr.set i.val v }
  | .din i => { s with din := s.din.set i.val v }
  | .dout _ => s
  | .incLo => { s with incLo := v }
  | .incHi => { s with incHi := v }
  | .chunkSize => { s with chunkSize := v }
  | .tagLen => { s with tagLen := v }
  | .c2bOff => { s with c2bOff := v }
  | .blkOff => { s with blkOff := v }
  | .srcAddr => { s with srcAddr := v }
  | .srcOff => { s with srcOff := v }
  | .dstAddr => { s with dstAddr := v }
  | .dstOff => { s with dstOff := v }
  | .count => { s with count := v }
  | .avail => { s with avail := v }
  | .result => s
  | .physPos => s

/-- A host write of a register: while BUSY only CTRL takes it (10_state.md R39). -/
def writeRegister (r : Reg) (v : Word) (s : State) : State :=
  if isBusy s && decide (r ≠ .ctrl) then s else writeRegisterIdle r v s

/-- A host write at an offset of the window; reserved offsets ignore it (10_state.md R23). -/
def writeWindow (offset : BitVec 8) (v : Word) (s : State) : State :=
  match regAt offset with
  | none => s
  | some r => writeRegister r v s

/-- Every byte the running command has written so far, its current iteration's among them (20_memory.md R76). -/
def writtenSoFar (s : State) : List Host.Cell :=
  match s.seq with
  | .idle => []
  | .busy r =>
    match r.phase with
    | .looping _ (.writing _ _ written) => r.pending ++ written
    | .looping _ (.reading _ _ _) => r.pending
    | .looping _ (.head _) => r.pending
    | .accepted => r.pending

/-- Another agent's load of a data byte: of a byte the running command has written it gets the value before or the
value written, as the move says; of any other byte, the byte (20_memory.md R76). -/
def loadByte (a : Nat) (engineValue : Bool) (s : State) : State :=
  report ((if engineValue then (s.mem.writeAll (writtenSoFar s)).read a else s.mem.read a).setWidth 32) s

/-- The running command without its write to address `a`. -/
def dropWrite (a : Nat) (r : Running) : Running :=
  let keep := fun (cs : List Host.Cell) => cs.filter fun c => c.1 != a
  match r.phase with
  | .looping l (.writing p todo written) =>
    { r with pending := keep r.pending, phase := .looping l (.writing p todo (keep written)) }
  | .looping _ (.reading _ _ _) => { r with pending := keep r.pending }
  | .looping _ (.head _) => { r with pending := keep r.pending }
  | .accepted => { r with pending := keep r.pending }

/-- The sequencer after another agent's store to `a`: where that value is to stand at completion, the engine's write of
the same byte is lost (20_memory.md R76). -/
def seqAfterStore (a : Nat) (hostWins : Bool) : Seq → Seq
  | .idle => .idle
  | .busy r => if hostWins then .busy (dropWrite a r) else .busy r

/-- Another agent's store of a data byte (20_memory.md R76). -/
def storeByte (a : Nat) (v : Byte) (hostWins : Bool) (s : State) : State :=
  { s with mem := s.mem.write a v, seq := seqAfterStore a hostWins s.seq }

/-- The step of a command word: the command it encodes, or the completion of an illegal word (30_encoding.md R93,
R95). -/
def runWord (w : Word) (s : State) : Host.Outcome State Fault Refusal :=
  match decode w with
  | .ok i => exec i s
  | .error _ => .next (runCommand w illegalCommand s)

/-- The offset of an address in the register window. -/
def windowOffset (p : Platform) (a : Word) : BitVec 8 := (a - regBase p).setWidth 8

/-- What one move does. A byte access of the data space that falls into the register window is a narrow access of the
window (20_memory.md R71; log entry 11). -/
def perform (m : Move) (s : State) : Host.Outcome State Fault Refusal :=
  match m with
  | .engine => .next (engineStep s)
  | .command w => runWord w s
  | .writeReg offset size v =>
    if regularAccess offset size then .next (writeWindow offset v s) else .fault (.irregularAccess offset)
  | .readReg offset size =>
    if regularAccess offset size then .next (readWindow offset s) else .fault (.irregularAccess offset)
  | .store a v hostWins =>
    if inWindow s.platform a.toNat then .fault (.irregularAccess (windowOffset s.platform a))
    else .next (storeByte a.toNat v hostWins s)
  | .load a engineValue =>
    if inWindow s.platform a.toNat then .fault (.irregularAccess (windowOffset s.platform a))
    else .next (loadByte a.toNat engineValue s)
  | .reset landed => .next (resetEngine landed s)

/-- The machine's next move: the oldest scheduled one; the engine's own when nothing is scheduled, so that a BUSY
engine is never skipped forever (70_reset_and_hazards.md R283). -/
def nextMove (s : State) : Host.Outcome State Fault Refusal :=
  match s.schedule with
  | [] => .next (engineStep s)
  | m :: rest => perform m { s with schedule := rest }

end Sys2Proof.Machine
end

