-- ==== Sys2Proof/Machine/Step.lean ====
section
/-! DEFINITION. One step of the machine, and where a command stands that the next step runs. -/

namespace Sys2Proof.Machine

/-- One step: one move (log entry 1). -/
def step (s : State) : Host.Outcome State Fault Refusal := nextMove s

/-- The state whose very next step runs the command word `w`: SEQ is IDLE, so that a CMD write is accepted
(30_encoding.md R96), and the oldest move is the atomic CMD write of `w` (log entries 1 and 2). -/
def State.withFetchWord (s : State) (nbits w : Nat) : State :=
  { s with seq := .idle, schedule := .command (BitVec.ofNat 32 (w % 2 ^ nbits)) :: s.schedule }

end Sys2Proof.Machine
end

