-- ==== Sys2Proof/Safety.lean ====
section
/-! DEFINITION. The terms claims use: what a consistent machine is, which outcomes a command can have, and the closed
forms of the stream layout and keystream that spec/43_stream_transform.md R205 and R207 give. -/

namespace Sys2Proof.Machine

/-! ### Outcomes -/

/-- The state a command leaves when it writes nothing but its outcome (60_exceptions.md R245). -/
def endedWith (o : Completion) (result phys : Nat) (s : State) : State :=
  { s with
    seq := .idle
    done := true
    err := errCode o
    cause := causeCode o
    result := BitVec.ofNat 32 result
    physPos := BitVec.ofNat 32 phys }

/-- The (ERR, CAUSE) pairs of 60_exceptions.md R240 and R241. -/
def outcomeTable : List (Nat × Nat) :=
  [(0, 0), (1, 0), (2, 1), (2, 2), (2, 3), (2, 4), (2, 5), (2, 6), (2, 7), (3, 0), (4, 0), (5, 1), (5, 2), (6, 0)]

/-- The outcomes each command can complete with (60_exceptions.md R242). -/
def outcomesOf : Instr → List (Nat × Nat)
  | .selectBackend _ => [(0, 0), (2, 7), (4, 0)]
  | .keyExpand => [(0, 0)]
  | .encBlock => [(0, 0), (2, 1)]
  | .encBatch => [(0, 0), (2, 1), (1, 0), (5, 2)]
  | .ctrInc => [(0, 0), (2, 2), (1, 0)]
  | .streamEnc => [(0, 0), (2, 1), (2, 3), (2, 4), (2, 5), (2, 6), (5, 1), (5, 2), (1, 0)]
  | .streamDec => [(0, 0), (3, 0), (2, 1), (2, 3), (2, 4), (2, 5), (2, 6), (5, 1), (5, 2), (1, 0)]

/-- The outcome recorded in STATUS. -/
def recordedOutcome (s : State) : Nat × Nat := (s.err.toNat, s.cause.toNat)

/-! ### The stream layout and keystream in closed form -/

/-- A stream command passes the argument checks of 43_stream_transform.md R191. -/
def passesChecks (s : State) : Prop :=
  s.rkValid = true ∧ s.blkOff.toNat < 16 ∧ s.chunkSize.toNat % 16 = 0 ∧
    (0 < s.chunkSize.toNat → s.c2bOff.toNat < s.chunkSize.toNat ∧ s.c2bOff.toNat % 16 = s.blkOff.toNat)

/-- The physical offset of the logical byte `w` of a stream command (43_stream_transform.md R207). -/
def physOffset (s : State) (w : Nat) : Nat :=
  if chunkBytes s = 0 then w
  else
    (chunkSkip s + w) / chunkBytes s * (chunkBytes s + tagBytes s) + tagBytes s + (chunkSkip s + w) % chunkBytes s

/-- The physical cursor after `n` logical bytes: just past the last one, 0 when there is none (43_stream_transform.md
R195, R200, R207). -/
def physLength (s : State) (n : Nat) : Nat := if n = 0 then 0 else physOffset s (n - 1) + 1

/-- The BlockIndex after stream position `p`, counted from the start of the first cipher block (43_stream_transform.md
R205). -/
def blockIndexAt (s : State) (p : Nat) : Nat := (blockIndex s).toNat + p / 16

/-- The keystream byte at stream position `p`, counted from the start of the first cipher block
(43_stream_transform.md R194, R204). -/
def keystreamByte (s : State) (p : Nat) : Byte :=
  blockByte (aes s.rk (counterBlock (nonce s) (BitVec.ofNat 64 (blockIndexAt s p)))) (p % 16)

/-- The keystream byte of logical byte `w` of a stream command: position `BLK_OFF + w` (43_stream_transform.md R192). -/
def logicalKeystream (s : State) (w : Nat) : Byte := keystreamByte s (s.blkOff.toNat + w)

/-- The Counter after `n` logical bytes of a stream command: the Nonce as it was, the BlockIndex by R205
(40_counter.md R122, 43_stream_transform.md R205). -/
def counterAfter (s : State) (n : Nat) : Vector Word 4 :=
  (setBlockIndex s (BitVec.ofNat 64 (blockIndexAt s (s.blkOff.toNat + n)))).ctr

/-- Where STREAM_ENC reads logical byte `w`: the logical side is contiguous (43_stream_transform.md R190). -/
def encSource (s : State) (w : Nat) : Nat := srcBase s + w

/-- Where STREAM_ENC writes logical byte `w`: its place in the physical layout (43_stream_transform.md R207). -/
def encDestination (s : State) (w : Nat) : Nat := dstBase s + physOffset s w

/-- Where STREAM_DEC reads logical byte `w`: its place in the physical layout (43_stream_transform.md R207). -/
def decSource (s : State) (w : Nat) : Nat := srcBase s + physOffset s w

/-- Where STREAM_DEC writes logical byte `w`: the logical side is contiguous (43_stream_transform.md R190). -/
def decDestination (s : State) (w : Nat) : Nat := dstBase s + w

/-- The first `n` bytes of a stream command are admitted at both ends (20_memory.md R61). -/
def bytesAdmitted (p : Platform) (source destination : Nat → Nat) (n : Nat) : Prop :=
  ∀ w < n, admits p (source w) .read = true ∧ admits p (destination w) .write = true

/-- No byte is written before a later one is read from the same address (20_memory.md R65, 43_stream_transform.md
R211). It holds for disjoint ranges and for a decryption in place. -/
def noOverwrite (source destination : Nat → Nat) (n : Nat) : Prop :=
  ∀ w v, w < v → v < n → destination w ≠ source v

/-- Data space `m` holds the first `n` bytes of a stream command, each XORed with its keystream byte, and every other
byte is as in `s` (43_stream_transform.md R194, 20_memory.md R64). -/
def bytesTransformed (s : State) (m : Memory) (source destination : Nat → Nat) (n : Nat) : Prop :=
  (∀ w < n, m.read (destination w) = s.mem.read (source w) ^^^ logicalKeystream s w) ∧
    ∀ a, (∀ w < n, a ≠ destination w) → m.read a = s.mem.read a

/-- How many bytes the iteration at logical byte `n` may take: to the end of its cipher block, and at most to COUNT
(43_stream_transform.md R196). -/
def iterationLength (s : State) (n : Nat) : Nat := min (16 - (s.blkOff.toNat + n) % 16) (s.count.toNat - n)

/-- An iteration starts at logical byte `n`: the first one, or at a cipher block boundary (43_stream_transform.md
R207). -/
def iterationStart (s : State) (n : Nat) : Prop := n = 0 ∨ (s.blkOff.toNat + n) % 16 = 0

/-- One iteration of `len` bytes at logical byte `n` takes data space `m` to `m'`: it reads all its source bytes in `m`,
and `m'` holds them XORed with their keystream bytes at the destination, and every other byte as it was (20_memory.md
R65, 43_stream_transform.md R194). -/
def iterationMoves (s : State) (source destination : Nat → Nat) (n len : Nat) (m m' : Memory) : Prop :=
  (∀ k < len, m'.read (destination (n + k)) = m.read (source (n + k)) ^^^ logicalKeystream s (n + k)) ∧
    ∀ a, (∀ k < len, a ≠ destination (n + k)) → m'.read a = m.read a

/-- The iterations of a stream command that does all COUNT bytes, in order: `trace n` is the data space when the
iteration at logical byte `n` begins (20_memory.md R65). -/
def iterationsInOrder (s : State) (source destination : Nat → Nat) (trace : Nat → Memory) : Prop :=
  trace 0 = s.mem ∧ ∀ n < s.count.toNat, iterationStart s n →
    iterationMoves s source destination n (iterationLength s n) (trace n) (trace (n + iterationLength s n))

/-- How far a resumed call advances the physical-side offset, after the call on `s` that ended in `t`: PHYS_POS when
CHUNK_SIZE = 0, else the start of the chunk that holds the next byte (43_stream_transform.md R209). -/
def resumeAdvance (s t : State) : Nat :=
  if chunkBytes s = 0 then t.physPos.toNat
  else (chunkSkip s + t.result.toNat) / chunkBytes s * (chunkBytes s + tagBytes s)

/-- What the host sets to resume the stream that ran on `s` and ended in `t`, its source offset advanced by `source` and
its destination offset by `destination`; COUNT and AVAIL it sets for the new call (43_stream_transform.md R209). -/
def resumed (s t : State) (source destination : Nat) : State :=
  { t with
    blkOff := BitVec.ofNat 32 ((s.blkOff.toNat + t.result.toNat) % 16)
    c2bOff := if chunkBytes s = 0 then s.c2bOff
      else BitVec.ofNat 32 ((chunkSkip s + t.result.toNat) % chunkBytes s)
    srcOff := BitVec.ofNat 32 (s.srcOff.toNat + source)
    dstOff := BitVec.ofNat 32 (s.dstOff.toNat + destination) }

/-! ### The machine invariant -/

/-- All cells of a list stand at addresses the engine may write (20_memory.md R61). -/
def cellsAdmitted (p : Platform) (cs : List Host.Cell) : Prop := ∀ c ∈ cs, admits p c.1 .write = true

/-- The command a loop runs for. -/
def loopInstr : Loop → Instr
  | .batch => .encBatch
  | .enc => .streamEnc
  | .dec => .streamDec

/-- The stage of a loop command is one its own rules lead to: the cursor `bo` lies in a block, and every byte it is
going to write is admitted (20_memory.md R66). -/
def stageConsistent (p : Platform) : Stage → Prop
  | .head c => c.bo < 16
  | .reading pl _ _ => pl.next.bo < 16 ∧ cellsAdmitted p pl.writes
  | .writing pl todo written => pl.next.bo < 16 ∧ cellsAdmitted p todo ∧ cellsAdmitted p written

/-- A BUSY engine: its outcome fields are clear (10_state.md R26, 30_encoding.md R96), a loop runs for the command word
it latched and with a valid expanded key, and its finished iterations wrote only admitted bytes. -/
def runningConsistent (s : State) (r : Running) : Prop :=
  s.done = false ∧ s.err = 0 ∧ s.cause = 0 ∧ cellsAdmitted s.platform r.pending ∧
    match r.phase with
    | .accepted => r.pending = []
    | .looping l stage =>
      s.rkValid = true ∧ decode r.word = .ok (loopInstr l) ∧ stageConsistent s.platform stage

/-- The invariant of the machine. -/
structure Inv (s : State) : Prop where
  /-- The data space has its canonical form. -/
  mem_wf : s.mem.wf
  /-- STATUS records an outcome of the tables of 60_exceptions.md R240 and R241; ERR is never 7. -/
  outcome : recordedOutcome s ∈ outcomeTable
  /-- The selected backend is present (44_backend_select.md R232). -/
  backend_present : backendPresent s.platform s.backend = true
  /-- RK_VALID states that RK is the expansion of some key (10_state.md R31). -/
  rk_expanded : s.rkValid = true → ∃ key, s.rk = expandKey key
  /-- The engine keeps no key past KEY_EXPAND (10_state.md R30, 41_key_schedule.md R152). -/
  key_cleared : s.rkValid = true → s.key = Vector.replicate 8 0
  /-- The command in progress, if any, is consistent. -/
  running : ∀ r, s.seq = .busy r → runningConsistent s r

end Sys2Proof.Machine
end

