-- ==== Sys2Proof/Certificates/Slice0/Obligations.lean ====
section
/-! DEFINITION. The statements about the machine. Each docstring names the rules of spec/ it formalises; a clause that
rests on a choice of the model says so. -/

open Sys2Proof Sys2Proof.Machine

/-! ## Encoding -/

/-- Decoding the word of a well-formed command gives the command back (30_encoding.md R91, R92). -/
def Obligations.DecodeOfEncodeIsTheCommand : Prop :=
  ∀ i : Instr, i.wellFormed = true → decode (encode i) = .ok i

/-- A legal word is the word of exactly the command it decodes to, and that command is well formed (30_encoding.md R92,
R95). -/
def Obligations.EncodeOfDecodeIsTheWord : Prop :=
  ∀ (w : Word) (i : Instr), decode w = .ok i → i.wellFormed = true ∧ encode i = w

/-- The illegal words are those of 30_encoding.md R93; each is accepted, completes at once with ERR = 6, CAUSE = 0 and
RESULT = PHYS_POS = 0, and changes no other state. -/
def Obligations.IllegalWordsCompleteWithIllegalCommand : Prop :=
  (∀ w : Word, (∃ e, decode w = .error e) ↔
    (w.extractLsb' 16 16 ≠ 0 ∨ w.extractLsb' 0 8 = 0 ∨ 0x08 ≤ (w.extractLsb' 0 8).toNat ∨
      (w.extractLsb' 0 8 ≠ 0x01 ∧ w.extractLsb' 8 8 ≠ 0))) ∧
  ∀ (s : State) (w : Word) (rest : List Move), isBusy s = false → s.schedule = .command w :: rest →
    (∃ e, decode w = .error e) →
    step s = .next
      { s with
        schedule := rest
        seq := .idle
        done := true
        err := 6
        cause := 0
        result := 0
        physPos := 0 }

/-- Words written out from the opcode map of 30_encoding.md R92, and the examples of R94 and R93. -/
def Obligations.SampleWordsDecode : Prop :=
  decode 0x00000101 = .ok (.selectBackend 1) ∧ decode 0x00000301 = .ok (.selectBackend 3) ∧
    decode 0x00000002 = .ok .keyExpand ∧ decode 0x00000003 = .ok .encBlock ∧ decode 0x00000004 = .ok .encBatch ∧
    decode 0x00000005 = .ok .ctrInc ∧ decode 0x00000006 = .ok .streamEnc ∧ decode 0x00000007 = .ok .streamDec ∧
    decode 0x00000102 = .error .argumentNotZero ∧ decode 0x00010002 = .error .reservedBits ∧
    decode 0x00000008 = .error .reservedOpcode

/-- When the oldest move is the atomic CMD write of a word that decodes to `i`, the step is `exec i` after that move is
taken off the schedule; `withFetchWord` places such a move (30_encoding.md R96, 70_reset_and_hazards.md R286; the
schedule is the model's, log entry 1). -/
def Obligations.StepRunsTheDecodedCommand : Prop :=
  (∀ (s : State) (w : Word) (i : Instr) (rest : List Move), s.schedule = .command w :: rest → decode w = .ok i →
    i.wellFormed = true → step s = exec i { s with schedule := rest }) ∧
  ∀ (s : State) (i : Instr), i.wellFormed = true →
    step (s.withFetchWord 32 (encode i).toNat) = exec i { s with seq := .idle }

/-! ## The register window -/

/-- A 16-byte datum in four registers: byte `4i + j` is bits `[31 - 8j : 24 - 8j]` of register `i`, and the Counter read
as CTR0 ‖ CTR1 ‖ CTR2 ‖ CTR3 is Nonce ‖ BlockIndex (10_state.md R22, R32, 40_counter.md R120, R121). -/
def Obligations.RegistersPackBytesBigEndian : Prop :=
  (∀ (v : Vector Word 4) (i j : Nat) (hi : i < 4), j < 4 →
    blockByte (blockOfRegs v) (4 * i + j) = v[i].extractLsb' (24 - 8 * j) 8) ∧
  (∀ v : Vector Word 4, regsOfBlock (blockOfRegs v) = v) ∧ (∀ b : Block, blockOfRegs (regsOfBlock b) = b) ∧
  ∀ s : State, counterBlock (nonce s) (blockIndex s) = blockOfRegs s.ctr

/-- Reserved offsets read 0 and ignore writes; reserved bits of CTRL and STATUS read 0 and writes to them are ignored;
in CMD nonzero reserved bits make the command illegal (10_state.md R23). -/
def Obligations.ReservedLocationsReadZero : Prop :=
  (∀ (s : State) (offset : BitVec 8) (v : Word) (rest : List Move), offset.toNat % 4 = 0 →
    (0x10 ≤ offset.toNat ∧ offset.toNat ≤ 0x1C ∨ 0x78 ≤ offset.toNat ∧ offset.toNat ≤ 0x7C ∨
      0xA8 ≤ offset.toNat ∧ offset.toNat ≤ 0xAC ∨ 0xB8 ≤ offset.toNat) →
    (s.schedule = .writeReg offset .word v :: rest → step s = .next { s with schedule := rest }) ∧
    (s.schedule = .readReg offset .word :: rest →
      step s = .next { s with schedule := rest, reported := 0 :: s.reported })) ∧
  (∀ s : State, (ctrlWord s).extractLsb' 1 31 = 0 ∧ (statusWord s).getLsbD 7 = false ∧
    (statusWord s).extractLsb' 18 14 = 0) ∧
  (∀ (s : State) (v w : Word) (rest : List Move),
    (v.getLsbD 0 = w.getLsbD 0 →
      step { s with schedule := .writeReg 0x00 .word v :: rest } =
        step { s with schedule := .writeReg 0x00 .word w :: rest }) ∧
    (v.getLsbD 1 = w.getLsbD 1 →
      step { s with schedule := .writeReg 0x08 .word v :: rest } =
        step { s with schedule := .writeReg 0x08 .word w :: rest })) ∧
  ∀ w : Word, w.extractLsb' 16 16 ≠ 0 → ∃ e, decode w = .error e

/-- While IDLE, a write to a plain RW register of the table of 10_state.md R21, named by its offset, sets the state field
that register holds and changes nothing else, and a read that follows returns the value written (10_state.md R21, R32 to
R36, 20_memory.md R72, 70_reset_and_hazards.md R275, R284). -/
def Obligations.PlainRegistersHoldWhatIsWritten : Prop :=
  ∀ (s u : State) (offset : BitVec 8) (v : Word) (rest : List Move), isBusy s = false →
    ((∃ i : Fin 4, offset = 0x40 + BitVec.ofNat 8 (4 * i.val) ∧ u = { s with ctr := s.ctr.set i.val v }) ∨
      (∃ i : Fin 4, offset = 0x50 + BitVec.ofNat 8 (4 * i.val) ∧ u = { s with din := s.din.set i.val v }) ∨
      (offset = 0x70 ∧ u = { s with incLo := v }) ∨ (offset = 0x74 ∧ u = { s with incHi := v }) ∨
      (offset = 0x80 ∧ u = { s with chunkSize := v }) ∨ (offset = 0x84 ∧ u = { s with tagLen := v }) ∨
      (offset = 0x88 ∧ u = { s with c2bOff := v }) ∨ (offset = 0x8C ∧ u = { s with blkOff := v }) ∨
      (offset = 0x90 ∧ u = { s with srcAddr := v }) ∨ (offset = 0x94 ∧ u = { s with srcOff := v }) ∨
      (offset = 0x98 ∧ u = { s with dstAddr := v }) ∨ (offset = 0x9C ∧ u = { s with dstOff := v }) ∨
      (offset = 0xA0 ∧ u = { s with count := v }) ∨ (offset = 0xA4 ∧ u = { s with avail := v })) →
    (s.schedule = .writeReg offset .word v :: rest → step s = .next { u with schedule := rest }) ∧
    (s.schedule = .writeReg offset .word v :: .readReg offset .word :: rest →
      Host.Core.run Sys2Proof.core 2 s = .next { u with schedule := rest, reported := v :: s.reported })

/-- CAP (0x0C), DOUT0 to DOUT3 (0x60 to 0x6C), RESULT (0xB0) and PHYS_POS (0xB4) ignore every write, while IDLE and while
BUSY (10_state.md R21, R27, R33, R37). -/
def Obligations.ReadOnlyRegistersIgnoreWrites : Prop :=
  ∀ (s : State) (offset : BitVec 8) (v : Word) (rest : List Move),
    (offset = 0x0C ∨ (∃ i : Fin 4, offset = 0x60 + BitVec.ofNat 8 (4 * i.val)) ∨ offset = 0xB0 ∨ offset = 0xB4) →
    s.schedule = .writeReg offset .word v :: rest → step s = .next { s with schedule := rest }

/-- A write to KEYi while IDLE stores the word in the key store, byte `4i + j` being `v[31 - 8j : 24 - 8j]`, and clears
RK_VALID; reads return 0 (10_state.md R29). -/
def Obligations.KeyWritesClearRkValid : Prop :=
  ∀ (s : State) (i : Fin 8) (rest : List Move),
    (∀ v : Word, isBusy s = false → s.schedule = .writeReg (0x20 + BitVec.ofNat 8 (4 * i.val)) .word v :: rest →
      step s = .next { s with schedule := rest, key := s.key.set i.val v, rkValid := false }) ∧
    (∀ (v : Word) (j : Nat), j < 4 → wordByte (s.key.set i.val v)[i.val] j = v.extractLsb' (24 - 8 * j) 8) ∧
    (s.schedule = .readReg (0x20 + BitVec.ofNat 8 (4 * i.val)) .word :: rest →
      step s = .next { s with schedule := rest, reported := 0 :: s.reported })

/-- The fields of STATUS, and its one writable bit: writing 1 to bit 1 while IDLE clears DONE and nothing else
(10_state.md R24, R26, R38). -/
def Obligations.StatusFieldsAndDoneClear : Prop :=
  (∀ s : State,
    (statusWord s).getLsbD 0 = isBusy s ∧ (statusWord s).getLsbD 1 = s.done ∧ (statusWord s).getLsbD 2 = s.rkValid ∧
    (statusWord s).getLsbD 3 = (s.irqEn && s.done) ∧ (statusWord s).extractLsb' 4 3 = s.err ∧
    (statusWord s).extractLsb' 8 8 = s.cause ∧ (statusWord s).extractLsb' 16 2 = backendId s.backend) ∧
  ∀ (s : State) (v : Word) (rest : List Move), isBusy s = false → s.schedule = .writeReg 0x08 .word v :: rest →
    step s = .next { s with schedule := rest, done := s.done && !v.getLsbD 1 }

/-- CAP reads `0x0E100801 OR (HAS_VECTOR << 1) OR (HAS_DELEGATED << 2)` at any time, with the fields 10_state.md R27
names, and ignores writes. -/
def Obligations.CapReportsThePlatform : Prop :=
  (∀ p : Platform,
    capWord p = 0x0E100801 ||| ((BitVec.ofBool p.hasVector).setWidth 32 <<< 1) |||
      ((BitVec.ofBool p.hasDelegated).setWidth 32 <<< 2) ∧
    (capWord p).getLsbD 0 = true ∧ (capWord p).getLsbD 1 = p.hasVector ∧ (capWord p).getLsbD 2 = p.hasDelegated ∧
    (capWord p).extractLsb' 3 5 = 0 ∧ (capWord p).extractLsb' 8 8 = 8 ∧ (capWord p).extractLsb' 16 8 = 16 ∧
    (capWord p).extractLsb' 24 8 = 14) ∧
  ∀ (s : State) (rest : List Move),
    (s.schedule = .readReg 0x0C .word :: rest →
      step s = .next { s with schedule := rest, reported := capWord s.platform :: s.reported }) ∧
    ∀ v : Word, s.schedule = .writeReg 0x0C .word v :: rest → step s = .next { s with schedule := rest }

/-- CTRL is 0 after reset, holds IRQ_EN in bit 0, reads its other bits as 0 and ignores writes to them, may be written
while BUSY, and lets the interrupt output follow DONE (10_state.md R25). -/
def Obligations.CtrlGatesTheInterrupt : Prop :=
  ctrlWord State.reset = 0 ∧
  (∀ (s : State) (v : Word) (rest : List Move), s.schedule = .writeReg 0x00 .word v :: rest →
    step s = .next { s with schedule := rest, irqEn := v.getLsbD 0 }) ∧
  (∀ (s : State) (rest : List Move), s.schedule = .readReg 0x00 .word :: rest →
    ∃ t v, step s = .next t ∧ t = { s with schedule := rest, reported := v :: s.reported } ∧
      v.getLsbD 0 = s.irqEn ∧ v.extractLsb' 1 31 = 0) ∧
  ∀ s : State, (s.irqEn = true → irq s = s.done) ∧ (s.irqEn = false → irq s = false) ∧
    (statusWord s).getLsbD 3 = irq s

/-- While BUSY a host write to any register other than CTRL is ignored, CMD and STATUS included, in both forms of a CMD
write; a write to CTRL takes effect at once (10_state.md R39). -/
def Obligations.BusyWritesAreIgnored : Prop :=
  ∀ (s : State) (rest : List Move), isBusy s = true →
    (∀ (offset : BitVec 8) (v : Word), offset.toNat % 4 = 0 → s.schedule = .writeReg offset .word v :: rest →
      (offset ≠ 0x00 → step s = .next { s with schedule := rest }) ∧
      (offset = 0x00 → step s = .next { s with schedule := rest, irqEn := v.getLsbD 0 })) ∧
    ∀ w : Word, s.schedule = .command w :: rest → step s = .next { s with schedule := rest }

/-- What a host read reports, register by register of the table of 10_state.md R21. CTR, DOUT, RESULT and PHYS_POS report
their value while IDLE, and while BUSY a free draw; every other register reports its value in both states, the
write-only CMD and KEY registers 0; a reserved location 0. A read changes nothing else (10_state.md R21, R23, R25 to R37,
R40, 20_memory.md R72). That the draw is `Config.busyRead s.draws`, and that `draws` grows by one, is the model's choice:
it numbers the draws, and nothing constrains them (log entry 7). -/
def Obligations.BusyReadsOfEngineRegistersAreFree : Prop :=
  ∀ (s : State) (offset : BitVec 8) (rest : List Move), s.schedule = .readReg offset .word :: rest →
    (∀ x : Word,
      ((∃ i : Fin 4, offset = 0x40 + BitVec.ofNat 8 (4 * i.val) ∧ x = s.ctr[i.val]) ∨
        (∃ i : Fin 4, offset = 0x60 + BitVec.ofNat 8 (4 * i.val) ∧ x = s.dout[i.val]) ∨
        (offset = 0xB0 ∧ x = s.result) ∨ (offset = 0xB4 ∧ x = s.physPos)) →
      (isBusy s = false → step s = .next { s with schedule := rest, reported := x :: s.reported }) ∧
      (isBusy s = true →
        step s = .next
          { s with schedule := rest, reported := Config.busyRead s.draws :: s.reported, draws := s.draws + 1 })) ∧
    (∀ x : Word,
      ((offset = 0x00 ∧ x = ctrlWord s) ∨ (offset = 0x04 ∧ x = 0) ∨ (offset = 0x08 ∧ x = statusWord s) ∨
        (offset = 0x0C ∧ x = capWord s.platform) ∨
        (∃ i : Fin 8, offset = 0x20 + BitVec.ofNat 8 (4 * i.val) ∧ x = 0) ∨
        (∃ i : Fin 4, offset = 0x50 + BitVec.ofNat 8 (4 * i.val) ∧ x = s.din[i.val]) ∨
        (offset = 0x70 ∧ x = s.incLo) ∨ (offset = 0x74 ∧ x = s.incHi) ∨ (offset = 0x80 ∧ x = s.chunkSize) ∨
        (offset = 0x84 ∧ x = s.tagLen) ∨ (offset = 0x88 ∧ x = s.c2bOff) ∨ (offset = 0x8C ∧ x = s.blkOff) ∨
        (offset = 0x90 ∧ x = s.srcAddr) ∨ (offset = 0x94 ∧ x = s.srcOff) ∨ (offset = 0x98 ∧ x = s.dstAddr) ∨
        (offset = 0x9C ∧ x = s.dstOff) ∨ (offset = 0xA0 ∧ x = s.count) ∨ (offset = 0xA4 ∧ x = s.avail)) →
      step s = .next { s with schedule := rest, reported := x :: s.reported }) ∧
    (offset.toNat % 4 = 0 →
      (0x10 ≤ offset.toNat ∧ offset.toNat ≤ 0x1C ∨ 0x78 ≤ offset.toNat ∧ offset.toNat ≤ 0x7C ∨
        0xA8 ≤ offset.toNat ∧ offset.toNat ≤ 0xAC ∨ 0xB8 ≤ offset.toNat) →
      step s = .next { s with schedule := rest, reported := 0 :: s.reported })

/-- A CMD write while IDLE accepts the command: SEQ becomes BUSY with the word latched, DONE, ERR and CAUSE are cleared,
and every other register, RESULT and PHYS_POS among them, keeps its value (30_encoding.md R96, 92_eei_decisions.md D43). -/
def Obligations.CmdWriteAcceptsTheCommand : Prop :=
  ∀ (s : State) (w : Word) (rest : List Move), isBusy s = false → s.schedule = .writeReg 0x04 .word w :: rest →
    step s = .next
      { s with
        schedule := rest
        seq := .busy { word := w, phase := .accepted, pending := [] }
        done := false
        err := 0
        cause := 0 }

/-- The ERR and CAUSE codes (60_exceptions.md R240, R241); ERR = 7 is never written. -/
def Obligations.OutcomeCodes : Prop :=
  (errCode .ok = 0 ∧ errCode .overflow = 1 ∧ (∀ c, errCode (.invalidArgument c) = 2) ∧ errCode .shortRead = 3 ∧
    errCode .backendUnavailable = 4 ∧ (∀ k, errCode (.busError k) = 5) ∧ errCode .illegalCommand = 6) ∧
  (∀ o : Completion, errCode o ≠ 7) ∧
  (causeCode (.invalidArgument .keyNotExpanded) = 1 ∧ causeCode (.invalidArgument .negativeIncrement) = 2 ∧
    causeCode (.invalidArgument .blockOffsetRange) = 3 ∧ causeCode (.invalidArgument .chunkSizeAlign) = 4 ∧
    causeCode (.invalidArgument .c2bRange) = 5 ∧ causeCode (.invalidArgument .c2bBlockMismatch) = 6 ∧
    causeCode (.invalidArgument .badBackendId) = 7 ∧ causeCode (.busError .read) = 1 ∧
    causeCode (.busError .write) = 2) ∧
  ∀ o : Completion, (∀ c, o ≠ .invalidArgument c) → (∀ k, o ≠ .busError k) → causeCode o = 0

/-- A host access of the window that is not 32-bit at an aligned offset, or a byte access of the data space that falls
into the window, is a fault of the host; every regular access has a next state (20_memory.md R71; that a byte access
by data address is such an access is the model's reading, log entry 11). -/
def Obligations.IrregularWindowAccessFaults : Prop :=
  (∀ (s : State) (offset : BitVec 8) (size : AccessSize) (v : Word) (rest : List Move),
    (s.schedule = .writeReg offset size v :: rest →
      ((size ≠ .word ∨ offset.toNat % 4 ≠ 0) → step s = .fault (.irregularAccess offset)) ∧
      (size = .word → offset.toNat % 4 = 0 → ∃ t, step s = .next t)) ∧
    (s.schedule = .readReg offset size :: rest →
      ((size ≠ .word ∨ offset.toNat % 4 ≠ 0) → step s = .fault (.irregularAccess offset)) ∧
      (size = .word → offset.toNat % 4 = 0 → ∃ t, step s = .next t))) ∧
  ∀ (s : State) (a : Word) (v : Byte) (b : Bool) (rest : List Move),
    (regBase s.platform).toNat ≤ a.toNat → a.toNat < (regBase s.platform).toNat + 256 →
    (s.schedule = .store a v b :: rest →
      step s = .fault (.irregularAccess (BitVec.ofNat 8 (a.toNat - (regBase s.platform).toNat)))) ∧
    (s.schedule = .load a b :: rest →
      step s = .fault (.irregularAccess (BitVec.ofNat 8 (a.toNat - (regBase s.platform).toNat))))

/-! ## Single-step commands -/

/-- SELECT_BACKEND: an id of 3 or more raises INVALID_ARGUMENT(7), an absent backend BACKEND_UNAVAILABLE, both with
BACKEND and RK_VALID unchanged; a present one is selected and RK_VALID cleared, the one already selected included;
Software is always present (44_backend_select.md R231). -/
def Obligations.SelectBackendEffect : Prop :=
  (∀ id : Byte, encode (.selectBackend (id.setWidth 32)) = 0x00000001 ||| (id.setWidth 32 <<< 8)) ∧
  (∀ p : Platform, (capWord p).getLsbD 0 = true) ∧
  ∀ (arg : Word) (s : State), isBusy s = false →
    (3 ≤ arg.toNat →
      exec (.selectBackend arg) s = .next (endedWith (.invalidArgument .badBackendId) 0 0 s)) ∧
    (arg.toNat < 3 → (capWord s.platform).getLsbD arg.toNat = false →
      exec (.selectBackend arg) s = .next (endedWith .backendUnavailable 0 0 s)) ∧
    (arg.toNat < 3 → (capWord s.platform).getLsbD arg.toNat = true →
      ∃ b, (backendId b).toNat = arg.toNat ∧
        exec (.selectBackend arg) s = .next (endedWith .ok 0 0 { s with backend := b, rkValid := false }))

/-- KEY_EXPAND: RK becomes the expansion of the key store, which is then zeroed; RK_VALID is set; nothing else changes. A
second KEY_EXPAND with no KEY write between them expands the all-zero key (41_key_schedule.md R152). -/
def Obligations.KeyExpandEffect : Prop :=
  encode .keyExpand = 0x00000002 ∧
  ∀ s : State, isBusy s = false →
    exec .keyExpand s = .next
      (endedWith .ok 0 0 { s with rk := expandKey s.key, key := Vector.replicate 8 0, rkValid := true }) ∧
    ∀ t u, exec .keyExpand s = .next t → exec .keyExpand t = .next u → u.rk = expandKey (Vector.replicate 8 0)

/-- ENC_BLOCK: DOUT becomes `AES(RK, DIN)` when RK_VALID = 1; otherwise INVALID_ARGUMENT(1) with DOUT unchanged; nothing
else changes (42_block_cipher.md R178). -/
def Obligations.EncBlockEffect : Prop :=
  encode .encBlock = 0x00000003 ∧
  ∀ s : State, isBusy s = false →
    (s.rkValid = true →
      ∃ d, blockOfRegs d = aes s.rk (blockOfRegs s.din) ∧
        exec .encBlock s = .next (endedWith .ok 0 0 { s with dout := d })) ∧
    (s.rkValid = false → exec .encBlock s = .next (endedWith (.invalidArgument .keyNotExpanded) 0 0 s))

/-- CTR_INC: a negative operand raises INVALID_ARGUMENT(2); a sum of 2^64 or more raises OVERFLOW; both leave the Counter
unchanged; otherwise the BlockIndex grows by the operand and the Nonce stays (40_counter.md R127, R125). -/
def Obligations.CtrIncEffect : Prop :=
  encode .ctrInc = 0x00000005 ∧
  ∀ s : State, isBusy s = false →
    (s.incHi.getLsbD 31 = true →
      exec .ctrInc s = .next (endedWith (.invalidArgument .negativeIncrement) 0 0 s)) ∧
    (s.incHi.getLsbD 31 = false →
      2 ^ 64 ≤ (blockIndex s).toNat + (s.incHi.toNat * 2 ^ 32 + s.incLo.toNat) →
      exec .ctrInc s = .next (endedWith .overflow 0 0 s)) ∧
    (s.incHi.getLsbD 31 = false →
      (blockIndex s).toNat + (s.incHi.toNat * 2 ^ 32 + s.incLo.toNat) < 2 ^ 64 →
      ∃ q : Vector Word 4, exec .ctrInc s = .next (endedWith .ok 0 0 { s with ctr := q }) ∧
        q[0] = s.ctr[0] ∧ q[1] = s.ctr[1] ∧
        (q[2] ++ q[3] : BitVec 64).toNat = (blockIndex s).toNat + (s.incHi.toNat * 2 ^ 32 + s.incLo.toNat))

/-! ## The cipher -/

/-- The S-box table is the affine map of the field inverse, bit by bit (41_key_schedule.md R143, R144). -/
def Obligations.SboxIsAffineOfInverse : Prop :=
  (∀ x : Byte, sbox x = sboxAffine (gfInverse x)) ∧
  (∀ (b : Byte) (i : Nat), i < 8 →
    (sboxAffine b).getLsbD i =
      (b.getLsbD i ^^ b.getLsbD ((i + 4) % 8) ^^ b.getLsbD ((i + 5) % 8) ^^ b.getLsbD ((i + 6) % 8) ^^
        b.getLsbD ((i + 7) % 8) ^^ (0x63#8).getLsbD i)) ∧
  gfInverse 0 = 0 ∧ ∀ b : Byte, b ≠ 0 → ∀ c : Byte, gmul b c = 1 ↔ c = gfInverse b

/-- The field product: multiplication by x reduces modulo 0x11B, so a carry out of bit 7 adds 0x1B; `gmul` is bilinear,
commutes, takes x out of a product, and gives the products by 1, 2 and 3 that the ciphers use (41_key_schedule.md R140,
R141, R142; that these laws hold is derived from the algorithms the rules give). -/
def Obligations.FieldProductIsMultiplication : Prop :=
  (∀ b : Byte, xtime b = if b.getLsbD 7 then (b <<< 1) ^^^ 0x1b else b <<< 1) ∧
  ∀ a b c : Byte, gmul (a ^^^ b) c = gmul a c ^^^ gmul b c ∧ gmul a (b ^^^ c) = gmul a b ^^^ gmul a c ∧
    gmul a b = gmul b a ∧ gmul (xtime a) b = xtime (gmul a b) ∧ gmul a 1 = a ∧ gmul a 2 = xtime a ∧
    gmul a 3 = xtime a ^^^ a

/-- RotWord, SubWord, the XOR of words and the round constants, byte by byte (41_key_schedule.md R146, R147). -/
def Obligations.WordOperationsOnBytes : Prop :=
  (∀ (a b : Word) (j : Nat), j < 4 →
    wordByte (rotWord a) j = wordByte a ((j + 1) % 4) ∧ wordByte (subWord a) j = sbox (wordByte a j) ∧
      wordByte (a ^^^ b) j = wordByte a j ^^^ wordByte b j) ∧
  (wordByte (rcon 1) 0 = 0x01 ∧ ∀ j : Nat, 2 ≤ j → wordByte (rcon j) 0 = xtime (wordByte (rcon (j - 1)) 0)) ∧
  (List.range' 1 7).map (fun j => wordByte (rcon j) 0) = [0x01, 0x02, 0x04, 0x08, 0x10, 0x20, 0x40] ∧
  ∀ j k : Nat, 0 < k → k < 4 → wordByte (rcon j) k = 0

/-- The key expansion meets the initial words and the recurrence, the `i mod 8 = 4` step included (41_key_schedule.md
R148, R149). -/
def Obligations.KeyExpansionRecurrence : Prop :=
  ∀ (key : Vector Word 8) (i : Nat) (h : i < 60),
    (∀ h8 : i < 8, (expandKey key)[i] = key[i]) ∧
    (8 ≤ i →
      (expandKey key)[i] = (expandKey key)[i - 8] ^^^
        (if i % 8 = 0 then subWord (rotWord (expandKey key)[i - 1]) ^^^ rcon (i / 8)
        else if i % 8 = 4 then subWord (expandKey key)[i - 1]
        else (expandKey key)[i - 1]))

/-- The four transformations on the cipher state `s[r][c]`, whose byte `r + 4c` of a block it is (42_block_cipher.md
R170, R171, R172, R173, R174). -/
def Obligations.RoundTransformationsOnCells : Prop :=
  ∀ (b : Block) (r c : Nat) (_ : r < 4) (_ : c < 4),
    stateCell b r c = blockByte b (r + 4 * c) ∧
    stateCell (subBytes b) r c = sbox (stateCell b r c) ∧
    stateCell (shiftRows b) r c = stateCell b r ((c + r) % 4) ∧
    stateCell (mixColumns b) 0 c =
      gmul (stateCell b 0 c) 2 ^^^ gmul (stateCell b 1 c) 3 ^^^ stateCell b 2 c ^^^ stateCell b 3 c ∧
    stateCell (mixColumns b) 1 c =
      stateCell b 0 c ^^^ gmul (stateCell b 1 c) 2 ^^^ gmul (stateCell b 2 c) 3 ^^^ stateCell b 3 c ∧
    stateCell (mixColumns b) 2 c =
      stateCell b 0 c ^^^ stateCell b 1 c ^^^ gmul (stateCell b 2 c) 2 ^^^ gmul (stateCell b 3 c) 3 ∧
    stateCell (mixColumns b) 3 c =
      gmul (stateCell b 0 c) 3 ^^^ stateCell b 1 c ^^^ stateCell b 2 c ^^^ gmul (stateCell b 3 c) 2 ∧
    ∀ (rk : Vector Word 60) (k : Fin 15),
      stateCell (addRoundKey rk k b) r c = stateCell b r c ^^^ wordByte (rk[4 * k.val + c]'(by omega)) r

/-- The cipher is the initial AddRoundKey, rounds 1 to 13 and the final round without MixColumns (42_block_cipher.md
R175). -/
def Obligations.CipherIsFourteenRounds : Prop :=
  ∀ (rk : Vector Word 60) (input : Block),
    ∃ st : Nat → Block, st 0 = addRoundKey rk 0 input ∧
      (∀ r : Fin 15, 1 ≤ r.val → r.val ≤ 13 →
        st r.val = addRoundKey rk r (mixColumns (shiftRows (subBytes (st (r.val - 1)))))) ∧
      aes rk input = addRoundKey rk 14 (shiftRows (subBytes (st 13)))

/-! ## ENC_BATCH -/

/-- ENC_BATCH writes COUNT keystream blocks from `DST_ADDR + DST_OFF` on, block `i` being `AES(RK, Nonce ‖ (b0 + i))`,
when the key is expanded, the last counter value fits and every destination byte is admitted; it leaves the Counter,
every other register and every other data byte (42_block_cipher.md R179, R180). -/
def Obligations.EncBatchWritesKeystream : Prop :=
  ∀ s : State, isBusy s = false → s.rkValid = true → (blockIndex s).toNat + s.count.toNat ≤ 2 ^ 64 →
    (∀ k < 16 * s.count.toNat, admits s.platform (dstBase s + k) .write = true) →
    ∃ m, exec .encBatch s = .next (endedWith .ok s.count.toNat 0 { s with mem := m }) ∧
      (∀ i < s.count.toNat, ∀ k < 16,
        m.read (dstBase s + 16 * i + k) =
          blockByte (aes s.rk (counterBlock (nonce s) (BitVec.ofNat 64 ((blockIndex s).toNat + i)))) k) ∧
      ∀ a, (a < dstBase s ∨ dstBase s + 16 * s.count.toNat ≤ a) → m.read a = s.mem.read a

/-- Where ENC_BATCH stops: without a key, and on a counter overflow, nothing is written; at the first block with an
unadmitted byte the blocks before it are kept and RESULT is its index (42_block_cipher.md R179, 20_memory.md R66). -/
def Obligations.EncBatchStops : Prop :=
  ∀ s : State, isBusy s = false →
    (s.rkValid = false → exec .encBatch s = .next (endedWith (.invalidArgument .keyNotExpanded) 0 0 s)) ∧
    (s.rkValid = true → 1 ≤ s.count.toNat → 2 ^ 64 ≤ (blockIndex s).toNat + (s.count.toNat - 1) →
      exec .encBatch s = .next (endedWith .overflow 0 0 s)) ∧
    ∀ i, s.rkValid = true → (blockIndex s).toNat + s.count.toNat ≤ 2 ^ 64 → i < s.count.toNat →
      (∀ k < 16 * i, admits s.platform (dstBase s + k) .write = true) →
      (∃ k < 16, admits s.platform (dstBase s + 16 * i + k) .write = false) →
      ∃ m, exec .encBatch s = .next (endedWith (.busError .write) i 0 { s with mem := m }) ∧
        (∀ j < i, ∀ k < 16,
          m.read (dstBase s + 16 * j + k) =
            blockByte (aes s.rk (counterBlock (nonce s) (BitVec.ofNat 64 ((blockIndex s).toNat + j)))) k) ∧
        ∀ a, (a < dstBase s ∨ dstBase s + 16 * i ≤ a) → m.read a = s.mem.read a

/-! ## Stream commands -/

/-- The argument checks of both stream commands, in order, the first that applies being raised with nothing accessed and
nothing else changed (43_stream_transform.md R191). -/
def Obligations.StreamArgumentChecks : Prop :=
  ∀ (s : State) (i : Instr), (i = .streamEnc ∨ i = .streamDec) → isBusy s = false →
    (s.rkValid = false → exec i s = .next (endedWith (.invalidArgument .keyNotExpanded) 0 0 s)) ∧
    (s.rkValid = true → 16 ≤ s.blkOff.toNat →
      exec i s = .next (endedWith (.invalidArgument .blockOffsetRange) 0 0 s)) ∧
    (s.rkValid = true → s.blkOff.toNat < 16 → s.chunkSize.toNat % 16 ≠ 0 →
      exec i s = .next (endedWith (.invalidArgument .chunkSizeAlign) 0 0 s)) ∧
    (s.rkValid = true → s.blkOff.toNat < 16 → s.chunkSize.toNat % 16 = 0 → 0 < s.chunkSize.toNat →
      s.chunkSize.toNat ≤ s.c2bOff.toNat →
      exec i s = .next (endedWith (.invalidArgument .c2bRange) 0 0 s)) ∧
    (s.rkValid = true → s.blkOff.toNat < 16 → s.chunkSize.toNat % 16 = 0 → 0 < s.chunkSize.toNat →
      s.c2bOff.toNat < s.chunkSize.toNat → s.c2bOff.toNat % 16 ≠ s.blkOff.toNat →
      exec i s = .next (endedWith (.invalidArgument .c2bBlockMismatch) 0 0 s)) ∧
    (passesChecks s → s.count = 0 → exec i s = .next (endedWith .ok 0 0 s))

/-- STREAM_ENC completes with RESULT = COUNT: logical byte `w` is XORed with keystream byte `BLK_OFF + w` and lands at
its place in the physical layout; tag gaps, skipped bytes and all other data bytes are untouched; the Counter follows
R205; PHYS_POS is the physical length (43_stream_transform.md R194, R195, R198, R204, R207; 20_memory.md R64). -/
def Obligations.StreamEncTransforms : Prop :=
  ∀ s : State, isBusy s = false → passesChecks s → blockIndexAt s (s.blkOff.toNat + s.count.toNat) < 2 ^ 64 →
    bytesAdmitted s.platform (encSource s) (encDestination s) s.count.toNat →
    noOverwrite (encSource s) (encDestination s) s.count.toNat →
    ∃ m, exec .streamEnc s = .next
        (endedWith .ok s.count.toNat (physLength s s.count.toNat)
          { s with ctr := counterAfter s s.count.toNat, mem := m }) ∧
      bytesTransformed s m (encSource s) (encDestination s) s.count.toNat

/-- STREAM_DEC completes with RESULT = COUNT when AVAIL covers the physical length; in place decryption included
(43_stream_transform.md R194, R199, R200, R204, R207, R211). -/
def Obligations.StreamDecTransforms : Prop :=
  ∀ s : State, isBusy s = false → passesChecks s → blockIndexAt s (s.blkOff.toNat + s.count.toNat) < 2 ^ 64 →
    physLength s s.count.toNat ≤ s.avail.toNat →
    bytesAdmitted s.platform (decSource s) (decDestination s) s.count.toNat →
    noOverwrite (decSource s) (decDestination s) s.count.toNat →
    ∃ m, exec .streamDec s = .next
        (endedWith .ok s.count.toNat (physLength s s.count.toNat)
          { s with ctr := counterAfter s s.count.toNat, mem := m }) ∧
      bytesTransformed s m (decSource s) (decDestination s) s.count.toNat

/-- Overlapping ranges are no special case: when all COUNT bytes are admitted, a stream command completes with RESULT =
COUNT, and each iteration reads all its source bytes as the iterations before it left them, then writes all its
destination bytes, tag gaps and all other bytes untouched (20_memory.md R65, 43_stream_transform.md R194, R195, R200,
R211). -/
def Obligations.StreamFollowsTheAccessOrder : Prop :=
  ∀ s : State, isBusy s = false → passesChecks s → blockIndexAt s (s.blkOff.toNat + s.count.toNat) < 2 ^ 64 →
    (bytesAdmitted s.platform (encSource s) (encDestination s) s.count.toNat →
      ∃ trace : Nat → Memory, iterationsInOrder s (encSource s) (encDestination s) trace ∧
        exec .streamEnc s = .next
          (endedWith .ok s.count.toNat (physLength s s.count.toNat)
            { s with ctr := counterAfter s s.count.toNat, mem := trace s.count.toNat })) ∧
    (physLength s s.count.toNat ≤ s.avail.toNat →
      bytesAdmitted s.platform (decSource s) (decDestination s) s.count.toNat →
      ∃ trace : Nat → Memory, iterationsInOrder s (decSource s) (decDestination s) trace ∧
        exec .streamDec s = .next
          (endedWith .ok s.count.toNat (physLength s s.count.toNat)
            { s with ctr := counterAfter s s.count.toNat, mem := trace s.count.toNat }))

/-- STREAM_DEC on a source that ends early: it decrypts the `n` logical bytes below AVAIL and completes with SHORT_READ,
RESULT = n and PHYS_POS at the place of the byte it did not find (43_stream_transform.md R199, R200, R203; that PHYS_POS
is past the tag it skipped is read from the pseudocode of R200 and the vectors V33 and V34, log entry 21). -/
def Obligations.StreamDecShortRead : Prop :=
  ∀ (s : State) (n : Nat), isBusy s = false → passesChecks s → n < s.count.toNat →
    (∀ w < n, physOffset s w < s.avail.toNat) → s.avail.toNat ≤ physOffset s n →
    blockIndexAt s (s.blkOff.toNat + n) < 2 ^ 64 →
    bytesAdmitted s.platform (decSource s) (decDestination s) n →
    noOverwrite (decSource s) (decDestination s) n →
    ∃ m, exec .streamDec s = .next
        (endedWith .shortRead n (physOffset s n) { s with ctr := counterAfter s n, mem := m }) ∧
      bytesTransformed s m (decSource s) (decDestination s) n

/-- Overflow mid-stream: when the cipher block of BlockIndex `2^64 - 1` is completed at logical byte `n`, COUNT or not,
the command ends with OVERFLOW, those `n` bytes written and counted, the Counter at `2^64 - 1`
(43_stream_transform.md R206, 40_counter.md R125). -/
def Obligations.StreamOverflowKeepsTheBlock : Prop :=
  ∀ (s : State) (n : Nat), isBusy s = false → passesChecks s → n ≤ s.count.toNat →
    s.blkOff.toNat + n = 16 * (2 ^ 64 - (blockIndex s).toNat) →
    (bytesAdmitted s.platform (encSource s) (encDestination s) n →
      noOverwrite (encSource s) (encDestination s) n →
      ∃ m, exec .streamEnc s = .next
          (endedWith .overflow n (physLength s n)
            { s with ctr := #v[s.ctr[0], s.ctr[1], 0xFFFFFFFF, 0xFFFFFFFF], mem := m }) ∧
        bytesTransformed s m (encSource s) (encDestination s) n) ∧
    (physLength s n ≤ s.avail.toNat → bytesAdmitted s.platform (decSource s) (decDestination s) n →
      noOverwrite (decSource s) (decDestination s) n →
      ∃ m, exec .streamDec s = .next
          (endedWith .overflow n (physLength s n)
            { s with ctr := #v[s.ctr[0], s.ctr[1], 0xFFFFFFFF, 0xFFFFFFFF], mem := m }) ∧
        bytesTransformed s m (decSource s) (decDestination s) n)

/-- A bus error of STREAM_ENC: at the iteration that starts at logical byte `n`, an unadmitted source address, or else an
unadmitted destination address, ends the command before any access of that iteration, with the iterations before it
kept, RESULT = n and PHYS_POS at the iteration's first byte (20_memory.md R66, 60_exceptions.md R243, R244). -/
def Obligations.StreamEncBusError : Prop :=
  ∀ (s : State) (n : Nat) (kind : AccessKind), isBusy s = false → passesChecks s → n < s.count.toNat →
    iterationStart s n → blockIndexAt s (s.blkOff.toNat + n) < 2 ^ 64 →
    bytesAdmitted s.platform (encSource s) (encDestination s) n →
    noOverwrite (encSource s) (encDestination s) n →
    (kind = .read → ∃ k < iterationLength s n, admits s.platform (encSource s (n + k)) .read = false) →
    (kind = .write →
      (∀ k < iterationLength s n, admits s.platform (encSource s (n + k)) .read = true) ∧
      ∃ k < iterationLength s n, admits s.platform (encDestination s (n + k)) .write = false) →
    ∃ m, exec .streamEnc s = .next
        (endedWith (.busError kind) n (physOffset s n) { s with ctr := counterAfter s n, mem := m }) ∧
      bytesTransformed s m (encSource s) (encDestination s) n

/-- A bus error of STREAM_DEC, by the same rules, the iteration being also cut at AVAIL (20_memory.md R66,
43_stream_transform.md R200, 60_exceptions.md R243, R244). -/
def Obligations.StreamDecBusError : Prop :=
  ∀ (s : State) (n : Nat) (kind : AccessKind), isBusy s = false → passesChecks s → n < s.count.toNat →
    iterationStart s n → physOffset s n < s.avail.toNat → blockIndexAt s (s.blkOff.toNat + n) < 2 ^ 64 →
    bytesAdmitted s.platform (decSource s) (decDestination s) n →
    noOverwrite (decSource s) (decDestination s) n →
    (kind = .read →
      ∃ k < min (iterationLength s n) (s.avail.toNat - physOffset s n),
        admits s.platform (decSource s (n + k)) .read = false) →
    (kind = .write →
      (∀ k < min (iterationLength s n) (s.avail.toNat - physOffset s n),
        admits s.platform (decSource s (n + k)) .read = true) ∧
      ∃ k < min (iterationLength s n) (s.avail.toNat - physOffset s n),
        admits s.platform (decDestination s (n + k)) .write = false) →
    ∃ m, exec .streamDec s = .next
        (endedWith (.busError kind) n (physOffset s n) { s with ctr := counterAfter s n, mem := m }) ∧
      bytesTransformed s m (decSource s) (decDestination s) n

/-- After a stream command that completes with OK, SHORT_READ or BUS_ERROR the BlockIndex equals
`B0 + floor((BLK_OFF + RESULT) / 16)`; after OVERFLOW it equals `2^64 - 1 = B0 + floor((BLK_OFF + RESULT) / 16) - 1`; the
Nonce is unchanged (43_stream_transform.md R205). -/
def Obligations.StreamCounterFollowsFloor : Prop :=
  ∀ (s t : State) (i : Instr), (i = .streamEnc ∨ i = .streamDec) → isBusy s = false → exec i s = .next t →
    ((t.err = 0 ∨ t.err = 3 ∨ t.err = 5) →
      (blockIndex t).toNat = (blockIndex s).toNat + (s.blkOff.toNat + t.result.toNat) / 16) ∧
    (t.err = 1 →
      (blockIndex t).toNat = 2 ^ 64 - 1 ∧
        (blockIndex s).toNat + (s.blkOff.toNat + t.result.toNat) / 16 - 1 = 2 ^ 64 - 1) ∧
    nonce t = nonce s

/-- Whatever a stream command's outcome, the only data bytes it changes are the destination bytes of the RESULT logical
bytes it reports; tag gaps and skipped bytes are never written (20_memory.md R64, 43_stream_transform.md R207). -/
def Obligations.StreamWritesOnlyItsBytes : Prop :=
  ∀ (s t : State) (a : Nat), isBusy s = false →
    (exec .streamEnc s = .next t → (∀ w < t.result.toNat, a ≠ encDestination s w) → t.mem.read a = s.mem.read a) ∧
    (exec .streamDec s = .next t → (∀ w < t.result.toNat, a ≠ decDestination s w) → t.mem.read a = s.mem.read a)

/-- The physical layout: no logical byte lies in a tag slot, the places rise with the logical position, and inside a
cipher block they are consecutive, so no iteration crosses a chunk boundary (43_stream_transform.md R207). -/
def Obligations.LayoutSkipsTagSlots : Prop :=
  ∀ (s : State) (w : Nat), passesChecks s →
    physOffset s w < physOffset s (w + 1) ∧
    (0 < chunkBytes s → tagBytes s ≤ physOffset s w % (chunkBytes s + tagBytes s)) ∧
    ((s.blkOff.toNat + w + 1) % 16 ≠ 0 → physOffset s (w + 1) = physOffset s w + 1)

/-- Round trip: STREAM_DEC of the physical bytes STREAM_ENC wrote, with the same RK, starting Counter and geometry,
COUNT = n and AVAIL = PHYS_POS of the encryption, returns OK with the plaintext, and both leave the same Counter,
provided neither raises OVERFLOW or BUS_ERROR (43_stream_transform.md R208). The ranges must not overwrite bytes still to
be read, and the physical length must be below 2^32, since PHYS_POS holds it modulo 2^32. -/
def Obligations.StreamRoundTrip : Prop :=
  ∀ (s t d u : State), isBusy s = false → passesChecks s → noOverwrite (encSource s) (encDestination s) s.count.toNat →
    physLength s s.count.toNat < 2 ^ 32 →
    exec .streamEnc s = .next t → t.err = 0 →
    (∃ address offset : Word,
      d = { t with
            ctr := s.ctr
            srcAddr := s.dstAddr
            srcOff := s.dstOff
            dstAddr := address
            dstOff := offset
            avail := t.physPos }) →
    noOverwrite (decSource d) (decDestination d) s.count.toNat →
    exec .streamDec d = .next u → u.err ≠ 1 → u.err ≠ 5 →
    u.err = 0 ∧ u.result = s.count ∧ u.ctr = t.ctr ∧
      ∀ w < s.count.toNat, u.mem.read (decDestination d w) = s.mem.read (encSource s w)

/-- Resuming a stream by 43_stream_transform.md R209: a first call, then a call set up as that rule says, leave exactly the
data space and the Counter of one call over both ranges. For STREAM_ENC the first call completed with OK. For STREAM_DEC
it completed with OK or with SHORT_READ, in which case the second call has more of the source; the second call ends as
the single call does, OK or SHORT_READ, and RESULT adds up. The offsets must not wrap, AVAIL counts from each call's own
source offset, and no byte may be written before it is read. -/
def Obligations.StreamEncResumes : Prop :=
  (∀ (s t₁ s₂ t₂ t : State) (n₁ n₂ : Word), isBusy s = false → passesChecks s →
    n₁.toNat + n₂.toNat < 2 ^ 32 → s.count = n₁ + n₂ →
    noOverwrite (encSource s) (encDestination s) s.count.toNat →
    exec .streamEnc { s with count := n₁ } = .next t₁ → t₁.err = 0 →
    s.srcOff.toNat + t₁.result.toNat < 2 ^ 32 → s.dstOff.toNat + resumeAdvance s t₁ < 2 ^ 32 →
    s₂ = { resumed s t₁ t₁.result.toNat (resumeAdvance s t₁) with count := n₂ } →
    exec .streamEnc s₂ = .next t₂ → t₂.err = 0 → exec .streamEnc s = .next t → t.err = 0 →
    t₁.result = n₁ ∧ t₂.result = n₂ ∧ t₂.ctr = t.ctr ∧ ∀ a, t₂.mem.read a = t.mem.read a) ∧
  ∀ (s t₁ s₂ t₂ t : State) (n₁ n₂ a₁ a₂ : Word), isBusy s = false → passesChecks s →
    noOverwrite (decSource s) (decDestination s) s.count.toNat →
    exec .streamDec { s with count := n₁, avail := a₁ } = .next t₁ → (t₁.err = 0 ∨ t₁.err = 3) →
    t₁.result.toNat + n₂.toNat < 2 ^ 32 → s.count = t₁.result + n₂ →
    a₁.toNat ≤ s.avail.toNat → s.avail.toNat = resumeAdvance s t₁ + a₂.toNat →
    s.srcOff.toNat + resumeAdvance s t₁ < 2 ^ 32 → s.dstOff.toNat + t₁.result.toNat < 2 ^ 32 →
    s₂ = { resumed s t₁ (resumeAdvance s t₁) t₁.result.toNat with count := n₂, avail := a₂ } →
    exec .streamDec s₂ = .next t₂ → (t₂.err = 0 ∨ t₂.err = 3) →
    exec .streamDec s = .next t → (t.err = 0 ∨ t.err = 3) →
    t₂.err = t.err ∧ t₁.result.toNat + t₂.result.toNat = t.result.toNat ∧ t₂.ctr = t.ctr ∧
      ∀ a, t₂.mem.read a = t.mem.read a

/-! ## Rules of the whole machine -/

/-- Every step keeps the invariant of the machine: the data space's canonical form, a legal outcome in STATUS, a present
backend, RK the expansion of a key while RK_VALID = 1, no key kept past KEY_EXPAND, and a BUSY engine whose outcome
fields are clear and whose command is the one it latched (10_state.md R26, R30, R31; 44_backend_select.md R232;
60_exceptions.md R240, R241; the canonical form is the model's). -/
def Obligations.StepKeepsTheInvariant : Prop := ∀ s t : State, Inv s → step s = .next t → Inv t

/-- The machine after reset meets the invariant (70_reset_and_hazards.md R270). -/
def Obligations.ResetMeetsTheInvariant : Prop := Inv State.reset

/-- A CMD write that runs atomically ends in exactly the state the interleaved command ends in when nobody interferes,
for every command word, the illegal ones included (70_reset_and_hazards.md R286; the two forms are the model's, log
entry 2). -/
def Obligations.AtomicCommandEqualsInterleaved : Prop :=
  ∀ (s t : State) (w : Word), isBusy s = false →
    step { s with schedule := [.command w] } = .next t →
    ∃ n, Host.Core.run Sys2Proof.core n { s with schedule := [.writeReg 0x04 .word w] } = .next t

/-- Every accepted command completes: a consistent machine with nothing scheduled reaches IDLE in finitely many of the
engine's own steps, and if it was BUSY it ends with DONE = 1 and an outcome of the command it had latched, ERR = 6 for an
illegal word (60_exceptions.md R242, R245, 70_reset_and_hazards.md R283, R285; the engine moves when nothing is
scheduled, log entry 14). -/
def Obligations.BusyEngineReachesIdle : Prop :=
  ∀ s : State, Inv s → s.schedule = [] →
    ∃ n t, Host.Core.run Sys2Proof.core n s = .next t ∧ t.seq = .idle ∧
      ∀ r, s.seq = .busy r →
        t.done = true ∧ (∀ i, decode r.word = .ok i → recordedOutcome t ∈ outcomesOf i) ∧
          ∀ e, decode r.word = .error e → recordedOutcome t = (6, 0)

/-- For every command, the values left in every register and data byte are the same whichever backend was selected, but
for STATUS.BACKEND itself (44_backend_select.md R233). -/
def Obligations.BackendChoiceIsUnobservable : Prop :=
  ∀ (i : Instr) (s : State) (b : Backend),
    ∃ t u, exec i s = .next t ∧ exec i { s with backend := b } = .next u ∧ { u with backend := t.backend } = t

/-- The engine's write set: what each command leaves unchanged (10_state.md R41). -/
def Obligations.CommandsWriteOnlyTheirSet : Prop :=
  ∀ (i : Instr) (s t : State), exec i s = .next t →
    (t.platform = s.platform ∧ t.irqEn = s.irqEn ∧ t.din = s.din ∧ t.incLo = s.incLo ∧ t.incHi = s.incHi ∧
      t.chunkSize = s.chunkSize ∧ t.tagLen = s.tagLen ∧ t.c2bOff = s.c2bOff ∧ t.blkOff = s.blkOff ∧
      t.srcAddr = s.srcAddr ∧ t.srcOff = s.srcOff ∧ t.dstAddr = s.dstAddr ∧ t.dstOff = s.dstOff ∧
      t.count = s.count ∧ t.avail = s.avail ∧ t.schedule = s.schedule ∧ t.reported = s.reported ∧
      t.draws = s.draws) ∧
    (t.ctr[0] = s.ctr[0] ∧ t.ctr[1] = s.ctr[1]) ∧
    (i ≠ .ctrInc → i ≠ .streamEnc → i ≠ .streamDec → t.ctr = s.ctr) ∧
    (i ≠ .encBlock → t.dout = s.dout) ∧
    (i ≠ .keyExpand → t.key = s.key ∧ t.rk = s.rk) ∧
    (i ≠ .keyExpand → (∀ arg, i ≠ .selectBackend arg) → t.rkValid = s.rkValid) ∧
    ((∀ arg, i ≠ .selectBackend arg) → t.backend = s.backend) ∧
    (i ≠ .encBatch → i ≠ .streamEnc → i ≠ .streamDec → ∀ a, t.mem.read a = s.mem.read a)

/-- Every command, issued while IDLE, completes: it has a next state, with one of the outcomes listed for it, SEQ back to
IDLE and DONE set; an illegal word completes with ERR = 6, CAUSE = 0 only (60_exceptions.md R242; SEQ and DONE as R245
says). -/
def Obligations.CommandsCompleteWithListedOutcomes : Prop :=
  (∀ (i : Instr) (s : State), isBusy s = false →
    ∃ t, exec i s = .next t ∧ recordedOutcome t ∈ outcomesOf i ∧ t.seq = .idle ∧ t.done = true) ∧
  ∀ (s : State) (w : Word) (e : DecodeError) (rest : List Move), isBusy s = false → decode w = .error e →
    s.schedule = .command w :: rest → ∃ t, step s = .next t ∧ recordedOutcome t = (6, 0) ∧ t.seq = .idle ∧ t.done = true

/-- The engine writes only admitted bytes, whatever is going on: a step that is no other agent's store changes a data
byte only where MEM_ADMIT answers a write, below 2^32 and outside the register window (20_memory.md R61). -/
def Obligations.EngineWritesOnlyAdmittedBytes : Prop :=
  ∀ (s t : State) (a : Nat), Inv s → (∀ b v h rest, s.schedule ≠ .store b v h :: rest) → step s = .next t →
    t.mem.read a ≠ s.mem.read a →
    memAdmit s.platform a .write = true ∧ a < 2 ^ 32 ∧
      ¬ ((regBase s.platform).toNat ≤ a ∧ a < (regBase s.platform).toNat + 256)

/-- The Nonce changes only by a host write to CTR0 or CTR1 while IDLE, or by reset (40_counter.md R122,
70_reset_and_hazards.md R270). -/
def Obligations.NonceChangesOnlyByHostOrReset : Prop :=
  ∀ s t : State, step s = .next t → nonce t ≠ nonce s →
    (∃ (offset : BitVec 8) (v : Word) (rest : List Move), (offset = 0x40 ∨ offset = 0x44) ∧ isBusy s = false ∧
      s.schedule = .writeReg offset .word v :: rest) ∨
    ∃ landed rest, s.schedule = .reset landed :: rest

/-- RK is written, and RK_VALID set, only by KEY_EXPAND or reset: a step that changes RK or sets RK_VALID is a reset; or it
runs KEY_EXPAND, by an atomic CMD write of its word to an IDLE engine or by the engine's own step on the word it has
accepted, and leaves RK the expansion of the key store, RK_VALID set, the key store zero and the outcome OK
(10_state.md R30, R31, 41_key_schedule.md R152; what reset leaves in RK is log entry 4, the two forms of a CMD write log
entry 2). -/
def Obligations.ExpandedKeyComesOnlyFromKeyExpand : Prop :=
  ∀ s t : State, step s = .next t → (t.rk ≠ s.rk ∨ (s.rkValid = false ∧ t.rkValid = true)) →
    (∃ landed rest, s.schedule = .reset landed :: rest) ∨
    (((∃ w rest, s.schedule = .command w :: rest ∧ isBusy s = false ∧ decode w = .ok .keyExpand) ∨
        (s.schedule = [] ∨ ∃ rest, s.schedule = .engine :: rest) ∧
          ∃ r, s.seq = .busy r ∧ r.phase = .accepted ∧ decode r.word = .ok .keyExpand) ∧
      t.rk = expandKey s.key ∧ t.rkValid = true ∧ t.key = Vector.replicate 8 0 ∧ t.done = true ∧ t.err = 0)

/-- A step that changes the selected backend leaves RK_VALID clear and a backend that is present (10_state.md R31, R38,
44_backend_select.md R231, R235). -/
def Obligations.BackendSwitchClearsRkValid : Prop :=
  ∀ s t : State, step s = .next t → t.backend ≠ s.backend →
    t.rkValid = false ∧ (t.backend = .vector → t.platform.hasVector = true) ∧
      (t.backend = .delegated → t.platform.hasDelegated = true)

/-- The machine never halts: no command faults or is refused, and a step has a next state but for an irregular access of
the host: a register access that is not 32-bit or not at an aligned offset, or a byte access of the data space that
falls into the register window (60_exceptions.md R246, R247, 20_memory.md R71; that a byte access by data address is
such an access is the model's reading, log entry 11). -/
def Obligations.OnlyIrregularHostAccessesStop : Prop :=
  (∀ (i : Instr) (s : State), ∃ t, exec i s = .next t) ∧
  ∀ s : State, (∃ t, step s = .next t) ∨
    ∃ fault m rest, step s = .fault (.irregularAccess fault) ∧ s.schedule = m :: rest ∧
      ((∃ offset size v, m = .writeReg offset size v ∧ (size ≠ .word ∨ offset.toNat % 4 ≠ 0)) ∨
        (∃ offset size, m = .readReg offset size ∧ (size ≠ .word ∨ offset.toNat % 4 ≠ 0)) ∨
        (∃ a v h, m = .store a v h ∧ inWindow s.platform a.toNat = true) ∨
        ∃ a e, m = .load a e ∧ inWindow s.platform a.toNat = true)

/-- Reset while IDLE or BUSY: every register takes the value of the table and SEQ is IDLE; the data space is not changed
by the reset of an IDLE engine (70_reset_and_hazards.md R270). RK is left out: its value is unspecified (log entry 4). -/
def Obligations.ResetLeavesTheTable : Prop :=
  ∀ (s : State) (landed : List Bool) (rest : List Move), s.schedule = .reset landed :: rest →
    ∃ t, step s = .next t ∧ t.seq = .idle ∧ ctrlWord t = 0 ∧ statusWord t = 0 ∧ capWord t.platform = capWord s.platform ∧
      t.key = Vector.replicate 8 0 ∧ t.ctr = Vector.replicate 4 0 ∧ t.din = Vector.replicate 4 0 ∧
      t.dout = Vector.replicate 4 0 ∧ t.incLo = 0 ∧ t.incHi = 0 ∧ t.chunkSize = 0 ∧ t.tagLen = 0 ∧ t.c2bOff = 0 ∧
      t.blkOff = 0 ∧ t.srcAddr = 0 ∧ t.srcOff = 0 ∧ t.dstAddr = 0 ∧ t.dstOff = 0 ∧ t.count = 0 ∧ t.avail = 0 ∧
      t.result = 0 ∧ t.physPos = 0 ∧ irq t = false ∧ t.platform = s.platform ∧ t.schedule = rest ∧
      (isBusy s = false → t.mem = s.mem)

/-- Reset during a command: the bytes the command had written stay written, no byte outside the iteration in progress
changes further, and each byte of that iteration holds its old value or the value the command would have written,
independently: every combination is the outcome of some reset move. The bytes of the iteration in progress are those the
engine, left alone, has written when that iteration ends: they join what its finished iterations wrote, or stand in the
data space if the command ends there (70_reset_and_hazards.md R271; which iteration is in progress is the model's reading,
log entry 17, and that finished iterations' writes stand in the running command is log entry 9). -/
def Obligations.ResetDuringACommand : Prop :=
  (∀ (s : State) (landed : List Bool) (rest : List Move), s.schedule = .reset landed :: rest →
    ∃ t, step s = .next t ∧
      (∀ a, (∀ c ∈ iterationWrites s, c.1 ≠ a) → t.mem.read a = (engineView s).read a) ∧
      ∀ a, t.mem.read a = (engineView s).read a ∨ (a, t.mem.read a) ∈ iterationWrites s) ∧
  (∀ (s : State) (rest : List Move) (choice : Nat → Bool), ((iterationWrites s).map Prod.fst).Nodup →
    ∃ landed t, step { s with schedule := .reset landed :: rest } = .next t ∧
      ∀ c ∈ iterationWrites s, t.mem.read c.1 = if choice c.1 then c.2 else (engineView s).read c.1) ∧
  (∀ s : State, s.seq = .idle → engineView s = s.mem ∧ iterationWrites s = []) ∧
  ∀ (s : State) (r : Running), s.seq = .busy r →
    engineView s = s.mem.writeAll r.pending ∧
    ((r.phase = .accepted ∨ ∃ l c, r.phase = .looping l (.head c)) → iterationWrites s = []) ∧
    ∀ l stage, r.phase = .looping l stage → (∀ c, stage ≠ .head c) → s.schedule = [] →
      ∃ n t, Host.Core.run Sys2Proof.core n s = .next t ∧
        ((∃ r' c, t.seq = .busy r' ∧ r'.word = r.word ∧ r'.phase = .looping l (.head c) ∧
            r'.pending = r.pending ++ iterationWrites s ∧ t.mem = s.mem) ∨
          (t.seq = .idle ∧ ∀ a, t.mem.read a = ((engineView s).writeAll (iterationWrites s)).read a))

/-- While the engine is IDLE, a byte another agent stores in the data space is the byte it loads, and the store changes
nothing else. The data space is byte-addressed and shared with the host (20_memory.md R60); that every address outside
the register window is plain memory to the other agents, with no check of MEM_ADMIT and device regions included, is the
model's choice (log entries 12 and 19). -/
def Obligations.HostStoreThenLoad : Prop :=
  ∀ (s : State) (a : Word) (v : Byte) (h e : Bool) (rest : List Move), isBusy s = false →
    inWindow s.platform a.toNat = false → s.schedule = .store a v h :: .load a e :: rest →
    ∃ m, Host.Core.run Sys2Proof.core 2 s =
        .next { s with schedule := rest, mem := m, reported := v.setWidth 32 :: s.reported } ∧
      m.read a.toNat = v ∧ ∀ b, b ≠ a.toNat → m.read b = s.mem.read b

/-- Races on the data space while BUSY. A load of a byte the command has written gets the value before or the value
written, and of any other byte its value. A store of a byte the command has written, by a finished iteration or by the
one in progress, leaves the host's value or the engine's at completion; a byte no finished iteration has written the
engine then reads as stored, and the bytes it has already read keep the value it read; no other byte changes in any view.
What the command has written is nothing at acceptance; each write of the engine adds its byte, and completion puts them
all in the data space (20_memory.md R65, R75, R76, R77; the move carries the choice, and what the command has written
stands in the running command until completion, log entries 8 and 9). -/
def Obligations.HostRacesWithABusyCommand : Prop :=
  (∀ (s : State) (r : Running) (a : Word) (rest : List Move), s.seq = .busy r → inWindow s.platform a.toNat = false →
    (∀ e : Bool, s.schedule = .load a e :: rest →
      ∃ b : Byte, step s = .next { s with schedule := rest, reported := b.setWidth 32 :: s.reported } ∧
        (e = false → b = s.mem.read a.toNat) ∧
        (e = true → b = (s.mem.writeAll (writtenSoFar s)).read a.toNat) ∧
        ((∀ c ∈ writtenSoFar s, c.1 ≠ a.toNat) → b = s.mem.read a.toNat)) ∧
    ∀ (v : Byte) (h : Bool), s.schedule = .store a v h :: rest →
      ∃ (t : State) (r' : Running), step s = .next t ∧ t.seq = .busy r' ∧ r'.word = r.word ∧ t.mem.read a.toNat = v ∧
        (h = true → (engineView t).read a.toNat = v ∧ (t.mem.writeAll (writtenSoFar t)).read a.toNat = v) ∧
        (h = false → r' = r ∧
          ((∃ c ∈ r.pending, c.1 = a.toNat) → (engineView t).read a.toNat = (engineView s).read a.toNat) ∧
          ((∃ c ∈ writtenSoFar s, c.1 = a.toNat) →
            (t.mem.writeAll (writtenSoFar t)).read a.toNat = (s.mem.writeAll (writtenSoFar s)).read a.toNat)) ∧
        ((∀ c ∈ r.pending, c.1 ≠ a.toNat) → (engineView t).read a.toNat = v) ∧
        ((∀ c ∈ writtenSoFar s, c.1 ≠ a.toNat) → (t.mem.writeAll (writtenSoFar t)).read a.toNat = v) ∧
        (∀ l p todo got, r.phase = .looping l (.reading p todo got) → r'.phase = r.phase) ∧
        ∀ b, b ≠ a.toNat → t.mem.read b = s.mem.read b ∧ (engineView t).read b = (engineView s).read b ∧
          (t.mem.writeAll (writtenSoFar t)).read b = (s.mem.writeAll (writtenSoFar s)).read b) ∧
  (∀ s : State, s.seq = .idle → writtenSoFar s = []) ∧
  (∀ (s : State) (w : Word) (rest : List Move), isBusy s = false → s.schedule = .writeReg 0x04 .word w :: rest →
    ∃ t, step s = .next t ∧ isBusy t = true ∧ writtenSoFar t = []) ∧
  ∀ (s : State) (r : Running), s.seq = .busy r → (s.schedule = [] ∨ ∃ rest, s.schedule = .engine :: rest) →
    ∃ t, step s = .next t ∧ (isBusy t = true → t.mem = s.mem) ∧
      (isBusy t = false → ∀ a, t.mem.read a = (s.mem.writeAll (writtenSoFar s)).read a) ∧
      (∀ l p a todo got, r.phase = .looping l (.reading p (a :: todo) got) →
        ∃ r', t.seq = .busy r' ∧ r'.phase = .looping l (.reading p todo (got ++ [(engineView s).read a]))) ∧
      (∀ l p c todo written, r.phase = .looping l (.writing p (c :: todo) written) →
        writtenSoFar t = writtenSoFar s ++ [c] ∧
          ∃ r', t.seq = .busy r' ∧ r'.phase = .looping l (.writing p todo (written ++ [c]))) ∧
      ((∀ l p c todo written, r.phase ≠ .looping l (.writing p (c :: todo) written)) → isBusy t = true →
        writtenSoFar t = writtenSoFar s)

/-- An IDLE engine changes only by reset or a host write: on every other move, and when nothing is scheduled, the state
stays, but for the schedule, the values reported to the host and the data space under another agent's store
(60_exceptions.md R257). -/
def Obligations.IdleEngineWaits : Prop :=
  (∀ s : State, isBusy s = false → s.schedule = [] → step s = .next s) ∧
  ∀ (s t : State) (m : Move) (rest : List Move), isBusy s = false → s.schedule = m :: rest →
    (∀ w, m ≠ .command w) → (∀ o z v, m ≠ .writeReg o z v) → (∀ l, m ≠ .reset l) → step s = .next t →
    t = { s with schedule := rest, reported := t.reported, mem := t.mem } ∧
      ((∀ a v h, m ≠ .store a v h) → t.mem = s.mem)
end

