-- ==== Sys2Proof/Laws/Aes.lean ====
section
/-! SUPPORT. Bytes of words, blocks and cipher states, and the words of the key expansion (spec/10_state.md R22,
spec/41_key_schedule.md R148, R149, spec/42_block_cipher.md R170). -/

namespace Sys2Proof.Machine

theorem extractLsb'_append_high (n m k : Nat) (x : BitVec n) (y : BitVec m) (i : Nat) (h : m ≤ i) :
    (x ++ y).extractLsb' i k = x.extractLsb' (i - m) k := by
  apply BitVec.eq_of_getLsbD_eq
  intro j hj
  simp only [BitVec.getLsbD_extractLsb', BitVec.getLsbD_append, show ¬ i + j < m by omega, if_false,
    show i - m + j = i + j - m by omega]

theorem extractLsb'_append_low (n m k : Nat) (x : BitVec n) (y : BitVec m) (i : Nat) (h : i + k ≤ m) :
    (x ++ y).extractLsb' i k = y.extractLsb' i k := by
  apply BitVec.eq_of_getLsbD_eq
  intro j hj
  simp only [BitVec.getLsbD_extractLsb', BitVec.getLsbD_append, show i + j < m by omega, if_true]

/-- Byte `j` of a word given by its bytes (00_scope.md R15). -/
theorem wordByte_wordOf (a0 a1 a2 a3 : Byte) :
    wordByte (wordOf a0 a1 a2 a3) 0 = a0 ∧ wordByte (wordOf a0 a1 a2 a3) 1 = a1 ∧
      wordByte (wordOf a0 a1 a2 a3) 2 = a2 ∧ wordByte (wordOf a0 a1 a2 a3) 3 = a3 := by
  simp only [wordByte, wordOf]
  refine ⟨?_, ?_, ?_, ?_⟩
  · rw [extractLsb'_append_high _ _ _ _ _ _ (by omega), extractLsb'_append_high _ _ _ _ _ _ (by omega)]
    exact BitVec.extractLsb'_eq_self
  · rw [extractLsb'_append_high _ _ _ _ _ _ (by omega), extractLsb'_append_low _ _ _ _ _ _ (by omega)]
    exact BitVec.extractLsb'_eq_self
  · rw [extractLsb'_append_low _ _ _ _ _ _ (by omega), extractLsb'_append_high _ _ _ _ _ _ (by omega)]
    exact BitVec.extractLsb'_eq_self
  · rw [extractLsb'_append_low _ _ _ _ _ _ (by omega), extractLsb'_append_low _ _ _ _ _ _ (by omega)]
    exact BitVec.extractLsb'_eq_self

/-- Byte `4i + j` of a block of four words is byte `j` of word `i` (10_state.md R22). -/
theorem blockByte_blockOf (w0 w1 w2 w3 : Word) (j : Nat) (h : j < 4) :
    blockByte (blockOf w0 w1 w2 w3) j = wordByte w0 j ∧ blockByte (blockOf w0 w1 w2 w3) (4 + j) = wordByte w1 j ∧
      blockByte (blockOf w0 w1 w2 w3) (8 + j) = wordByte w2 j ∧
      blockByte (blockOf w0 w1 w2 w3) (12 + j) = wordByte w3 j := by
  simp only [wordByte, blockByte, blockOf]
  refine ⟨?_, ?_, ?_, ?_⟩
  · rw [extractLsb'_append_high _ _ _ _ _ _ (by omega), extractLsb'_append_high _ _ _ _ _ _ (by omega)]
    congr 1
    omega
  · rw [extractLsb'_append_high _ _ _ _ _ _ (by omega), extractLsb'_append_low _ _ _ _ _ _ (by omega)]
    congr 1
    omega
  · rw [extractLsb'_append_low _ _ _ _ _ _ (by omega), extractLsb'_append_high _ _ _ _ _ _ (by omega)]
    congr 1
    omega
  · rw [extractLsb'_append_low _ _ _ _ _ _ (by omega), extractLsb'_append_low _ _ _ _ _ _ (by omega)]
    congr 1
    omega

/-- Byte `i` of a block given by its bytes. -/
theorem blockByte_blockOfBytes (f : Nat → Byte) (i : Nat) (h : i < 16) : blockByte (blockOfBytes f) i = f i := by
  have hw := fun a b c d => wordByte_wordOf (f a) (f b) (f c) (f d)
  have hb := fun j hj => blockByte_blockOf (wordOf (f 0) (f 1) (f 2) (f 3)) (wordOf (f 4) (f 5) (f 6) (f 7))
    (wordOf (f 8) (f 9) (f 10) (f 11)) (wordOf (f 12) (f 13) (f 14) (f 15)) j hj
  rw [blockOfBytes]
  interval_cases i
  · exact (hb 0 (by omega)).1.trans (hw 0 1 2 3).1
  · exact (hb 1 (by omega)).1.trans (hw 0 1 2 3).2.1
  · exact (hb 2 (by omega)).1.trans (hw 0 1 2 3).2.2.1
  · exact (hb 3 (by omega)).1.trans (hw 0 1 2 3).2.2.2
  · exact (hb 0 (by omega)).2.1.trans (hw 4 5 6 7).1
  · exact (hb 1 (by omega)).2.1.trans (hw 4 5 6 7).2.1
  · exact (hb 2 (by omega)).2.1.trans (hw 4 5 6 7).2.2.1
  · exact (hb 3 (by omega)).2.1.trans (hw 4 5 6 7).2.2.2
  · exact (hb 0 (by omega)).2.2.1.trans (hw 8 9 10 11).1
  · exact (hb 1 (by omega)).2.2.1.trans (hw 8 9 10 11).2.1
  · exact (hb 2 (by omega)).2.2.1.trans (hw 8 9 10 11).2.2.1
  · exact (hb 3 (by omega)).2.2.1.trans (hw 8 9 10 11).2.2.2
  · exact (hb 0 (by omega)).2.2.2.trans (hw 12 13 14 15).1
  · exact (hb 1 (by omega)).2.2.2.trans (hw 12 13 14 15).2.1
  · exact (hb 2 (by omega)).2.2.2.trans (hw 12 13 14 15).2.2.1
  · exact (hb 3 (by omega)).2.2.2.trans (hw 12 13 14 15).2.2.2

/-- A cell of a cipher state given by its cells (42_block_cipher.md R170). -/
theorem stateCell_blockOfCells (f : Nat → Nat → Byte) (r c : Nat) (hr : r < 4) (hc : c < 4) :
    stateCell (blockOfCells f) r c = f r c := by
  rw [stateCell, blockOfCells, blockByte_blockOfBytes _ _ (by omega)]
  congr 1 <;> omega

/-- Bytes of an XOR of blocks. -/
theorem blockByte_xor (a b : Block) (i : Nat) : blockByte (a ^^^ b) i = blockByte a i ^^^ blockByte b i := by
  simp only [blockByte]
  exact BitVec.extractLsb'_xor

/-- The bytes of a block in order. -/
theorem blockBytes_getElem (b : Block) (i : Nat) (h : i < (blockBytes b).length) : (blockBytes b)[i] = blockByte b i := by
  simp [blockBytes]

theorem blockBytes_length (b : Block) : (blockBytes b).length = 16 := by simp [blockBytes]

/-- The expansion keeps the words it starts from. -/
theorem expandLoop_getElem_of_lt (n : Nat) (ws : List Word) (i : Nat) (hi : i < ws.length)
    (h : i < (expandLoop n ws).length) : (expandLoop n ws)[i] = ws[i] := by
  induction n generalizing ws with
  | zero => rfl
  | succ n ih =>
    simp only [expandLoop] at h ⊢
    rw [ih (ws ++ [nextScheduleWord ws]) (by simp; omega) h]
    exact List.getElem_append_left hi

/-- Every later word of the expansion is the recurrence on the words before it (41_key_schedule.md R149). -/
theorem expandLoop_getElem_of_le (n : Nat) (ws : List Word) (i : Nat) (hi : ws.length ≤ i)
    (h : i < (expandLoop n ws).length) : (expandLoop n ws)[i] = nextScheduleWord ((expandLoop n ws).take i) := by
  induction n generalizing ws with
  | zero => simp only [expandLoop] at h; omega
  | succ n ih =>
    simp only [expandLoop] at h ⊢
    by_cases hlt : (ws ++ [nextScheduleWord ws]).length ≤ i
    · exact ih _ hlt h
    · have hieq : i = ws.length := by simp at hlt; omega
      subst hieq
      rw [expandLoop_getElem_of_lt n _ _ (by simp) h]
      have htake : (expandLoop n (ws ++ [nextScheduleWord ws])).take ws.length = ws := by
        apply List.ext_getElem
        · simp [expandLoop_length]; omega
        · intro j h1 h2
          rw [List.getElem_take, expandLoop_getElem_of_lt n _ _ (by simp; omega)]
          exact List.getElem_append_left h2
      rw [htake]
      simp

theorem expandLoop_length_of_key (key : Vector Word 8) : (expandLoop 52 key.toList).length = 60 := by
  simp [expandLoop_length]

/-- Word `i` of the expanded key (41_key_schedule.md R150). -/
theorem expandKey_getElem (key : Vector Word 8) (i : Nat) (h : i < 60) :
    (expandKey key)[i] = (expandLoop 52 key.toList)[i]'(by rw [expandLoop_length_of_key]; exact h) := by
  simp only [expandKey, Vector.getElem_mk, List.getElem_toArray]

end Sys2Proof.Machine
end

