-- ==== Sys2Proof/Laws/Flags.lean ====
section
/-! SUPPORT. BUSY, the CAP bits and the outcome codes (spec/10_state.md R24, R27; spec/60_exceptions.md R240, R241). -/

namespace Sys2Proof.Machine

/-- The engine is BUSY exactly when a command is in progress (10_state.md R24). -/
theorem isBusy_iff (s : State) : isBusy s = true ↔ ∃ r, s.seq = .busy r := by
  unfold isBusy
  split <;> rename_i h <;> simp [h]

theorem isBusy_of_idle (s : State) (h : s.seq = .idle) : isBusy s = false := by
  simp [isBusy, h]

theorem seq_of_not_busy (s : State) (h : isBusy s = false) : s.seq = .idle := by
  unfold isBusy at h
  split at h
  · assumption
  · cases h

/-- A backend is present exactly when its bit of CAP is set (44_backend_select.md R230). -/
theorem backendPresent_eq_capBit (p : Platform) (b : Backend) :
    backendPresent p b = (capWord p).getLsbD (backendId b).toNat := by
  unfold backendPresent capWord
  generalize p.hasVector = v
  generalize p.hasDelegated = d
  cases b <;> revert v d <;> decide

/-- A backend is named by its own id, and an id names only the backend that has it (44_backend_select.md R230). -/
theorem backendOfId_eq_some (n : Nat) (b : Backend) : backendOfId n = some b ↔ n = (backendId b).toNat := by
  match n with
  | 0 => cases b <;> simp [backendOfId, backendId]
  | 1 => cases b <;> simp [backendOfId, backendId]
  | 2 => cases b <;> simp [backendOfId, backendId]
  | n + 3 => cases b <;> simp [backendOfId, backendId]

/-- The backend id 3 and every greater one names no backend (44_backend_select.md R230). -/
theorem backendOfId_eq_none (n : Nat) : backendOfId n = none ↔ 3 ≤ n := by
  match n with
  | 0 => simp [backendOfId]
  | 1 => simp [backendOfId]
  | 2 => simp [backendOfId]
  | n + 3 => simp [backendOfId]

/-- Every outcome has its pair of codes in the tables of 60_exceptions.md R240 and R241. -/
theorem outcome_mem_outcomeTable (o : Completion) : ((errCode o).toNat, (causeCode o).toNat) ∈ outcomeTable := by
  cases o with
  | invalidArgument c => cases c <;> decide
  | busError k => cases k <;> decide
  | _ => decide

end Sys2Proof.Machine
end

