-- ==== Sys2Proof/Laws/Memory.lean ====
section
/-! SUPPORT. The data space: a byte read after a store, the canonical form, and equality of data spaces. -/

namespace Sys2Proof.Machine

theorem readCells_filter_ne (cs : List Host.Cell) (a b : Nat) (h : b ≠ a) :
    readCells (cs.filter fun c => c.1 != a) b = readCells cs b := by
  induction cs with
  | nil => rfl
  | cons c cs ih =>
    by_cases hc : c.1 = a
    · simp [hc, readCells, ih, Ne.symm h]
    · simp [hc, readCells, ih]

theorem readCells_eq_unwritten (cs : List Host.Cell) (a : Nat) (h : ∀ c ∈ cs, c.1 ≠ a) :
    readCells cs a = unwritten := by
  induction cs with
  | nil => rfl
  | cons c cs ih =>
    simp only [readCells, h c (by simp), if_false]
    exact ih fun d hd => h d (by simp [hd])

theorem readCells_insert_same (cs : List Host.Cell) (c : Host.Cell) (h : ∀ d ∈ cs, d.1 ≠ c.1) :
    readCells (insertCell cs c) c.1 = c.2 := by
  induction cs with
  | nil => simp [insertCell, readCells]
  | cons d ds ih =>
    simp only [insertCell]
    split
    · simp only [readCells, h d (by simp), if_false]
      exact ih fun e he => h e (by simp [he])
    · simp [readCells]

theorem readCells_insert_other (cs : List Host.Cell) (c : Host.Cell) (b : Nat) (h : b ≠ c.1) :
    readCells (insertCell cs c) b = readCells cs b := by
  induction cs with
  | nil => simp [insertCell, readCells, Ne.symm h]
  | cons d ds ih =>
    simp only [insertCell]
    split
    · simp [readCells, ih]
    · simp [readCells, Ne.symm h]

/-- A byte read back after it was stored. -/
@[simp] theorem Memory.read_write_same (m : Memory) (a : Nat) (v : Byte) : (m.write a v).read a = v := by
  have hne : ∀ c ∈ m.cells.filter (fun c => c.1 != a), c.1 ≠ a := by
    intro c hc
    simpa using (List.mem_filter.mp hc).2
  simp only [Memory.write, Memory.read, writeCells]
  split
  · rename_i hv
    rw [readCells_eq_unwritten _ _ hne, hv]
  · exact readCells_insert_same _ (a, v) hne

/-- A store leaves every other byte alone. -/
theorem Memory.read_write_other (m : Memory) (a b : Nat) (v : Byte) (h : b ≠ a) : (m.write a v).read b = m.read b := by
  simp only [Memory.write, Memory.read, writeCells]
  split
  · exact readCells_filter_ne _ _ _ h
  · rw [readCells_insert_other _ _ _ h, readCells_filter_ne _ _ _ h]

theorem Memory.read_write (m : Memory) (a b : Nat) (v : Byte) :
    (m.write a v).read b = if b = a then v else m.read b := by
  by_cases h : b = a
  · simp [h]
  · simp [h, Memory.read_write_other]

@[simp] theorem Memory.writeAll_nil (m : Memory) : m.writeAll [] = m := rfl

@[simp] theorem Memory.writeAll_cons (m : Memory) (c : Host.Cell) (cs : List Host.Cell) :
    m.writeAll (c :: cs) = (m.write c.1 c.2).writeAll cs := rfl

theorem Memory.writeAll_append (m : Memory) (cs ds : List Host.Cell) :
    m.writeAll (cs ++ ds) = (m.writeAll cs).writeAll ds := by
  simp [Memory.writeAll, List.foldl_append]

/-- A byte that none of the stores names reads as before. -/
theorem Memory.read_writeAll_other (m : Memory) (cs : List Host.Cell) (b : Nat) (h : ∀ c ∈ cs, c.1 ≠ b) :
    (m.writeAll cs).read b = m.read b := by
  induction cs generalizing m with
  | nil => rfl
  | cons c cs ih =>
    rw [Memory.writeAll_cons, ih _ fun d hd => h d (by simp [hd])]
    exact Memory.read_write_other _ _ _ _ (Ne.symm (h c (by simp)))

/-- Of stores at distinct addresses, each reads back. -/
theorem Memory.read_writeAll_mem (m : Memory) (cs : List Host.Cell) (c : Host.Cell) (hc : c ∈ cs)
    (h : (cs.map Prod.fst).Nodup) : (m.writeAll cs).read c.1 = c.2 := by
  induction cs generalizing m with
  | nil => cases hc
  | cons d ds ih =>
    have hd : ∀ e ∈ ds, e.1 ≠ d.1 := by
      intro e he hed
      rw [List.map_cons, List.nodup_cons] at h
      exact h.1 (hed ▸ List.mem_map_of_mem he)
    rcases List.mem_cons.mp hc with rfl | hc
    · rw [Memory.writeAll_cons, Memory.read_writeAll_other _ _ _ hd, Memory.read_write_same]
    · rw [Memory.writeAll_cons]
      exact ih _ hc (List.nodup_cons.mp h).2

/-! ### The canonical form -/

theorem mem_insertCell (cs : List Host.Cell) (c d : Host.Cell) : d ∈ insertCell cs c ↔ d = c ∨ d ∈ cs := by
  induction cs with
  | nil => simp [insertCell]
  | cons e es ih =>
    simp only [insertCell]
    split
    · simp only [List.mem_cons, ih]; tauto
    · simp

theorem pairwise_insertCell (cs : List Host.Cell) (c : Host.Cell) (h : cs.Pairwise fun d e => d.1 < e.1)
    (hc : ∀ d ∈ cs, d.1 ≠ c.1) : (insertCell cs c).Pairwise fun d e => d.1 < e.1 := by
  induction cs with
  | nil => simp [insertCell]
  | cons d ds ih =>
    rw [List.pairwise_cons] at h
    simp only [insertCell]
    split
    · rename_i hlt
      refine List.pairwise_cons.mpr ⟨fun e he => ?_, ih h.2 fun e he => hc e (by simp [he])⟩
      rcases (mem_insertCell _ _ _).mp he with rfl | he
      · exact hlt
      · exact h.1 e he
    · rename_i hlt
      have hdc := hc d (by simp)
      refine List.pairwise_cons.mpr ⟨fun e he => ?_, List.pairwise_cons.mpr h⟩
      rcases List.mem_cons.mp he with rfl | he
      · omega
      · have := h.1 e he; omega

/-- A store in the data space keeps the canonical form. -/
theorem Memory.wf_write (m : Memory) (a : Nat) (v : Byte) (h : m.wf) (ha : a < 2 ^ 32) : (m.write a v).wf := by
  have hfilter := h.1.filter (fun c => c.1 != a)
  have hne : ∀ c ∈ m.cells.filter (fun c => c.1 != a), c.1 ≠ a := by
    intro c hc
    simpa using (List.mem_filter.mp hc).2
  simp only [Memory.wf, Memory.write, writeCells]
  split
  · exact ⟨hfilter, fun c hc => h.2 c (List.mem_filter.mp hc).1⟩
  · rename_i hv
    refine ⟨pairwise_insertCell _ _ hfilter hne, fun c hc => ?_⟩
    rcases (mem_insertCell _ _ _).mp hc with rfl | hc
    · exact ⟨ha, hv⟩
    · exact h.2 c (List.mem_filter.mp hc).1

/-- Stores in the data space keep the canonical form. -/
theorem Memory.wf_writeAll (m : Memory) (cs : List Host.Cell) (h : m.wf) (hcs : ∀ c ∈ cs, c.1 < 2 ^ 32) :
    (m.writeAll cs).wf := by
  induction cs generalizing m with
  | nil => exact h
  | cons c cs ih =>
    rw [Memory.writeAll_cons]
    exact ih _ (Memory.wf_write _ _ _ h (hcs c (by simp))) fun d hd => hcs d (by simp [hd])

theorem Memory.wf_reset : State.reset.mem.wf := by
  simp [State.reset, Memory.wf]

/-- In canonical form, a listed cell is what its address reads as. -/
theorem readCells_of_mem (cs : List Host.Cell) (h : cs.Pairwise fun d e => d.1 < e.1) (c : Host.Cell) (hc : c ∈ cs) :
    readCells cs c.1 = c.2 := by
  induction cs with
  | nil => cases hc
  | cons d ds ih =>
    rw [List.pairwise_cons] at h
    rcases List.mem_cons.mp hc with rfl | hc
    · simp [readCells]
    · have := h.1 c hc
      simp only [readCells, show d.1 ≠ c.1 by omega, if_false]
      exact ih h.2 hc

/-- An address that does not read as unwritten is listed. -/
theorem mem_of_readCells_ne (cs : List Host.Cell) (a : Nat) (h : readCells cs a ≠ unwritten) :
    (a, readCells cs a) ∈ cs := by
  induction cs with
  | nil => exact absurd rfl h
  | cons c cs ih =>
    by_cases hc : c.1 = a
    · subst hc
      simp [readCells]
    · simp only [readCells, hc, if_false] at h ⊢
      exact List.mem_cons_of_mem _ (ih h)

/-- Two data spaces in canonical form that read alike everywhere are equal data. -/
theorem Memory.ext_of_read (m n : Memory) (hm : m.wf) (hn : n.wf) (h : ∀ a, m.read a = n.read a) : m = n := by
  have subset : ∀ {p q : Memory}, p.wf → q.wf → (∀ a, p.read a = q.read a) → ∀ c ∈ p.cells, c ∈ q.cells := by
    intro p q hp hq hpq c hc
    have hread : readCells q.cells c.1 = c.2 := by
      rw [← readCells_of_mem p.cells hp.1 c hc]
      exact (hpq c.1).symm
    have hmem := mem_of_readCells_ne q.cells c.1 (by rw [hread]; exact (hp.2 c hc).2)
    rwa [hread] at hmem
  have hperm : m.cells.Perm n.cells := by
    refine (List.perm_ext_iff_of_nodup ?_ ?_).mpr fun c => ⟨subset hm hn h c, subset hn hm (fun a => (h a).symm) c⟩
    · exact hm.1.imp fun {a b} hab hEq => absurd (congrArg Prod.fst hEq) (Nat.ne_of_lt hab)
    · exact hn.1.imp fun {a b} hab hEq => absurd (congrArg Prod.fst hEq) (Nat.ne_of_lt hab)
  have hcells : m.cells = n.cells :=
    hperm.eq_of_pairwise (le := fun c d => c.1 < d.1) (fun a b _ _ hab hba => absurd hab (Nat.lt_asymm hba)) hm.1 hn.1
  cases m
  cases n
  simpa using hcells

end Sys2Proof.Machine
end

