-- ==== Sys2Proof/Laws/State.lean ====
section
/-! SUPPORT. What each update of the state leaves in each field: one lemma per field per update, so that no proof unfolds
a record update. -/

namespace Sys2Proof.Machine

@[simp] theorem accept_platform (w : Word) (s : State) : (accept w s).platform = s.platform := rfl
@[simp] theorem accept_seq (w : Word) (s : State) : (accept w s).seq = .busy { word := w, phase := .accepted, pending := [] } := rfl
@[simp] theorem accept_irqEn (w : Word) (s : State) : (accept w s).irqEn = s.irqEn := rfl
@[simp] theorem accept_done (w : Word) (s : State) : (accept w s).done = false := rfl
@[simp] theorem accept_rkValid (w : Word) (s : State) : (accept w s).rkValid = s.rkValid := rfl
@[simp] theorem accept_err (w : Word) (s : State) : (accept w s).err = 0 := rfl
@[simp] theorem accept_cause (w : Word) (s : State) : (accept w s).cause = 0 := rfl
@[simp] theorem accept_backend (w : Word) (s : State) : (accept w s).backend = s.backend := rfl
@[simp] theorem accept_key (w : Word) (s : State) : (accept w s).key = s.key := rfl
@[simp] theorem accept_rk (w : Word) (s : State) : (accept w s).rk = s.rk := rfl
@[simp] theorem accept_ctr (w : Word) (s : State) : (accept w s).ctr = s.ctr := rfl
@[simp] theorem accept_din (w : Word) (s : State) : (accept w s).din = s.din := rfl
@[simp] theorem accept_dout (w : Word) (s : State) : (accept w s).dout = s.dout := rfl
@[simp] theorem accept_incLo (w : Word) (s : State) : (accept w s).incLo = s.incLo := rfl
@[simp] theorem accept_incHi (w : Word) (s : State) : (accept w s).incHi = s.incHi := rfl
@[simp] theorem accept_chunkSize (w : Word) (s : State) : (accept w s).chunkSize = s.chunkSize := rfl
@[simp] theorem accept_tagLen (w : Word) (s : State) : (accept w s).tagLen = s.tagLen := rfl
@[simp] theorem accept_c2bOff (w : Word) (s : State) : (accept w s).c2bOff = s.c2bOff := rfl
@[simp] theorem accept_blkOff (w : Word) (s : State) : (accept w s).blkOff = s.blkOff := rfl
@[simp] theorem accept_srcAddr (w : Word) (s : State) : (accept w s).srcAddr = s.srcAddr := rfl
@[simp] theorem accept_srcOff (w : Word) (s : State) : (accept w s).srcOff = s.srcOff := rfl
@[simp] theorem accept_dstAddr (w : Word) (s : State) : (accept w s).dstAddr = s.dstAddr := rfl
@[simp] theorem accept_dstOff (w : Word) (s : State) : (accept w s).dstOff = s.dstOff := rfl
@[simp] theorem accept_count (w : Word) (s : State) : (accept w s).count = s.count := rfl
@[simp] theorem accept_avail (w : Word) (s : State) : (accept w s).avail = s.avail := rfl
@[simp] theorem accept_result (w : Word) (s : State) : (accept w s).result = s.result := rfl
@[simp] theorem accept_physPos (w : Word) (s : State) : (accept w s).physPos = s.physPos := rfl
@[simp] theorem accept_mem (w : Word) (s : State) : (accept w s).mem = s.mem := rfl
@[simp] theorem accept_schedule (w : Word) (s : State) : (accept w s).schedule = s.schedule := rfl
@[simp] theorem accept_reported (w : Word) (s : State) : (accept w s).reported = s.reported := rfl
@[simp] theorem accept_draws (w : Word) (s : State) : (accept w s).draws = s.draws := rfl

@[simp] theorem complete_platform (o : Completion) (result phys : Nat) (s : State) : (complete o result phys s).platform = s.platform := rfl
@[simp] theorem complete_seq (o : Completion) (result phys : Nat) (s : State) : (complete o result phys s).seq = .idle := rfl
@[simp] theorem complete_irqEn (o : Completion) (result phys : Nat) (s : State) : (complete o result phys s).irqEn = s.irqEn := rfl
@[simp] theorem complete_done (o : Completion) (result phys : Nat) (s : State) : (complete o result phys s).done = true := rfl
@[simp] theorem complete_rkValid (o : Completion) (result phys : Nat) (s : State) : (complete o result phys s).rkValid = s.rkValid := rfl
@[simp] theorem complete_err (o : Completion) (result phys : Nat) (s : State) : (complete o result phys s).err = errCode o := rfl
@[simp] theorem complete_cause (o : Completion) (result phys : Nat) (s : State) : (complete o result phys s).cause = causeCode o := rfl
@[simp] theorem complete_backend (o : Completion) (result phys : Nat) (s : State) : (complete o result phys s).backend = s.backend := rfl
@[simp] theorem complete_key (o : Completion) (result phys : Nat) (s : State) : (complete o result phys s).key = s.key := rfl
@[simp] theorem complete_rk (o : Completion) (result phys : Nat) (s : State) : (complete o result phys s).rk = s.rk := rfl
@[simp] theorem complete_ctr (o : Completion) (result phys : Nat) (s : State) : (complete o result phys s).ctr = s.ctr := rfl
@[simp] theorem complete_din (o : Completion) (result phys : Nat) (s : State) : (complete o result phys s).din = s.din := rfl
@[simp] theorem complete_dout (o : Completion) (result phys : Nat) (s : State) : (complete o result phys s).dout = s.dout := rfl
@[simp] theorem complete_incLo (o : Completion) (result phys : Nat) (s : State) : (complete o result phys s).incLo = s.incLo := rfl
@[simp] theorem complete_incHi (o : Completion) (result phys : Nat) (s : State) : (complete o result phys s).incHi = s.incHi := rfl
@[simp] theorem complete_chunkSize (o : Completion) (result phys : Nat) (s : State) : (complete o result phys s).chunkSize = s.chunkSize := rfl
@[simp] theorem complete_tagLen (o : Completion) (result phys : Nat) (s : State) : (complete o result phys s).tagLen = s.tagLen := rfl
@[simp] theorem complete_c2bOff (o : Completion) (result phys : Nat) (s : State) : (complete o result phys s).c2bOff = s.c2bOff := rfl
@[simp] theorem complete_blkOff (o : Completion) (result phys : Nat) (s : State) : (complete o result phys s).blkOff = s.blkOff := rfl
@[simp] theorem complete_srcAddr (o : Completion) (result phys : Nat) (s : State) : (complete o result phys s).srcAddr = s.srcAddr := rfl
@[simp] theorem complete_srcOff (o : Completion) (result phys : Nat) (s : State) : (complete o result phys s).srcOff = s.srcOff := rfl
@[simp] theorem complete_dstAddr (o : Completion) (result phys : Nat) (s : State) : (complete o result phys s).dstAddr = s.dstAddr := rfl
@[simp] theorem complete_dstOff (o : Completion) (result phys : Nat) (s : State) : (complete o result phys s).dstOff = s.dstOff := rfl
@[simp] theorem complete_count (o : Completion) (result phys : Nat) (s : State) : (complete o result phys s).count = s.count := rfl
@[simp] theorem complete_avail (o : Completion) (result phys : Nat) (s : State) : (complete o result phys s).avail = s.avail := rfl
@[simp] theorem complete_result (o : Completion) (result phys : Nat) (s : State) : (complete o result phys s).result = BitVec.ofNat 32 result := rfl
@[simp] theorem complete_physPos (o : Completion) (result phys : Nat) (s : State) : (complete o result phys s).physPos = BitVec.ofNat 32 phys := rfl
@[simp] theorem complete_mem (o : Completion) (result phys : Nat) (s : State) : (complete o result phys s).mem = engineView s := rfl
@[simp] theorem complete_schedule (o : Completion) (result phys : Nat) (s : State) : (complete o result phys s).schedule = s.schedule := rfl
@[simp] theorem complete_reported (o : Completion) (result phys : Nat) (s : State) : (complete o result phys s).reported = s.reported := rfl
@[simp] theorem complete_draws (o : Completion) (result phys : Nat) (s : State) : (complete o result phys s).draws = s.draws := rfl

@[simp] theorem endedWith_platform (o : Completion) (result phys : Nat) (s : State) : (endedWith o result phys s).platform = s.platform := rfl
@[simp] theorem endedWith_seq (o : Completion) (result phys : Nat) (s : State) : (endedWith o result phys s).seq = .idle := rfl
@[simp] theorem endedWith_irqEn (o : Completion) (result phys : Nat) (s : State) : (endedWith o result phys s).irqEn = s.irqEn := rfl
@[simp] theorem endedWith_done (o : Completion) (result phys : Nat) (s : State) : (endedWith o result phys s).done = true := rfl
@[simp] theorem endedWith_rkValid (o : Completion) (result phys : Nat) (s : State) : (endedWith o result phys s).rkValid = s.rkValid := rfl
@[simp] theorem endedWith_err (o : Completion) (result phys : Nat) (s : State) : (endedWith o result phys s).err = errCode o := rfl
@[simp] theorem endedWith_cause (o : Completion) (result phys : Nat) (s : State) : (endedWith o result phys s).cause = causeCode o := rfl
@[simp] theorem endedWith_backend (o : Completion) (result phys : Nat) (s : State) : (endedWith o result phys s).backend = s.backend := rfl
@[simp] theorem endedWith_key (o : Completion) (result phys : Nat) (s : State) : (endedWith o result phys s).key = s.key := rfl
@[simp] theorem endedWith_rk (o : Completion) (result phys : Nat) (s : State) : (endedWith o result phys s).rk = s.rk := rfl
@[simp] theorem endedWith_ctr (o : Completion) (result phys : Nat) (s : State) : (endedWith o result phys s).ctr = s.ctr := rfl
@[simp] theorem endedWith_din (o : Completion) (result phys : Nat) (s : State) : (endedWith o result phys s).din = s.din := rfl
@[simp] theorem endedWith_dout (o : Completion) (result phys : Nat) (s : State) : (endedWith o result phys s).dout = s.dout := rfl
@[simp] theorem endedWith_incLo (o : Completion) (result phys : Nat) (s : State) : (endedWith o result phys s).incLo = s.incLo := rfl
@[simp] theorem endedWith_incHi (o : Completion) (result phys : Nat) (s : State) : (endedWith o result phys s).incHi = s.incHi := rfl
@[simp] theorem endedWith_chunkSize (o : Completion) (result phys : Nat) (s : State) : (endedWith o result phys s).chunkSize = s.chunkSize := rfl
@[simp] theorem endedWith_tagLen (o : Completion) (result phys : Nat) (s : State) : (endedWith o result phys s).tagLen = s.tagLen := rfl
@[simp] theorem endedWith_c2bOff (o : Completion) (result phys : Nat) (s : State) : (endedWith o result phys s).c2bOff = s.c2bOff := rfl
@[simp] theorem endedWith_blkOff (o : Completion) (result phys : Nat) (s : State) : (endedWith o result phys s).blkOff = s.blkOff := rfl
@[simp] theorem endedWith_srcAddr (o : Completion) (result phys : Nat) (s : State) : (endedWith o result phys s).srcAddr = s.srcAddr := rfl
@[simp] theorem endedWith_srcOff (o : Completion) (result phys : Nat) (s : State) : (endedWith o result phys s).srcOff = s.srcOff := rfl
@[simp] theorem endedWith_dstAddr (o : Completion) (result phys : Nat) (s : State) : (endedWith o result phys s).dstAddr = s.dstAddr := rfl
@[simp] theorem endedWith_dstOff (o : Completion) (result phys : Nat) (s : State) : (endedWith o result phys s).dstOff = s.dstOff := rfl
@[simp] theorem endedWith_count (o : Completion) (result phys : Nat) (s : State) : (endedWith o result phys s).count = s.count := rfl
@[simp] theorem endedWith_avail (o : Completion) (result phys : Nat) (s : State) : (endedWith o result phys s).avail = s.avail := rfl
@[simp] theorem endedWith_result (o : Completion) (result phys : Nat) (s : State) : (endedWith o result phys s).result = BitVec.ofNat 32 result := rfl
@[simp] theorem endedWith_physPos (o : Completion) (result phys : Nat) (s : State) : (endedWith o result phys s).physPos = BitVec.ofNat 32 phys := rfl
@[simp] theorem endedWith_mem (o : Completion) (result phys : Nat) (s : State) : (endedWith o result phys s).mem = s.mem := rfl
@[simp] theorem endedWith_schedule (o : Completion) (result phys : Nat) (s : State) : (endedWith o result phys s).schedule = s.schedule := rfl
@[simp] theorem endedWith_reported (o : Completion) (result phys : Nat) (s : State) : (endedWith o result phys s).reported = s.reported := rfl
@[simp] theorem endedWith_draws (o : Completion) (result phys : Nat) (s : State) : (endedWith o result phys s).draws = s.draws := rfl

@[simp] theorem setBlockIndex_platform (b : BitVec 64) (s : State) : (setBlockIndex s b).platform = s.platform := rfl
@[simp] theorem setBlockIndex_seq (b : BitVec 64) (s : State) : (setBlockIndex s b).seq = s.seq := rfl
@[simp] theorem setBlockIndex_irqEn (b : BitVec 64) (s : State) : (setBlockIndex s b).irqEn = s.irqEn := rfl
@[simp] theorem setBlockIndex_done (b : BitVec 64) (s : State) : (setBlockIndex s b).done = s.done := rfl
@[simp] theorem setBlockIndex_rkValid (b : BitVec 64) (s : State) : (setBlockIndex s b).rkValid = s.rkValid := rfl
@[simp] theorem setBlockIndex_err (b : BitVec 64) (s : State) : (setBlockIndex s b).err = s.err := rfl
@[simp] theorem setBlockIndex_cause (b : BitVec 64) (s : State) : (setBlockIndex s b).cause = s.cause := rfl
@[simp] theorem setBlockIndex_backend (b : BitVec 64) (s : State) : (setBlockIndex s b).backend = s.backend := rfl
@[simp] theorem setBlockIndex_key (b : BitVec 64) (s : State) : (setBlockIndex s b).key = s.key := rfl
@[simp] theorem setBlockIndex_rk (b : BitVec 64) (s : State) : (setBlockIndex s b).rk = s.rk := rfl
@[simp] theorem setBlockIndex_ctr (b : BitVec 64) (s : State) : (setBlockIndex s b).ctr = #v[s.ctr[0], s.ctr[1], b.extractLsb' 32 32, b.extractLsb' 0 32] := rfl
@[simp] theorem setBlockIndex_din (b : BitVec 64) (s : State) : (setBlockIndex s b).din = s.din := rfl
@[simp] theorem setBlockIndex_dout (b : BitVec 64) (s : State) : (setBlockIndex s b).dout = s.dout := rfl
@[simp] theorem setBlockIndex_incLo (b : BitVec 64) (s : State) : (setBlockIndex s b).incLo = s.incLo := rfl
@[simp] theorem setBlockIndex_incHi (b : BitVec 64) (s : State) : (setBlockIndex s b).incHi = s.incHi := rfl
@[simp] theorem setBlockIndex_chunkSize (b : BitVec 64) (s : State) : (setBlockIndex s b).chunkSize = s.chunkSize := rfl
@[simp] theorem setBlockIndex_tagLen (b : BitVec 64) (s : State) : (setBlockIndex s b).tagLen = s.tagLen := rfl
@[simp] theorem setBlockIndex_c2bOff (b : BitVec 64) (s : State) : (setBlockIndex s b).c2bOff = s.c2bOff := rfl
@[simp] theorem setBlockIndex_blkOff (b : BitVec 64) (s : State) : (setBlockIndex s b).blkOff = s.blkOff := rfl
@[simp] theorem setBlockIndex_srcAddr (b : BitVec 64) (s : State) : (setBlockIndex s b).srcAddr = s.srcAddr := rfl
@[simp] theorem setBlockIndex_srcOff (b : BitVec 64) (s : State) : (setBlockIndex s b).srcOff = s.srcOff := rfl
@[simp] theorem setBlockIndex_dstAddr (b : BitVec 64) (s : State) : (setBlockIndex s b).dstAddr = s.dstAddr := rfl
@[simp] theorem setBlockIndex_dstOff (b : BitVec 64) (s : State) : (setBlockIndex s b).dstOff = s.dstOff := rfl
@[simp] theorem setBlockIndex_count (b : BitVec 64) (s : State) : (setBlockIndex s b).count = s.count := rfl
@[simp] theorem setBlockIndex_avail (b : BitVec 64) (s : State) : (setBlockIndex s b).avail = s.avail := rfl
@[simp] theorem setBlockIndex_result (b : BitVec 64) (s : State) : (setBlockIndex s b).result = s.result := rfl
@[simp] theorem setBlockIndex_physPos (b : BitVec 64) (s : State) : (setBlockIndex s b).physPos = s.physPos := rfl
@[simp] theorem setBlockIndex_mem (b : BitVec 64) (s : State) : (setBlockIndex s b).mem = s.mem := rfl
@[simp] theorem setBlockIndex_schedule (b : BitVec 64) (s : State) : (setBlockIndex s b).schedule = s.schedule := rfl
@[simp] theorem setBlockIndex_reported (b : BitVec 64) (s : State) : (setBlockIndex s b).reported = s.reported := rfl
@[simp] theorem setBlockIndex_draws (b : BitVec 64) (s : State) : (setBlockIndex s b).draws = s.draws := rfl

@[simp] theorem performPlan_platform (p : Plan) (s : State) : (performPlan p s).platform = s.platform := rfl
@[simp] theorem performPlan_seq (p : Plan) (s : State) : (performPlan p s).seq = s.seq := rfl
@[simp] theorem performPlan_irqEn (p : Plan) (s : State) : (performPlan p s).irqEn = s.irqEn := rfl
@[simp] theorem performPlan_done (p : Plan) (s : State) : (performPlan p s).done = s.done := rfl
@[simp] theorem performPlan_rkValid (p : Plan) (s : State) : (performPlan p s).rkValid = s.rkValid := rfl
@[simp] theorem performPlan_err (p : Plan) (s : State) : (performPlan p s).err = s.err := rfl
@[simp] theorem performPlan_cause (p : Plan) (s : State) : (performPlan p s).cause = s.cause := rfl
@[simp] theorem performPlan_backend (p : Plan) (s : State) : (performPlan p s).backend = s.backend := rfl
@[simp] theorem performPlan_key (p : Plan) (s : State) : (performPlan p s).key = s.key := rfl
@[simp] theorem performPlan_rk (p : Plan) (s : State) : (performPlan p s).rk = s.rk := rfl
@[simp] theorem performPlan_ctr (p : Plan) (s : State) : (performPlan p s).ctr = s.ctr := rfl
@[simp] theorem performPlan_din (p : Plan) (s : State) : (performPlan p s).din = s.din := rfl
@[simp] theorem performPlan_dout (p : Plan) (s : State) : (performPlan p s).dout = s.dout := rfl
@[simp] theorem performPlan_incLo (p : Plan) (s : State) : (performPlan p s).incLo = s.incLo := rfl
@[simp] theorem performPlan_incHi (p : Plan) (s : State) : (performPlan p s).incHi = s.incHi := rfl
@[simp] theorem performPlan_chunkSize (p : Plan) (s : State) : (performPlan p s).chunkSize = s.chunkSize := rfl
@[simp] theorem performPlan_tagLen (p : Plan) (s : State) : (performPlan p s).tagLen = s.tagLen := rfl
@[simp] theorem performPlan_c2bOff (p : Plan) (s : State) : (performPlan p s).c2bOff = s.c2bOff := rfl
@[simp] theorem performPlan_blkOff (p : Plan) (s : State) : (performPlan p s).blkOff = s.blkOff := rfl
@[simp] theorem performPlan_srcAddr (p : Plan) (s : State) : (performPlan p s).srcAddr = s.srcAddr := rfl
@[simp] theorem performPlan_srcOff (p : Plan) (s : State) : (performPlan p s).srcOff = s.srcOff := rfl
@[simp] theorem performPlan_dstAddr (p : Plan) (s : State) : (performPlan p s).dstAddr = s.dstAddr := rfl
@[simp] theorem performPlan_dstOff (p : Plan) (s : State) : (performPlan p s).dstOff = s.dstOff := rfl
@[simp] theorem performPlan_count (p : Plan) (s : State) : (performPlan p s).count = s.count := rfl
@[simp] theorem performPlan_avail (p : Plan) (s : State) : (performPlan p s).avail = s.avail := rfl
@[simp] theorem performPlan_result (p : Plan) (s : State) : (performPlan p s).result = s.result := rfl
@[simp] theorem performPlan_physPos (p : Plan) (s : State) : (performPlan p s).physPos = s.physPos := rfl
@[simp] theorem performPlan_mem (p : Plan) (s : State) : (performPlan p s).mem = s.mem.writeAll (xorSource p.writes (p.reads.map s.mem.read)) := rfl
@[simp] theorem performPlan_schedule (p : Plan) (s : State) : (performPlan p s).schedule = s.schedule := rfl
@[simp] theorem performPlan_reported (p : Plan) (s : State) : (performPlan p s).reported = s.reported := rfl
@[simp] theorem performPlan_draws (p : Plan) (s : State) : (performPlan p s).draws = s.draws := rfl

@[simp] theorem enterStage_platform (r : Running) (l : Loop) (stage : Stage) (s : State) : (enterStage r l stage s).platform = s.platform := rfl
@[simp] theorem enterStage_seq (r : Running) (l : Loop) (stage : Stage) (s : State) : (enterStage r l stage s).seq = .busy { r with phase := .looping l stage } := rfl
@[simp] theorem enterStage_irqEn (r : Running) (l : Loop) (stage : Stage) (s : State) : (enterStage r l stage s).irqEn = s.irqEn := rfl
@[simp] theorem enterStage_done (r : Running) (l : Loop) (stage : Stage) (s : State) : (enterStage r l stage s).done = s.done := rfl
@[simp] theorem enterStage_rkValid (r : Running) (l : Loop) (stage : Stage) (s : State) : (enterStage r l stage s).rkValid = s.rkValid := rfl
@[simp] theorem enterStage_err (r : Running) (l : Loop) (stage : Stage) (s : State) : (enterStage r l stage s).err = s.err := rfl
@[simp] theorem enterStage_cause (r : Running) (l : Loop) (stage : Stage) (s : State) : (enterStage r l stage s).cause = s.cause := rfl
@[simp] theorem enterStage_backend (r : Running) (l : Loop) (stage : Stage) (s : State) : (enterStage r l stage s).backend = s.backend := rfl
@[simp] theorem enterStage_key (r : Running) (l : Loop) (stage : Stage) (s : State) : (enterStage r l stage s).key = s.key := rfl
@[simp] theorem enterStage_rk (r : Running) (l : Loop) (stage : Stage) (s : State) : (enterStage r l stage s).rk = s.rk := rfl
@[simp] theorem enterStage_ctr (r : Running) (l : Loop) (stage : Stage) (s : State) : (enterStage r l stage s).ctr = s.ctr := rfl
@[simp] theorem enterStage_din (r : Running) (l : Loop) (stage : Stage) (s : State) : (enterStage r l stage s).din = s.din := rfl
@[simp] theorem enterStage_dout (r : Running) (l : Loop) (stage : Stage) (s : State) : (enterStage r l stage s).dout = s.dout := rfl
@[simp] theorem enterStage_incLo (r : Running) (l : Loop) (stage : Stage) (s : State) : (enterStage r l stage s).incLo = s.incLo := rfl
@[simp] theorem enterStage_incHi (r : Running) (l : Loop) (stage : Stage) (s : State) : (enterStage r l stage s).incHi = s.incHi := rfl
@[simp] theorem enterStage_chunkSize (r : Running) (l : Loop) (stage : Stage) (s : State) : (enterStage r l stage s).chunkSize = s.chunkSize := rfl
@[simp] theorem enterStage_tagLen (r : Running) (l : Loop) (stage : Stage) (s : State) : (enterStage r l stage s).tagLen = s.tagLen := rfl
@[simp] theorem enterStage_c2bOff (r : Running) (l : Loop) (stage : Stage) (s : State) : (enterStage r l stage s).c2bOff = s.c2bOff := rfl
@[simp] theorem enterStage_blkOff (r : Running) (l : Loop) (stage : Stage) (s : State) : (enterStage r l stage s).blkOff = s.blkOff := rfl
@[simp] theorem enterStage_srcAddr (r : Running) (l : Loop) (stage : Stage) (s : State) : (enterStage r l stage s).srcAddr = s.srcAddr := rfl
@[simp] theorem enterStage_srcOff (r : Running) (l : Loop) (stage : Stage) (s : State) : (enterStage r l stage s).srcOff = s.srcOff := rfl
@[simp] theorem enterStage_dstAddr (r : Running) (l : Loop) (stage : Stage) (s : State) : (enterStage r l stage s).dstAddr = s.dstAddr := rfl
@[simp] theorem enterStage_dstOff (r : Running) (l : Loop) (stage : Stage) (s : State) : (enterStage r l stage s).dstOff = s.dstOff := rfl
@[simp] theorem enterStage_count (r : Running) (l : Loop) (stage : Stage) (s : State) : (enterStage r l stage s).count = s.count := rfl
@[simp] theorem enterStage_avail (r : Running) (l : Loop) (stage : Stage) (s : State) : (enterStage r l stage s).avail = s.avail := rfl
@[simp] theorem enterStage_result (r : Running) (l : Loop) (stage : Stage) (s : State) : (enterStage r l stage s).result = s.result := rfl
@[simp] theorem enterStage_physPos (r : Running) (l : Loop) (stage : Stage) (s : State) : (enterStage r l stage s).physPos = s.physPos := rfl
@[simp] theorem enterStage_mem (r : Running) (l : Loop) (stage : Stage) (s : State) : (enterStage r l stage s).mem = s.mem := rfl
@[simp] theorem enterStage_schedule (r : Running) (l : Loop) (stage : Stage) (s : State) : (enterStage r l stage s).schedule = s.schedule := rfl
@[simp] theorem enterStage_reported (r : Running) (l : Loop) (stage : Stage) (s : State) : (enterStage r l stage s).reported = s.reported := rfl
@[simp] theorem enterStage_draws (r : Running) (l : Loop) (stage : Stage) (s : State) : (enterStage r l stage s).draws = s.draws := rfl

@[simp] theorem report_platform (v : Word) (s : State) : (report v s).platform = s.platform := rfl
@[simp] theorem report_seq (v : Word) (s : State) : (report v s).seq = s.seq := rfl
@[simp] theorem report_irqEn (v : Word) (s : State) : (report v s).irqEn = s.irqEn := rfl
@[simp] theorem report_done (v : Word) (s : State) : (report v s).done = s.done := rfl
@[simp] theorem report_rkValid (v : Word) (s : State) : (report v s).rkValid = s.rkValid := rfl
@[simp] theorem report_err (v : Word) (s : State) : (report v s).err = s.err := rfl
@[simp] theorem report_cause (v : Word) (s : State) : (report v s).cause = s.cause := rfl
@[simp] theorem report_backend (v : Word) (s : State) : (report v s).backend = s.backend := rfl
@[simp] theorem report_key (v : Word) (s : State) : (report v s).key = s.key := rfl
@[simp] theorem report_rk (v : Word) (s : State) : (report v s).rk = s.rk := rfl
@[simp] theorem report_ctr (v : Word) (s : State) : (report v s).ctr = s.ctr := rfl
@[simp] theorem report_din (v : Word) (s : State) : (report v s).din = s.din := rfl
@[simp] theorem report_dout (v : Word) (s : State) : (report v s).dout = s.dout := rfl
@[simp] theorem report_incLo (v : Word) (s : State) : (report v s).incLo = s.incLo := rfl
@[simp] theorem report_incHi (v : Word) (s : State) : (report v s).incHi = s.incHi := rfl
@[simp] theorem report_chunkSize (v : Word) (s : State) : (report v s).chunkSize = s.chunkSize := rfl
@[simp] theorem report_tagLen (v : Word) (s : State) : (report v s).tagLen = s.tagLen := rfl
@[simp] theorem report_c2bOff (v : Word) (s : State) : (report v s).c2bOff = s.c2bOff := rfl
@[simp] theorem report_blkOff (v : Word) (s : State) : (report v s).blkOff = s.blkOff := rfl
@[simp] theorem report_srcAddr (v : Word) (s : State) : (report v s).srcAddr = s.srcAddr := rfl
@[simp] theorem report_srcOff (v : Word) (s : State) : (report v s).srcOff = s.srcOff := rfl
@[simp] theorem report_dstAddr (v : Word) (s : State) : (report v s).dstAddr = s.dstAddr := rfl
@[simp] theorem report_dstOff (v : Word) (s : State) : (report v s).dstOff = s.dstOff := rfl
@[simp] theorem report_count (v : Word) (s : State) : (report v s).count = s.count := rfl
@[simp] theorem report_avail (v : Word) (s : State) : (report v s).avail = s.avail := rfl
@[simp] theorem report_result (v : Word) (s : State) : (report v s).result = s.result := rfl
@[simp] theorem report_physPos (v : Word) (s : State) : (report v s).physPos = s.physPos := rfl
@[simp] theorem report_mem (v : Word) (s : State) : (report v s).mem = s.mem := rfl
@[simp] theorem report_schedule (v : Word) (s : State) : (report v s).schedule = s.schedule := rfl
@[simp] theorem report_reported (v : Word) (s : State) : (report v s).reported = v :: s.reported := rfl
@[simp] theorem report_draws (v : Word) (s : State) : (report v s).draws = s.draws := rfl

@[simp] theorem storeByte_platform (a : Nat) (v : Byte) (hostWins : Bool) (s : State) : (storeByte a v hostWins s).platform = s.platform := rfl
@[simp] theorem storeByte_seq (a : Nat) (v : Byte) (hostWins : Bool) (s : State) : (storeByte a v hostWins s).seq = seqAfterStore a hostWins s.seq := rfl
@[simp] theorem storeByte_irqEn (a : Nat) (v : Byte) (hostWins : Bool) (s : State) : (storeByte a v hostWins s).irqEn = s.irqEn := rfl
@[simp] theorem storeByte_done (a : Nat) (v : Byte) (hostWins : Bool) (s : State) : (storeByte a v hostWins s).done = s.done := rfl
@[simp] theorem storeByte_rkValid (a : Nat) (v : Byte) (hostWins : Bool) (s : State) : (storeByte a v hostWins s).rkValid = s.rkValid := rfl
@[simp] theorem storeByte_err (a : Nat) (v : Byte) (hostWins : Bool) (s : State) : (storeByte a v hostWins s).err = s.err := rfl
@[simp] theorem storeByte_cause (a : Nat) (v : Byte) (hostWins : Bool) (s : State) : (storeByte a v hostWins s).cause = s.cause := rfl
@[simp] theorem storeByte_backend (a : Nat) (v : Byte) (hostWins : Bool) (s : State) : (storeByte a v hostWins s).backend = s.backend := rfl
@[simp] theorem storeByte_key (a : Nat) (v : Byte) (hostWins : Bool) (s : State) : (storeByte a v hostWins s).key = s.key := rfl
@[simp] theorem storeByte_rk (a : Nat) (v : Byte) (hostWins : Bool) (s : State) : (storeByte a v hostWins s).rk = s.rk := rfl
@[simp] theorem storeByte_ctr (a : Nat) (v : Byte) (hostWins : Bool) (s : State) : (storeByte a v hostWins s).ctr = s.ctr := rfl
@[simp] theorem storeByte_din (a : Nat) (v : Byte) (hostWins : Bool) (s : State) : (storeByte a v hostWins s).din = s.din := rfl
@[simp] theorem storeByte_dout (a : Nat) (v : Byte) (hostWins : Bool) (s : State) : (storeByte a v hostWins s).dout = s.dout := rfl
@[simp] theorem storeByte_incLo (a : Nat) (v : Byte) (hostWins : Bool) (s : State) : (storeByte a v hostWins s).incLo = s.incLo := rfl
@[simp] theorem storeByte_incHi (a : Nat) (v : Byte) (hostWins : Bool) (s : State) : (storeByte a v hostWins s).incHi = s.incHi := rfl
@[simp] theorem storeByte_chunkSize (a : Nat) (v : Byte) (hostWins : Bool) (s : State) : (storeByte a v hostWins s).chunkSize = s.chunkSize := rfl
@[simp] theorem storeByte_tagLen (a : Nat) (v : Byte) (hostWins : Bool) (s : State) : (storeByte a v hostWins s).tagLen = s.tagLen := rfl
@[simp] theorem storeByte_c2bOff (a : Nat) (v : Byte) (hostWins : Bool) (s : State) : (storeByte a v hostWins s).c2bOff = s.c2bOff := rfl
@[simp] theorem storeByte_blkOff (a : Nat) (v : Byte) (hostWins : Bool) (s : State) : (storeByte a v hostWins s).blkOff = s.blkOff := rfl
@[simp] theorem storeByte_srcAddr (a : Nat) (v : Byte) (hostWins : Bool) (s : State) : (storeByte a v hostWins s).srcAddr = s.srcAddr := rfl
@[simp] theorem storeByte_srcOff (a : Nat) (v : Byte) (hostWins : Bool) (s : State) : (storeByte a v hostWins s).srcOff = s.srcOff := rfl
@[simp] theorem storeByte_dstAddr (a : Nat) (v : Byte) (hostWins : Bool) (s : State) : (storeByte a v hostWins s).dstAddr = s.dstAddr := rfl
@[simp] theorem storeByte_dstOff (a : Nat) (v : Byte) (hostWins : Bool) (s : State) : (storeByte a v hostWins s).dstOff = s.dstOff := rfl
@[simp] theorem storeByte_count (a : Nat) (v : Byte) (hostWins : Bool) (s : State) : (storeByte a v hostWins s).count = s.count := rfl
@[simp] theorem storeByte_avail (a : Nat) (v : Byte) (hostWins : Bool) (s : State) : (storeByte a v hostWins s).avail = s.avail := rfl
@[simp] theorem storeByte_result (a : Nat) (v : Byte) (hostWins : Bool) (s : State) : (storeByte a v hostWins s).result = s.result := rfl
@[simp] theorem storeByte_physPos (a : Nat) (v : Byte) (hostWins : Bool) (s : State) : (storeByte a v hostWins s).physPos = s.physPos := rfl
@[simp] theorem storeByte_mem (a : Nat) (v : Byte) (hostWins : Bool) (s : State) : (storeByte a v hostWins s).mem = s.mem.write a v := rfl
@[simp] theorem storeByte_schedule (a : Nat) (v : Byte) (hostWins : Bool) (s : State) : (storeByte a v hostWins s).schedule = s.schedule := rfl
@[simp] theorem storeByte_reported (a : Nat) (v : Byte) (hostWins : Bool) (s : State) : (storeByte a v hostWins s).reported = s.reported := rfl
@[simp] theorem storeByte_draws (a : Nat) (v : Byte) (hostWins : Bool) (s : State) : (storeByte a v hostWins s).draws = s.draws := rfl

end Sys2Proof.Machine
end

