-- ==== Sys2Proof/Laws/Operands.lean ====
section
/-! SUPPORT. What the operand readings of a command become under the updates a command makes, and which addresses are
admitted (spec/30_encoding.md R97, spec/20_memory.md R61). -/

namespace Sys2Proof.Machine

@[simp] theorem nonce_accept (w : Word) (s : State) : nonce (accept w s) = nonce s := rfl
@[simp] theorem blockIndex_accept (w : Word) (s : State) : blockIndex (accept w s) = blockIndex s := rfl
@[simp] theorem incOperand_accept (w : Word) (s : State) : incOperand (accept w s) = incOperand s := rfl
@[simp] theorem srcBase_accept (w : Word) (s : State) : srcBase (accept w s) = srcBase s := rfl
@[simp] theorem dstBase_accept (w : Word) (s : State) : dstBase (accept w s) = dstBase s := rfl
@[simp] theorem chunkBytes_accept (w : Word) (s : State) : chunkBytes (accept w s) = chunkBytes s := rfl
@[simp] theorem tagBytes_accept (w : Word) (s : State) : tagBytes (accept w s) = tagBytes s := rfl
@[simp] theorem chunkSkip_accept (w : Word) (s : State) : chunkSkip (accept w s) = chunkSkip s := rfl

@[simp] theorem nonce_performPlan (p : Plan) (s : State) : nonce (performPlan p s) = nonce s := rfl
@[simp] theorem blockIndex_performPlan (p : Plan) (s : State) : blockIndex (performPlan p s) = blockIndex s := rfl
@[simp] theorem incOperand_performPlan (p : Plan) (s : State) : incOperand (performPlan p s) = incOperand s := rfl
@[simp] theorem srcBase_performPlan (p : Plan) (s : State) : srcBase (performPlan p s) = srcBase s := rfl
@[simp] theorem dstBase_performPlan (p : Plan) (s : State) : dstBase (performPlan p s) = dstBase s := rfl
@[simp] theorem chunkBytes_performPlan (p : Plan) (s : State) : chunkBytes (performPlan p s) = chunkBytes s := rfl
@[simp] theorem tagBytes_performPlan (p : Plan) (s : State) : tagBytes (performPlan p s) = tagBytes s := rfl
@[simp] theorem chunkSkip_performPlan (p : Plan) (s : State) : chunkSkip (performPlan p s) = chunkSkip s := rfl

@[simp] theorem nonce_enterStage (r : Running) (l : Loop) (stage : Stage) (s : State) : nonce (enterStage r l stage s) = nonce s := rfl
@[simp] theorem blockIndex_enterStage (r : Running) (l : Loop) (stage : Stage) (s : State) : blockIndex (enterStage r l stage s) = blockIndex s := rfl
@[simp] theorem incOperand_enterStage (r : Running) (l : Loop) (stage : Stage) (s : State) : incOperand (enterStage r l stage s) = incOperand s := rfl
@[simp] theorem srcBase_enterStage (r : Running) (l : Loop) (stage : Stage) (s : State) : srcBase (enterStage r l stage s) = srcBase s := rfl
@[simp] theorem dstBase_enterStage (r : Running) (l : Loop) (stage : Stage) (s : State) : dstBase (enterStage r l stage s) = dstBase s := rfl
@[simp] theorem chunkBytes_enterStage (r : Running) (l : Loop) (stage : Stage) (s : State) : chunkBytes (enterStage r l stage s) = chunkBytes s := rfl
@[simp] theorem tagBytes_enterStage (r : Running) (l : Loop) (stage : Stage) (s : State) : tagBytes (enterStage r l stage s) = tagBytes s := rfl
@[simp] theorem chunkSkip_enterStage (r : Running) (l : Loop) (stage : Stage) (s : State) : chunkSkip (enterStage r l stage s) = chunkSkip s := rfl

@[simp] theorem nonce_complete (o : Completion) (result phys : Nat) (s : State) : nonce (complete o result phys s) = nonce s := rfl
@[simp] theorem blockIndex_complete (o : Completion) (result phys : Nat) (s : State) : blockIndex (complete o result phys s) = blockIndex s := rfl
@[simp] theorem incOperand_complete (o : Completion) (result phys : Nat) (s : State) : incOperand (complete o result phys s) = incOperand s := rfl
@[simp] theorem srcBase_complete (o : Completion) (result phys : Nat) (s : State) : srcBase (complete o result phys s) = srcBase s := rfl
@[simp] theorem dstBase_complete (o : Completion) (result phys : Nat) (s : State) : dstBase (complete o result phys s) = dstBase s := rfl
@[simp] theorem chunkBytes_complete (o : Completion) (result phys : Nat) (s : State) : chunkBytes (complete o result phys s) = chunkBytes s := rfl
@[simp] theorem tagBytes_complete (o : Completion) (result phys : Nat) (s : State) : tagBytes (complete o result phys s) = tagBytes s := rfl
@[simp] theorem chunkSkip_complete (o : Completion) (result phys : Nat) (s : State) : chunkSkip (complete o result phys s) = chunkSkip s := rfl

@[simp] theorem nonce_endedWith (o : Completion) (result phys : Nat) (s : State) : nonce (endedWith o result phys s) = nonce s := rfl
@[simp] theorem blockIndex_endedWith (o : Completion) (result phys : Nat) (s : State) : blockIndex (endedWith o result phys s) = blockIndex s := rfl
@[simp] theorem incOperand_endedWith (o : Completion) (result phys : Nat) (s : State) : incOperand (endedWith o result phys s) = incOperand s := rfl
@[simp] theorem srcBase_endedWith (o : Completion) (result phys : Nat) (s : State) : srcBase (endedWith o result phys s) = srcBase s := rfl
@[simp] theorem dstBase_endedWith (o : Completion) (result phys : Nat) (s : State) : dstBase (endedWith o result phys s) = dstBase s := rfl
@[simp] theorem chunkBytes_endedWith (o : Completion) (result phys : Nat) (s : State) : chunkBytes (endedWith o result phys s) = chunkBytes s := rfl
@[simp] theorem tagBytes_endedWith (o : Completion) (result phys : Nat) (s : State) : tagBytes (endedWith o result phys s) = tagBytes s := rfl
@[simp] theorem chunkSkip_endedWith (o : Completion) (result phys : Nat) (s : State) : chunkSkip (endedWith o result phys s) = chunkSkip s := rfl

@[simp] theorem incOperand_setBlockIndex (b : BitVec 64) (s : State) : incOperand (setBlockIndex s b) = incOperand s := rfl
@[simp] theorem srcBase_setBlockIndex (b : BitVec 64) (s : State) : srcBase (setBlockIndex s b) = srcBase s := rfl
@[simp] theorem dstBase_setBlockIndex (b : BitVec 64) (s : State) : dstBase (setBlockIndex s b) = dstBase s := rfl
@[simp] theorem chunkBytes_setBlockIndex (b : BitVec 64) (s : State) : chunkBytes (setBlockIndex s b) = chunkBytes s := rfl
@[simp] theorem tagBytes_setBlockIndex (b : BitVec 64) (s : State) : tagBytes (setBlockIndex s b) = tagBytes s := rfl
@[simp] theorem chunkSkip_setBlockIndex (b : BitVec 64) (s : State) : chunkSkip (setBlockIndex s b) = chunkSkip s := rfl

/-- An admitted address is below 2^32, answered by the platform and outside the register window (20_memory.md R61). -/
theorem admits_iff (p : Platform) (a : Nat) (k : AccessKind) :
    admits p a k = true ↔ a < 2 ^ 32 ∧ memAdmit p a k = true ∧ inWindow p a = false := by
  simp [admits, and_assoc]

theorem lt_of_admit (p : Platform) (a : Nat) (k : AccessKind) (h : admits p a k = true) : a < 2 ^ 32 :=
  ((admits_iff p a k).mp h).1

/-- The effective tag length and chunk offset without chunks and with them (43_stream_transform.md R192). -/
theorem tagBytes_of_no_chunks (s : State) (h : chunkBytes s = 0) : tagBytes s = 0 := by
  rw [chunkBytes] at h
  simp [tagBytes, h]

theorem chunkSkip_of_no_chunks (s : State) (h : chunkBytes s = 0) : chunkSkip s = 0 := by
  rw [chunkBytes] at h
  simp [chunkSkip, h]

theorem chunkSkip_of_chunks (s : State) (h : 0 < chunkBytes s) : chunkSkip s = s.c2bOff.toNat := by
  rw [chunkBytes] at h
  simp [chunkSkip, show s.chunkSize.toNat ≠ 0 by omega]

end Sys2Proof.Machine
end

