-- ==== Sys2Proof/Laws/Command.lean ====
section
/-! SUPPORT. Running a command atomically: what `exec` is on a BUSY and on an IDLE engine, and what completion leaves
(spec/30_encoding.md R96, spec/60_exceptions.md R245, spec/70_reset_and_hazards.md R286). -/

namespace Sys2Proof.Machine

theorem runCommand_busy (w : Word) (body : State → State) (s : State) (h : isBusy s = true) :
    runCommand w body s = s := by
  simp [runCommand, h]

theorem runCommand_idle (w : Word) (body : State → State) (s : State) (h : isBusy s = false) :
    runCommand w body s = body (accept w s) := by
  simp [runCommand, h]

/-- What each command does to an accepted engine. -/
def commandBody : Instr → State → State
  | .selectBackend arg => selectBackendBody arg
  | .keyExpand => keyExpandBody
  | .encBlock => encBlockBody
  | .encBatch => runLoopCommand encBatchStart encBatchHead
  | .ctrInc => ctrIncBody
  | .streamEnc => runLoopCommand streamStart streamEncHead
  | .streamDec => runLoopCommand streamStart streamDecHead

theorem exec_eq (i : Instr) (s : State) : exec i s = .next (runCommand (encode i) (commandBody i) s) := by
  cases i <;> rfl

/-- No command is accepted while one is BUSY (30_encoding.md R96). -/
theorem exec_busy (i : Instr) (s : State) (h : isBusy s = true) : exec i s = .next s := by
  rw [exec_eq, runCommand_busy _ _ _ h]

/-- On an IDLE engine a command is accepted and runs (30_encoding.md R96). -/
theorem exec_idle (i : Instr) (s : State) (h : isBusy s = false) :
    exec i s = .next (commandBody i (accept (encode i) s)) := by
  rw [exec_eq, runCommand_idle _ _ _ h]

/-- Completion is a change of the outcome fields once the data space holds the command's writes (60_exceptions.md
R245). -/
theorem complete_eq_endedWith (o : Completion) (result phys : Nat) (s : State) (h : pendingWrites s = []) :
    complete o result phys s = endedWith o result phys s := by
  simp [complete, endedWith, engineView, h]

/-- Acceptance leaves no trace in what an ended command shows. -/
theorem endedWith_accept (o : Completion) (result phys : Nat) (w : Word) (s : State) :
    endedWith o result phys (accept w s) = endedWith o result phys s := rfl

theorem complete_accept (o : Completion) (result phys : Nat) (w : Word) (s : State) :
    complete o result phys (accept w s) = endedWith o result phys s := rfl

end Sys2Proof.Machine
end

