-- ==== Sys2Proof/Laws/HostBus.lean ====
section
/-! SUPPORT. Which register stands at which offset, and one lemma per move of the schedule (spec/10_state.md R21,
spec/20_memory.md R71). -/

namespace Sys2Proof.Machine

theorem mem_allRegs (r : Reg) : r ∈ allRegs := by
  cases r with
  | key i => revert i; decide
  | ctr i => revert i; decide
  | din i => revert i; decide
  | dout i => revert i; decide
  | _ => decide

/-- Each register stands at its own offset (10_state.md R21). -/
theorem regAt_regOffset (r : Reg) : regAt (regOffset r) = some r := by
  have h : ∀ q ∈ allRegs, regAt (regOffset q) = some q := by decide +kernel
  exact h r (mem_allRegs r)

/-- The register found at an offset has that offset (10_state.md R21). -/
theorem regOffset_of_regAt (offset : BitVec 8) (r : Reg) (h : regAt offset = some r) : regOffset r = offset := by
  simpa using List.find?_some h

theorem regOffset_aligned (r : Reg) : (regOffset r).toNat % 4 = 0 := by
  have h : ∀ q ∈ allRegs, (regOffset q).toNat % 4 = 0 := by decide +kernel
  exact h r (mem_allRegs r)

theorem regularAccess_iff (offset : BitVec 8) (size : AccessSize) :
    regularAccess offset size = true ↔ size = .word ∧ offset.toNat % 4 = 0 := by
  simp [regularAccess]

theorem step_nil (s : State) (h : s.schedule = []) : step s = .next (engineStep s) := by
  simp [step, nextMove, h]

theorem step_cons (s : State) (m : Move) (rest : List Move) (h : s.schedule = m :: rest) :
    step s = perform m { s with schedule := rest } := by
  simp [step, nextMove, h]

/-- A regular write of the window. -/
theorem perform_writeReg (offset : BitVec 8) (v : Word) (s : State) (h : offset.toNat % 4 = 0) :
    perform (.writeReg offset .word v) s = .next (writeWindow offset v s) := by
  simp [perform, regularAccess, h]

/-- A regular read of the window. -/
theorem perform_readReg (offset : BitVec 8) (s : State) (h : offset.toNat % 4 = 0) :
    perform (.readReg offset .word) s = .next (readWindow offset s) := by
  simp [perform, regularAccess, h]

theorem writeWindow_regOffset (r : Reg) (v : Word) (s : State) : writeWindow (regOffset r) v s = writeRegister r v s := by
  simp [writeWindow, regAt_regOffset]

theorem readWindow_regOffset (r : Reg) (s : State) : readWindow (regOffset r) s = readRegister r s := by
  simp [readWindow, regAt_regOffset]

/-- The host's write of a register. -/
theorem step_writeReg (s : State) (r : Reg) (v : Word) (rest : List Move)
    (h : s.schedule = .writeReg (regOffset r) .word v :: rest) :
    step s = .next (writeRegister r v { s with schedule := rest }) := by
  rw [step_cons _ _ _ h, perform_writeReg _ _ _ (regOffset_aligned r), writeWindow_regOffset]

/-- The host's read of a register. -/
theorem step_readReg (s : State) (r : Reg) (rest : List Move) (h : s.schedule = .readReg (regOffset r) .word :: rest) :
    step s = .next (readRegister r { s with schedule := rest }) := by
  rw [step_cons _ _ _ h, perform_readReg _ _ (regOffset_aligned r), readWindow_regOffset]

/-- The host's atomic CMD write (70_reset_and_hazards.md R286). -/
theorem step_command (s : State) (w : Word) (rest : List Move) (h : s.schedule = .command w :: rest) :
    step s = runWord w { s with schedule := rest } :=
  step_cons _ _ _ h

/-- A host write while BUSY leaves every register but CTRL alone (10_state.md R39). -/
theorem writeRegister_busy (r : Reg) (v : Word) (s : State) (h : isBusy s = true) (hr : r ≠ .ctrl) :
    writeRegister r v s = s := by
  simp [writeRegister, h, hr]

theorem writeRegister_idle (r : Reg) (v : Word) (s : State) (h : isBusy s = false) :
    writeRegister r v s = writeRegisterIdle r v s := by
  simp [writeRegister, h]

theorem writeRegister_ctrl (v : Word) (s : State) : writeRegister .ctrl v s = { s with irqEn := v.getLsbD 0 } := by
  simp only [writeRegister, writeRegisterIdle, ne_eq, not_true, decide_false, Bool.and_false, Bool.false_eq_true,
    if_false]

/-- A read that 10_state.md R40 gives a value. -/
theorem readRegister_stable (r : Reg) (s : State) (h : isBusy s = false ∨ unspecifiedWhileBusy r = false) :
    readRegister r s = report (regValue s r) s := by
  rcases h with h | h <;> simp [readRegister, h]

/-- A read that 10_state.md R40 leaves open. -/
theorem readRegister_free (r : Reg) (s : State) (h : isBusy s = true) (hr : unspecifiedWhileBusy r = true) :
    readRegister r s = { s with reported := Config.busyRead s.draws :: s.reported, draws := s.draws + 1 } := by
  simp [readRegister, h, hr, report]

end Sys2Proof.Machine
end

