-- ==== Sys2Proof/Laws/Counter.lean ====
section
/-! SUPPORT. The increment, and the Counter's fields after its update (spec/40_counter.md R122, R123). -/

namespace Sys2Proof.Machine

theorem increment_of_neg (b : BitVec 64) (n : Int) (h : n < 0) :
    increment b n = .error (.invalidArgument .negativeIncrement) := by
  simp [increment, h]

theorem increment_of_overflow (b : BitVec 64) (n : Int) (h : 0 ≤ n) (ho : 2 ^ 64 ≤ (b.toNat : Int) + n) :
    increment b n = .error .overflow := by
  rw [increment, if_neg (by omega), if_pos ho]

theorem increment_of_fits (b : BitVec 64) (n : Int) (h : 0 ≤ n) (hf : (b.toNat : Int) + n < 2 ^ 64) :
    increment b n = .ok (BitVec.ofNat 64 (b.toNat + n.toNat)) := by
  rw [increment, if_neg (by omega), if_neg (by omega)]
  congr 1
  apply BitVec.eq_of_toNat_eq
  simp only [BitVec.toNat_ofInt, BitVec.toNat_ofNat]
  omega

/-- All that `increment` can answer: an error for a negative amount, an error when a carry would leave the BlockIndex,
or the sum. -/
theorem increment_cases (b : BitVec 64) (n : Int) :
    (n < 0 ∧ increment b n = .error (.invalidArgument .negativeIncrement)) ∨
    (0 ≤ n ∧ 2 ^ 64 ≤ (b.toNat : Int) + n ∧ increment b n = .error .overflow) ∨
    (0 ≤ n ∧ (b.toNat : Int) + n < 2 ^ 64 ∧ increment b n = .ok (BitVec.ofNat 64 (b.toNat + n.toNat))) := by
  by_cases hn : n < 0
  · exact .inl ⟨hn, increment_of_neg b n hn⟩
  · by_cases ho : 2 ^ 64 ≤ (b.toNat : Int) + n
    · exact .inr (.inl ⟨by omega, ho, increment_of_overflow b n (by omega) ho⟩)
    · exact .inr (.inr ⟨by omega, by omega, increment_of_fits b n (by omega) (by omega)⟩)

/-- Two words of a 64-bit number give it back. -/
theorem words_append (b : BitVec 64) : (b.extractLsb' 32 32 ++ b.extractLsb' 0 32 : BitVec 64) = b := by
  apply BitVec.eq_of_getLsbD_eq
  intro i hi
  simp only [BitVec.getLsbD_append, BitVec.getLsbD_extractLsb']
  by_cases h : i < 32
  · simp [h]
  · simp [h, show i - 32 < 32 by omega, show 32 + (i - 32) = i by omega]

@[simp] theorem blockIndex_setBlockIndex (s : State) (b : BitVec 64) : blockIndex (setBlockIndex s b) = b :=
  words_append b

@[simp] theorem nonce_setBlockIndex (s : State) (b : BitVec 64) : nonce (setBlockIndex s b) = nonce s := rfl

@[simp] theorem setBlockIndex_setBlockIndex (s : State) (a b : BitVec 64) :
    setBlockIndex (setBlockIndex s a) b = setBlockIndex s b := rfl

/-- The high and low word of an appended pair. -/
theorem append_high (x y : Word) : (x ++ y : BitVec 64).extractLsb' 32 32 = x := by
  apply BitVec.eq_of_getLsbD_eq
  intro i hi
  simp only [BitVec.getLsbD_extractLsb', BitVec.getLsbD_append]
  simp [hi]

theorem append_low (x y : Word) : (x ++ y : BitVec 64).extractLsb' 0 32 = y := by
  apply BitVec.eq_of_getLsbD_eq
  intro i hi
  simp only [BitVec.getLsbD_extractLsb', BitVec.getLsbD_append]
  simp [hi]

theorem vector4_eta (v : Vector Word 4) : v = #v[v[0], v[1], v[2], v[3]] := by
  ext i hi
  match i, hi with
  | 0, _ => rfl
  | 1, _ => rfl
  | 2, _ => rfl
  | 3, _ => rfl

/-- Writing the BlockIndex that stands there changes nothing. -/
@[simp] theorem setBlockIndex_self (s : State) : setBlockIndex s (blockIndex s) = s := by
  have h : (#v[s.ctr[0], s.ctr[1], (blockIndex s).extractLsb' 32 32, (blockIndex s).extractLsb' 0 32] : Vector Word 4) =
      s.ctr := by
    rw [blockIndex, append_high, append_low]
    exact (vector4_eta s.ctr).symm
  rw [setBlockIndex, h]

end Sys2Proof.Machine
end

