-- ==== Sys2Proof/Laws/Loop.lean ====
section
/-! SUPPORT. What the loop of a loop command can do, said once: the cases of `advanceBlock` and the exits of
`runLoop`. -/

namespace Sys2Proof.Machine

/-- After an iteration: nothing happens to an incomplete block; a complete one advances the BlockIndex, or raises OVERFLOW
at its last value (43_stream_transform.md R204, R206). -/
theorem advanceBlock_cases (p : Plan) (s : State) :
    (p.advance = false ∧ advanceBlock p s = .ok s) ∨
    (p.advance = true ∧ (blockIndex s).toNat + 1 < 2 ^ 64 ∧
      advanceBlock p s = .ok (setBlockIndex s (BitVec.ofNat 64 ((blockIndex s).toNat + 1)))) ∨
    (p.advance = true ∧ (blockIndex s).toNat + 1 = 2 ^ 64 ∧ advanceBlock p s = .error .overflow) := by
  cases hp : p.advance with
  | false => exact .inl ⟨rfl, by simp [advanceBlock, hp]⟩
  | true =>
    have hlt := (blockIndex s).isLt
    rcases increment_cases (blockIndex s) 1 with ⟨h, _⟩ | ⟨_, h, he⟩ | ⟨_, h, he⟩
    · omega
    · exact .inr (.inr ⟨rfl, by omega, by simp [advanceBlock, hp, he]⟩)
    · exact .inr (.inl ⟨rfl, by omega, by simp [advanceBlock, hp, he]⟩)

/-- Whatever a loop does, it ends by one of its exits from a state and cursors that the iterations led to: `J`, indexed
by the fuel left, holds there if it holds at the start and every iteration keeps it. -/
theorem runLoop_exit (head : State → Cursors → Head) (J : Nat → State → Cursors → Prop)
    (keep : ∀ n u d p t, J (n + 1) u d → head u d = .go p → advanceBlock p (performPlan p u) = .ok t →
      J n t p.next) :
    ∀ n c s, J n s c → ∃ m u d, J m u d ∧ (m = 0 → runLoop head n c s = complete .ok d.written d.pos u) ∧
      (m ≠ 0 → (∃ o phys, head u d = .done o phys ∧ runLoop head n c s = complete o d.written phys u) ∨
        ∃ p o, head u d = .go p ∧ advanceBlock p (performPlan p u) = .error o ∧
          runLoop head n c s = complete o p.next.written p.next.pos (performPlan p u)) := by
  intro n
  induction n with
  | zero => exact fun c s h => ⟨0, s, c, h, fun _ => rfl, fun h => absurd rfl h⟩
  | succ n ih =>
    intro c s h
    cases hh : head s c with
    | done o phys => exact ⟨n + 1, s, c, h, fun h => by omega, fun _ => .inl ⟨o, phys, hh, by simp [runLoop, hh]⟩⟩
    | go p =>
      cases ha : advanceBlock p (performPlan p s) with
      | error o =>
        exact ⟨n + 1, s, c, h, fun h => by omega, fun _ => .inr ⟨p, o, hh, ha, by simp [runLoop, hh, ha]⟩⟩
      | ok t =>
        obtain ⟨m, u, d, hj, h0, h1⟩ := ih p.next t (keep n s c p t h hh ha)
        refine ⟨m, u, d, hj, fun hm => ?_, fun hm => ?_⟩
        · simpa [runLoop, hh, ha] using h0 hm
        · simpa [runLoop, hh, ha] using h1 hm

end Sys2Proof.Machine
end

