-- ==== Sys2Proof/Laws/Frame.lean ====
section
/-! SUPPORT. What a loop command, and one micro-step of the engine, can change (spec/10_state.md R41). -/

namespace Sys2Proof.Machine

/-- `t` is `s` but for the Counter and the data space, and the Nonce is the same. -/
def counterAndMemoryOnly (s t : State) : Prop :=
  t = { s with ctr := t.ctr, mem := t.mem } ∧ t.ctr[0] = s.ctr[0] ∧ t.ctr[1] = s.ctr[1]

theorem counterAndMemoryOnly_refl (s : State) : counterAndMemoryOnly s s := ⟨rfl, rfl, rfl⟩

theorem counterAndMemoryOnly_trans (s t u : State) (h : counterAndMemoryOnly s t) (h' : counterAndMemoryOnly t u) :
    counterAndMemoryOnly s u := by
  obtain ⟨h, h0, h1⟩ := h
  obtain ⟨h', h0', h1'⟩ := h'
  refine ⟨?_, h0'.trans h0, h1'.trans h1⟩
  rw [h', h]

theorem performPlan_frame (p : Plan) (s : State) : counterAndMemoryOnly s (performPlan p s) := ⟨rfl, rfl, rfl⟩

theorem setBlockIndex_frame (s : State) (b : BitVec 64) : counterAndMemoryOnly s (setBlockIndex s b) := ⟨rfl, rfl, rfl⟩

theorem advanceBlock_frame (p : Plan) (s t : State) (h : advanceBlock p s = .ok t) : counterAndMemoryOnly s t := by
  rcases advanceBlock_cases p s with ⟨_, ha⟩ | ⟨_, _, ha⟩ | ⟨_, _, ha⟩
  · rw [ha] at h; cases h; exact counterAndMemoryOnly_refl _
  · rw [ha] at h; cases h; exact setBlockIndex_frame _ _
  · rw [ha] at h; cases h

/-- The only outcome an iteration's Counter advance can raise (43_stream_transform.md R206). -/
theorem advanceBlock_error (p : Plan) (s : State) (o : Completion) (h : advanceBlock p s = .error o) : o = .overflow := by
  rcases advanceBlock_cases p s with ⟨_, ha⟩ | ⟨_, _, ha⟩ | ⟨_, _, ha⟩ <;> rw [ha] at h <;> cases h
  rfl

/-- A loop ends by a completion, from a state that differs in the Counter and the data space alone. -/
theorem runLoop_frame (head : State → Cursors → Head) (n : Nat) (c : Cursors) (s : State) :
    ∃ o result phys u, runLoop head n c s = complete o result phys u ∧ counterAndMemoryOnly s u := by
  obtain ⟨m, u, d, hj, h0, h1⟩ := runLoop_exit head (fun _ u _ => counterAndMemoryOnly s u)
    (fun _ u _ p t hu _ ha => counterAndMemoryOnly_trans _ _ _
      (counterAndMemoryOnly_trans _ _ _ hu (performPlan_frame p u)) (advanceBlock_frame _ _ _ ha)) n c s
    (counterAndMemoryOnly_refl s)
  by_cases hm : m = 0
  · exact ⟨_, _, _, u, h0 hm, hj⟩
  · rcases h1 hm with ⟨o, phys, _, h⟩ | ⟨p, o, _, _, h⟩
    · exact ⟨_, _, _, u, h, hj⟩
    · exact ⟨_, _, _, _, h, counterAndMemoryOnly_trans _ _ _ hj (performPlan_frame p u)⟩

/-- A loop whose iterations leave the Counter alone ends from a state that differs in the data space alone
(40_counter.md R128, for ENC_BATCH). -/
theorem runLoop_frame_of_no_advance (head : State → Cursors → Head) (ha : ∀ u d p, head u d = .go p → p.advance = false)
    (n : Nat) (c : Cursors) (s : State) :
    ∃ o result phys u, runLoop head n c s = complete o result phys u ∧ u = { s with mem := u.mem } := by
  have keep : ∀ u d p, u = { s with mem := u.mem } → head u d = .go p → advanceBlock p (performPlan p u) =
      .ok (performPlan p u) := by
    intro u d p _ hp
    simp [advanceBlock, ha u d p hp]
  obtain ⟨m, u, d, hj, h0, h1⟩ := runLoop_exit head (fun _ u _ => u = { s with mem := u.mem })
    (fun _ u d p t hu hp hok => by
      rw [keep u d p hu hp] at hok
      cases hok
      rw [performPlan, hu]) n c s rfl
  by_cases hm : m = 0
  · exact ⟨_, _, _, u, h0 hm, hj⟩
  · rcases h1 hm with ⟨o, phys, _, h⟩ | ⟨p, o, hp, he, h⟩
    · exact ⟨_, _, _, u, h, hj⟩
    · rw [keep u d p hj hp] at he
      cases he

theorem runLoopCommand_frame (start : State → Except Completion Cursors) (head : State → Cursors → Head) (s : State) :
    ∃ o result phys u, runLoopCommand start head s = complete o result phys u ∧ counterAndMemoryOnly s u := by
  rw [runLoopCommand]
  split
  · exact ⟨_, _, _, s, rfl, counterAndMemoryOnly_refl s⟩
  · exact runLoop_frame _ _ _ _

/-- ENC_BATCH never advances the Counter (40_counter.md R128). -/
theorem encBatchHead_advance (s : State) (c : Cursors) (p : Plan) (h : encBatchHead s c = .go p) : p.advance = false := by
  unfold encBatchHead at h
  split at h
  · cases h
  · split at h
    · cases h
    · cases h
      rfl

theorem encBatch_frame (s : State) :
    ∃ o result phys u, runLoopCommand encBatchStart encBatchHead s = complete o result phys u ∧
      u = { s with mem := u.mem } := by
  rw [runLoopCommand]
  split
  · exact ⟨_, _, _, s, rfl, rfl⟩
  · exact runLoop_frame_of_no_advance _ (fun u d p => encBatchHead_advance u d p) _ _ _

/-- Every command's effect is a completion: the fields a command can change before it (10_state.md R41). -/
theorem commandBody_completes (i : Instr) (s : State) :
    ∃ o result phys u, commandBody i s = complete o result phys u ∧
      u = { s with
            rkValid := u.rkValid, backend := u.backend, key := u.key, rk := u.rk, ctr := u.ctr, dout := u.dout
            mem := u.mem } ∧ u.ctr[0] = s.ctr[0] ∧ u.ctr[1] = s.ctr[1] := by
  cases i with
  | selectBackend arg =>
    simp only [commandBody, selectBackendBody]
    split
    · exact ⟨_, _, _, s, rfl, rfl, rfl, rfl⟩
    · split
      · exact ⟨_, _, _, _, rfl, rfl, rfl, rfl⟩
      · exact ⟨_, _, _, s, rfl, rfl, rfl, rfl⟩
  | keyExpand => exact ⟨_, _, _, _, rfl, rfl, rfl, rfl⟩
  | encBlock =>
    simp only [commandBody, encBlockBody]
    split
    · exact ⟨_, _, _, _, rfl, rfl, rfl, rfl⟩
    · exact ⟨_, _, _, s, rfl, rfl, rfl, rfl⟩
  | encBatch =>
    obtain ⟨o, r, p, u, h, hu⟩ := encBatch_frame s
    exact ⟨o, r, p, u, h, by rw [hu], by rw [hu], by rw [hu]⟩
  | ctrInc =>
    simp only [commandBody, ctrIncBody]
    split
    · exact ⟨_, _, _, _, rfl, rfl, rfl, rfl⟩
    · exact ⟨_, _, _, s, rfl, rfl, rfl, rfl⟩
  | streamEnc =>
    obtain ⟨o, r, p, u, h, hu, h0, h1⟩ := runLoopCommand_frame streamStart streamEncHead s
    exact ⟨o, r, p, u, h, by rw [hu], h0, h1⟩
  | streamDec =>
    obtain ⟨o, r, p, u, h, hu, h0, h1⟩ := runLoopCommand_frame streamStart streamDecHead s
    exact ⟨o, r, p, u, h, by rw [hu], h0, h1⟩

end Sys2Proof.Machine
end

