-- ==== Sys2Proof/Laws/Step.lean ====
section
/-! SUPPORT. What one step of the machine can do: the cases of `engineStep`, and the frame of each
(spec/10_state.md R41, spec/70_reset_and_hazards.md R283). -/

namespace Sys2Proof.Machine

/-- `t` is `s` but for the sequencer, the outcome fields, the Counter and the data space, and the Nonce is the same. -/
def loopFrame (s t : State) : Prop :=
  t = { s with
        seq := t.seq, done := t.done, err := t.err, cause := t.cause, result := t.result, physPos := t.physPos
        ctr := t.ctr, mem := t.mem } ∧ t.ctr[0] = s.ctr[0] ∧ t.ctr[1] = s.ctr[1]

theorem loopFrame_complete (o : Completion) (result phys : Nat) (s u : State) (h : loopFrame s u) :
    loopFrame s (complete o result phys u) := by
  obtain ⟨h, h0, h1⟩ := h
  refine ⟨?_, h0, h1⟩
  rw [complete, h]

theorem loopFrame_enterStage (r : Running) (l : Loop) (stage : Stage) (s u : State) (h : loopFrame s u) :
    loopFrame s (enterStage r l stage u) := by
  obtain ⟨h, h0, h1⟩ := h
  refine ⟨?_, h0, h1⟩
  rw [enterStage, h]

theorem loopFrame_refl (s : State) : loopFrame s s := ⟨rfl, rfl, rfl⟩

theorem endIteration_frame (r : Running) (l : Loop) (p : Plan) (written : List Host.Cell) (s : State) :
    loopFrame s (endIteration r l p written s) := by
  rw [endIteration]
  have hs : loopFrame s { s with seq := .busy { r with pending := r.pending ++ written } } := ⟨rfl, rfl, rfl⟩
  split
  · exact loopFrame_complete _ _ _ _ _ hs
  · rename_i t ht
    obtain ⟨hu, h0, h1⟩ := advanceBlock_frame _ _ _ ht
    exact loopFrame_enterStage _ _ _ _ _ ⟨by rw [hu], h0, h1⟩

/-- A micro-step of a loop command, and its first one, change only the Counter, the data space, the sequencer and, at
completion, the outcome. -/
theorem loopStep_frame (r : Running) (l : Loop) (stage : Stage) (s : State) : loopFrame s (loopStep r l stage s) := by
  unfold loopStep
  split
  · split
    · exact loopFrame_complete _ _ _ _ _ (loopFrame_refl s)
    · exact loopFrame_enterStage _ _ _ _ _ (loopFrame_refl s)
  · exact loopFrame_enterStage _ _ _ _ _ (loopFrame_refl s)
  · exact loopFrame_enterStage _ _ _ _ _ (loopFrame_refl s)
  · exact loopFrame_enterStage _ _ _ _ _ (loopFrame_refl s)
  · exact endIteration_frame _ _ _ _ _

theorem beginLoop_frame (r : Running) (l : Loop) (s : State) : loopFrame s (beginLoop r l s) := by
  rw [beginLoop]
  split
  · exact loopFrame_complete _ _ _ _ _ (loopFrame_refl s)
  · exact loopFrame_enterStage _ _ _ _ _ (loopFrame_refl s)

/-- The first micro-step of an accepted command: an illegal word completes, a loop command makes its argument checks, and
every other command runs whole (70_reset_and_hazards.md R283). -/
theorem beginCommand_cases (r : Running) (s : State) :
    (∃ e, decode r.word = .error e ∧ beginCommand r s = complete .illegalCommand 0 0 s) ∨
    (∃ l, decode r.word = .ok (loopInstr l) ∧ beginCommand r s = beginLoop r l s) ∨
    ∃ i, decode r.word = .ok i ∧ (∀ l, i ≠ loopInstr l) ∧ beginCommand r s = commandBody i s := by
  cases h : decode r.word with
  | error e => exact .inl ⟨e, rfl, by simp [beginCommand, h, illegalCommand]⟩
  | ok i =>
    cases i with
    | encBatch => exact .inr (.inl ⟨.batch, rfl, by simp [beginCommand, h]⟩)
    | streamEnc => exact .inr (.inl ⟨.enc, rfl, by simp [beginCommand, h]⟩)
    | streamDec => exact .inr (.inl ⟨.dec, rfl, by simp [beginCommand, h]⟩)
    | selectBackend arg =>
      exact .inr (.inr ⟨_, rfl, fun l => by cases l <;> simp [loopInstr], by simp [beginCommand, h, commandBody]⟩)
    | keyExpand =>
      exact .inr (.inr ⟨_, rfl, fun l => by cases l <;> simp [loopInstr], by simp [beginCommand, h, commandBody]⟩)
    | encBlock =>
      exact .inr (.inr ⟨_, rfl, fun l => by cases l <;> simp [loopInstr], by simp [beginCommand, h, commandBody]⟩)
    | ctrInc =>
      exact .inr (.inr ⟨_, rfl, fun l => by cases l <;> simp [loopInstr], by simp [beginCommand, h, commandBody]⟩)

/-- All an engine micro-step can do: nothing while IDLE (60_exceptions.md R257); begin an accepted command; or one
micro-step of a loop. -/
theorem engineStep_cases (s : State) :
    (s.seq = .idle ∧ engineStep s = s) ∨
    (∃ r, s.seq = .busy r ∧ r.phase = .accepted ∧ engineStep s = beginCommand r s) ∨
    ∃ r l stage, s.seq = .busy r ∧ r.phase = .looping l stage ∧ engineStep s = loopStep r l stage s := by
  cases h : s.seq with
  | idle => exact .inl ⟨rfl, by simp [engineStep, h]⟩
  | busy r =>
    cases hp : r.phase with
    | accepted => exact .inr (.inl ⟨r, rfl, hp, by simp [engineStep, h, hp]⟩)
    | looping l stage => exact .inr (.inr ⟨r, l, stage, rfl, hp, by simp [engineStep, h, hp]⟩)

/-- All a move can do when it does not stop the machine. -/
theorem perform_next_cases (m : Move) (s t : State) (h : perform m s = .next t) :
    (m = .engine ∧ t = engineStep s) ∨
    (∃ w i, m = .command w ∧ decode w = .ok i ∧ t = runCommand (encode i) (commandBody i) s) ∨
    (∃ w e, m = .command w ∧ decode w = .error e ∧ t = runCommand w illegalCommand s) ∨
    (∃ offset v, m = .writeReg offset .word v ∧ offset.toNat % 4 = 0 ∧ t = writeWindow offset v s) ∨
    (∃ offset, m = .readReg offset .word ∧ offset.toNat % 4 = 0 ∧ t = readWindow offset s) ∨
    (∃ a v hostWins, m = .store a v hostWins ∧ inWindow s.platform a.toNat = false ∧
      t = storeByte a.toNat v hostWins s) ∨
    (∃ a engineValue, m = .load a engineValue ∧ inWindow s.platform a.toNat = false ∧
      t = loadByte a.toNat engineValue s) ∨
    ∃ landed, m = .reset landed ∧ t = resetEngine landed s := by
  cases m with
  | engine => cases h; exact .inl ⟨rfl, rfl⟩
  | command w =>
    simp only [perform, runWord] at h
    split at h
    · rename_i i hi
      rw [exec_eq] at h
      cases h
      exact .inr (.inl ⟨w, i, rfl, hi, rfl⟩)
    · rename_i e he
      cases h
      exact .inr (.inr (.inl ⟨w, e, rfl, he, rfl⟩))
  | writeReg offset size v =>
    simp only [perform] at h
    split at h
    · rename_i hr
      obtain ⟨rfl, ha⟩ := (regularAccess_iff _ _).mp hr
      cases h
      exact .inr (.inr (.inr (.inl ⟨offset, v, rfl, ha, rfl⟩)))
    · cases h
  | readReg offset size =>
    simp only [perform] at h
    split at h
    · rename_i hr
      obtain ⟨rfl, ha⟩ := (regularAccess_iff _ _).mp hr
      cases h
      exact .inr (.inr (.inr (.inr (.inl ⟨offset, rfl, ha, rfl⟩))))
    · cases h
  | store a v hostWins =>
    simp only [perform] at h
    split at h
    · cases h
    · rename_i hw
      cases h
      exact .inr (.inr (.inr (.inr (.inr (.inl ⟨a, v, hostWins, rfl, by simpa using hw, rfl⟩)))))
  | load a engineValue =>
    simp only [perform] at h
    split at h
    · cases h
    · rename_i hw
      cases h
      exact .inr (.inr (.inr (.inr (.inr (.inr (.inl ⟨a, engineValue, rfl, by simpa using hw, rfl⟩))))))
  | reset landed =>
    cases h
    exact .inr (.inr (.inr (.inr (.inr (.inr (.inr ⟨landed, rfl, rfl⟩))))))

/-- A step is the engine's micro-step when nothing is scheduled, and the oldest move otherwise (log entries 1, 14). -/
theorem step_next_cases (s t : State) (h : step s = .next t) :
    (s.schedule = [] ∧ t = engineStep s) ∨
    ∃ m rest, s.schedule = m :: rest ∧ perform m { s with schedule := rest } = .next t := by
  cases hs : s.schedule with
  | nil =>
    rw [step_nil _ hs] at h
    cases h
    exact .inl ⟨rfl, rfl⟩
  | cons m rest => exact .inr ⟨m, rest, rfl, (step_cons _ _ _ hs).symm.trans h⟩

/-- A host read changes nothing but the reported values and the count of free draws (20_memory.md R72). -/
theorem readWindow_frame (offset : BitVec 8) (s : State) :
    readWindow offset s =
      { s with reported := (readWindow offset s).reported, draws := (readWindow offset s).draws } := by
  simp only [readWindow, readRegister]
  split
  · rfl
  · split <;> rfl

end Sys2Proof.Machine
end

