-- ==== Sys2Proof/Laws/Head.lean ====
section
/-! SUPPORT. What the loop heads decide: the cases of each, and that an iteration that goes ahead writes admitted bytes
only (spec/20_memory.md R66, spec/42_block_cipher.md R179, spec/43_stream_transform.md R195, R200). -/

namespace Sys2Proof.Machine

theorem mem_addressRun (base len a : Nat) : a ∈ addressRun base len ↔ base ≤ a ∧ a < base + len := by
  simp only [addressRun, List.mem_map, List.mem_range]
  constructor
  · rintro ⟨k, hk, rfl⟩; omega
  · intro h; exact ⟨a - base, by omega, by omega⟩

theorem length_addressRun (base len : Nat) : (addressRun base len).length = len := by simp [addressRun]

/-- The addresses of an XOR with the source are those of the keystream cells. -/
theorem map_fst_xorSource (cs : List Host.Cell) (vs : List Byte) (h : vs.length ≤ cs.length) :
    (xorSource cs vs).map Prod.fst = cs.map Prod.fst := by
  induction cs generalizing vs with
  | nil =>
    cases vs with
    | nil => rfl
    | cons v vs => simp at h
  | cons c cs ih =>
    cases vs with
    | nil => rfl
    | cons v vs =>
      simp only [xorSource, List.map_cons, List.cons.injEq, true_and]
      exact ih vs (by simpa using h)

theorem xorSource_fst_mem (cs : List Host.Cell) (vs : List Byte) (d : Host.Cell) (h : d ∈ xorSource cs vs) :
    ∃ c ∈ cs, c.1 = d.1 := by
  induction cs generalizing vs with
  | nil => cases vs <;> simp [xorSource] at h
  | cons c cs ih =>
    cases vs with
    | nil => exact ⟨d, h, rfl⟩
    | cons v vs =>
      rcases List.mem_cons.mp h with rfl | h
      · exact ⟨c, by simp, rfl⟩
      · obtain ⟨e, he, hed⟩ := ih vs h
        exact ⟨e, by simp [he], hed⟩

theorem cellsAdmitted_xorSource (p : Platform) (cs : List Host.Cell) (vs : List Byte) (h : cellsAdmitted p cs) :
    cellsAdmitted p (xorSource cs vs) := by
  intro d hd
  obtain ⟨c, hc, hcd⟩ := xorSource_fst_mem cs vs d hd
  exact hcd ▸ h c hc

theorem cellsAdmitted_append (p : Platform) (cs ds : List Host.Cell) (h : cellsAdmitted p cs) (h' : cellsAdmitted p ds) :
    cellsAdmitted p (cs ++ ds) := by
  intro c hc
  rcases List.mem_append.mp hc with hc | hc
  · exact h c hc
  · exact h' c hc

theorem cellsAdmitted_zip (p : Platform) (as : List Nat) (bs : List Byte)
    (h : ¬ (as.any fun a => !admits p a .write) = true) : cellsAdmitted p (as.zip bs) := by
  intro c hc
  have hmem := (List.of_mem_zip hc).1
  by_contra hno
  exact h (List.any_eq_true.mpr ⟨c.1, hmem, by simpa using hno⟩)

/-- All `streamIteration` can decide, in the order of 20_memory.md R66. -/
theorem streamIteration_cases (s : State) (c : Cursors) (pos len source destination : Nat) :
    ((∃ a, source ≤ a ∧ a < source + len ∧ admits s.platform a .read = false) ∧
      streamIteration s c pos len source destination = .done (.busError .read) pos) ∨
    ((∀ a, source ≤ a → a < source + len → admits s.platform a .read = true) ∧
      (∃ a, destination ≤ a ∧ a < destination + len ∧ admits s.platform a .write = false) ∧
      streamIteration s c pos len source destination = .done (.busError .write) pos) ∨
    ((∀ a, source ≤ a → a < source + len → admits s.platform a .read = true) ∧
      (∀ a, destination ≤ a → a < destination + len → admits s.platform a .write = true) ∧
      streamIteration s c pos len source destination = .go
        { reads := addressRun source len
          writes := (addressRun destination len).zip (((blockBytes (streamBlock s)).drop c.bo).take len)
          next := { bo := 0, first := false, written := c.written + len, pos := pos + len }
          advance := decide (c.bo + len = 16) }) := by
  have hany : ∀ base kind, ((addressRun base len).any fun a => !admits s.platform a kind) = true ↔
      ∃ a, base ≤ a ∧ a < base + len ∧ admits s.platform a kind = false := by
    intro base kind
    simp only [List.any_eq_true, mem_addressRun, Bool.not_eq_true', and_assoc]
  have hall : ∀ base kind, ¬ ((addressRun base len).any fun a => !admits s.platform a kind) = true →
      ∀ a, base ≤ a → a < base + len → admits s.platform a kind = true := by
    intro base kind h a h1 h2
    rw [hany] at h
    by_contra hno
    exact h ⟨a, h1, h2, by simpa using hno⟩
  by_cases hr : ((addressRun source len).any fun a => !admits s.platform a .read) = true
  · exact .inl ⟨(hany _ _).mp hr, by rw [streamIteration, if_pos hr]⟩
  · by_cases hw : ((addressRun destination len).any fun a => !admits s.platform a .write) = true
    · exact .inr (.inl ⟨hall _ _ hr, (hany _ _).mp hw, by rw [streamIteration, if_neg hr, if_pos hw]⟩)
    · exact .inr (.inr ⟨hall _ _ hr, hall _ _ hw, by rw [streamIteration, if_neg hr, if_neg hw]⟩)

/-- A plan whose destination cells are admitted and whose next cursor lies in a block. -/
def planConsistent (p : Platform) (pl : Plan) : Prop := pl.next.bo < 16 ∧ cellsAdmitted p pl.writes

theorem streamIteration_consistent (s : State) (c : Cursors) (pos len source destination : Nat) (pl : Plan)
    (h : streamIteration s c pos len source destination = .go pl) : planConsistent s.platform pl := by
  unfold streamIteration at h
  split at h
  · cases h
  · split at h
    · cases h
    · rename_i hw
      cases h
      exact ⟨by show (0 : Nat) < 16; omega, cellsAdmitted_zip _ _ _ hw⟩

/-- An iteration that goes ahead writes admitted bytes only (20_memory.md R66). -/
theorem loopHead_consistent (l : Loop) (s : State) (c : Cursors) (pl : Plan) (h : loopHead l s c = .go pl) :
    planConsistent s.platform pl := by
  cases l with
  | batch =>
    simp only [loopHead, encBatchHead] at h
    split at h
    · cases h
    · split at h
      · cases h
      · rename_i hw
        cases h
        exact ⟨by show (0 : Nat) < 16; omega, cellsAdmitted_zip _ _ _ hw⟩
  | enc =>
    simp only [loopHead, streamEncHead] at h
    split at h
    · cases h
    · exact streamIteration_consistent _ _ _ _ _ _ _ h
  | dec =>
    simp only [loopHead, streamDecHead] at h
    split at h
    · cases h
    · split at h
      · cases h
      · exact streamIteration_consistent _ _ _ _ _ _ _ h

/-- A loop command that starts has a valid expanded key and its cursor inside a block (42_block_cipher.md R179,
43_stream_transform.md R191). -/
theorem loopStart_ok (l : Loop) (s : State) (c : Cursors) (h : loopStart l s = .ok c) :
    s.rkValid = true ∧ c.bo < 16 ∧ c.written = 0 ∧ c.pos = 0 := by
  have batch : ∀ c, encBatchStart s = .ok c → s.rkValid = true ∧ c.bo < 16 ∧ c.written = 0 ∧ c.pos = 0 := by
    intro c h
    unfold encBatchStart at h
    split at h
    · cases h
    · rename_i hv
      split at h
      · cases h
      · cases h
        exact ⟨by simpa using hv, by show (0 : Nat) < 16; omega, rfl, rfl⟩
  have stream : ∀ c, streamStart s = .ok c → s.rkValid = true ∧ c.bo < 16 ∧ c.written = 0 ∧ c.pos = 0 := by
    intro c h
    unfold streamStart at h
    split at h
    · cases h
    · rename_i hv
      split at h
      · cases h
      · rename_i hb
        split at h
        · cases h
        · split at h
          · cases h
          · split at h
            · cases h
            · cases h
              exact ⟨by simpa using hv, by show s.blkOff.toNat < 16; omega, rfl, rfl⟩
  cases l with
  | batch => exact batch c h
  | enc => exact stream c h
  | dec => exact stream c h

end Sys2Proof.Machine
end

