-- ==== Sys2Proof/Laws/Layout.lean ====
section
/-! SUPPORT. The physical layout of a stream command in closed form, and the cursor of an iteration in it
(spec/43_stream_transform.md R197, R201, R202, R207). -/

namespace Sys2Proof.Machine

/-- The layout of a state whose geometry passes the argument checks. -/
structure Geometry (s : State) : Prop where
  /-- BLK_OFF lies in a cipher block. -/
  blkOff_lt : s.blkOff.toNat < 16
  /-- Chunks are whole cipher blocks. -/
  chunk_mod : chunkBytes s % 16 = 0
  /-- The first byte lies in the first chunk. -/
  skip_lt : 0 < chunkBytes s → chunkSkip s < chunkBytes s
  /-- The first byte stands at BLK_OFF of its cipher block. -/
  skip_mod : 0 < chunkBytes s → chunkSkip s % 16 = s.blkOff.toNat

theorem geometry_of_passesChecks (s : State) (h : passesChecks s) : Geometry s := by
  obtain ⟨_, hb, hm, hc⟩ := h
  refine ⟨hb, hm, fun h => ?_, fun h => ?_⟩
  · rw [chunkSkip_of_chunks s h]; exact (hc h).1
  · rw [chunkSkip_of_chunks s h]; exact (hc h).2

/-- With no chunks the layout is the logical one (43_stream_transform.md R192, R207). -/
theorem physOffset_of_no_chunks (s : State) (w : Nat) (h : chunkBytes s = 0) : physOffset s w = w := by
  simp [physOffset, h]

/-- Inside a chunk the next logical byte is the next physical one; at a chunk boundary a tag slot lies between them
(43_stream_transform.md R207). -/
theorem physOffset_next (s : State) (w : Nat) (h : 0 < chunkBytes s) :
    physOffset s (w + 1) =
      if (chunkSkip s + w + 1) % chunkBytes s = 0 then physOffset s w + 1 + tagBytes s else physOffset s w + 1 := by
  simp only [physOffset, show chunkBytes s ≠ 0 by omega, if_false, ← Nat.add_assoc]
  generalize chunkBytes s = C at h
  generalize chunkSkip s + w = q
  generalize tagBytes s = T
  split
  · rename_i hm
    obtain ⟨k, hk⟩ := Nat.dvd_of_mod_eq_zero hm
    have hk0 : 0 < k := by
      rcases Nat.eq_zero_or_pos k with rfl | hk0
      · omega
      · exact hk0
    obtain ⟨j, rfl⟩ : ∃ j, k = j + 1 := ⟨k - 1, by omega⟩
    have hq : q = C * j + (C - 1) := by rw [Nat.mul_add] at hk; omega
    have hdiv : q / C = j := by rw [hq, Nat.mul_add_div h, Nat.div_eq_of_lt (by omega)]; rfl
    have hmod : q % C = C - 1 := by rw [hq, Nat.mul_add_mod, Nat.mod_eq_of_lt (by omega)]
    rw [hdiv, hmod, hm, hk, Nat.mul_div_cancel_left _ h, Nat.add_mul]
    omega
  · rename_i hm
    have hlt := Nat.mod_lt q h
    have hd := Nat.div_add_mod q C
    have hne : q % C + 1 < C := by
      rcases Nat.lt_or_ge (q % C + 1) C with hlt' | hge
      · exact hlt'
      · exfalso
        apply hm
        have hq : q + 1 = C * (q / C + 1) := by rw [Nat.mul_add]; omega
        rw [hq, Nat.mul_mod_right]
    have hq1 : q + 1 = C * (q / C) + (q % C + 1) := by omega
    have hdiv : (q + 1) / C = q / C := by
      conv_lhs => rw [hq1, Nat.mul_add_div h, Nat.div_eq_of_lt hne]
      rfl
    have hmod : (q + 1) % C = q % C + 1 := by
      conv_lhs => rw [hq1, Nat.mul_add_mod, Nat.mod_eq_of_lt hne]
    rw [hdiv, hmod]
    omega

theorem physOffset_lt_next (s : State) (w : Nat) : physOffset s w < physOffset s (w + 1) := by
  rcases Nat.eq_zero_or_pos (chunkBytes s) with h | h
  · rw [physOffset_of_no_chunks s _ h, physOffset_of_no_chunks s _ h]; omega
  · rw [physOffset_next s w h]; split <;> omega

/-- Logical order is physical order. -/
theorem physOffset_lt (s : State) (w v : Nat) (h : w < v) : physOffset s w < physOffset s v := by
  induction v with
  | zero => omega
  | succ v ih =>
    have := physOffset_lt_next s v
    rcases Nat.lt_or_ge w v with hlt | hge
    · exact (ih hlt).trans this
    · rw [show w = v by omega]; exact this

theorem lt_of_physOffset_lt (s : State) (w v : Nat) (h : physOffset s w < physOffset s v) : w < v := by
  by_contra hno
  rcases Nat.lt_or_ge v w with hlt | hge
  · have := physOffset_lt s v w hlt; omega
  · rw [show w = v by omega] at h; omega

theorem physOffset_inj (s : State) (w v : Nat) (h : physOffset s w = physOffset s v) : w = v := by
  rcases Nat.lt_trichotomy w v with hlt | heq | hlt
  · have := physOffset_lt s w v hlt; omega
  · exact heq
  · have := physOffset_lt s v w hlt; omega

/-- The bytes of one cipher block are consecutive (43_stream_transform.md R207). -/
theorem physOffset_add (s : State) (hg : Geometry s) (w k : Nat) (h : (s.blkOff.toNat + w) % 16 + k < 16) :
    physOffset s (w + k) = physOffset s w + k := by
  induction k with
  | zero => rfl
  | succ k ih =>
    rw [← Nat.add_assoc]
    rcases Nat.eq_zero_or_pos (chunkBytes s) with hc | hc
    · rw [physOffset_of_no_chunks s _ hc, physOffset_of_no_chunks s _ hc]; omega
    · rw [physOffset_next s _ hc, ih (by omega), if_neg, Nat.add_assoc]
      intro hm
      have h16 : (chunkSkip s + (w + k) + 1) % 16 = 0 := by
        obtain ⟨j, hj⟩ := Nat.dvd_of_mod_eq_zero hm
        obtain ⟨i, hi⟩ := Nat.dvd_of_mod_eq_zero hg.chunk_mod
        rw [hj, hi, Nat.mul_assoc, Nat.mul_mod_right]
      have := hg.skip_mod hc
      omega

/-- The tag skip and the first-iteration skip bring the cursor from just past the last byte to the next byte's place
(43_stream_transform.md R197, R201, R202). -/
theorem iterationPos_eq (s : State) (hg : Geometry s) (c : Cursors) (w : Nat) (hp : c.pos = physLength s w)
    (hf : c.first = decide (w = 0)) : iterationPos s c = physOffset s w := by
  rcases Nat.eq_zero_or_pos (chunkBytes s) with hc | hc
  · simp only [iterationPos, hp, hc, chunkSkip_of_no_chunks s hc, physLength, physOffset_of_no_chunks s _ hc, hf]
    rcases Nat.eq_zero_or_pos w with rfl | hw
    · simp
    · simp [show w ≠ 0 by omega]; omega
  · have hC : 0 < chunkBytes s + tagBytes s := by omega
    rcases Nat.eq_zero_or_pos w with rfl | hw
    · simp only [iterationPos, hp, hc, physLength, hf]
      simp only [if_true, Nat.zero_mod, and_self, decide_true]
      have := hg.skip_lt hc
      rw [physOffset, if_neg (by omega), Nat.add_zero, Nat.div_eq_of_lt this, Nat.mod_eq_of_lt this]
      omega
    · obtain ⟨v, rfl⟩ : ∃ v, w = v + 1 := ⟨w - 1, by omega⟩
      have hpos : c.pos = physOffset s v + 1 := by rw [hp]; simp [physLength]
      have hfirst : c.first = false := by rw [hf]; simp
      simp only [iterationPos, hpos, hfirst, hc, true_and, Bool.false_eq_true, if_false]
      rw [physOffset_next s v hc]
      have key : (physOffset s v + 1) % (chunkBytes s + tagBytes s) = 0 ↔ (chunkSkip s + v + 1) % chunkBytes s = 0 := by
        rw [physOffset, if_neg (by omega)]
        have hlt := Nat.mod_lt (chunkSkip s + v) hc
        have hd := Nat.div_add_mod (chunkSkip s + v) (chunkBytes s)
        generalize chunkSkip s + v = q at *
        generalize chunkBytes s = C at *
        generalize tagBytes s = T at *
        rw [show q / C * (C + T) + T + q % C + 1 = (C + T) * (q / C) + (T + q % C + 1) by
          rw [Nat.mul_comm]; omega, Nat.mul_add_mod]
        rw [show q + 1 = C * (q / C) + (q % C + 1) by omega, Nat.mul_add_mod]
        rcases Nat.lt_or_ge (q % C + 1) C with h1 | h1
        · rw [Nat.mod_eq_of_lt h1, Nat.mod_eq_of_lt (by omega)]; omega
        · rw [show q % C + 1 = C by omega, show T + q % C + 1 = C + T by omega, Nat.mod_self, Nat.mod_self]
      by_cases hm : (chunkSkip s + v + 1) % chunkBytes s = 0
      · rw [if_pos (key.mpr hm), if_pos hm]
      · rw [if_neg (fun h => hm (key.mp h)), if_neg hm]

end Sys2Proof.Machine
end

