-- ==== Sys2Proof/Laws/Stream.lean ====
section
/-! SUPPORT. What a stream command whose argument checks pass can do, said once (`streamCommand_cases`): the bytes it has
moved when it ends, the Counter, and the outcome (spec/43_stream_transform.md R194 to R207, spec/20_memory.md R65,
R66). -/

namespace Sys2Proof.Machine

/-! ### One iteration's bytes -/

theorem xorSource_eq_zipWith (cs : List Host.Cell) (vs : List Byte) (h : vs.length = cs.length) :
    xorSource cs vs = List.zipWith (fun c v => (c.1, v ^^^ c.2)) cs vs := by
  induction cs generalizing vs with
  | nil =>
    cases vs with
    | nil => rfl
    | cons v vs => simp at h
  | cons c cs ih =>
    cases vs with
    | nil => simp at h
    | cons v vs =>
      simp only [xorSource, List.zipWith_cons_cons, List.cons.injEq, true_and]
      exact ih vs (by simpa using h)

/-- The destination cells of an iteration: byte `k` of the source XORed with byte `bo + k` of the keystream block
(43_stream_transform.md R194, R195). -/
theorem iteration_cells (b : Block) (bo len source destination : Nat) (f : Nat → Byte) (h : bo + len ≤ 16) :
    xorSource ((addressRun destination len).zip (((blockBytes b).drop bo).take len)) ((addressRun source len).map f) =
      (List.range len).map fun k => (destination + k, f (source + k) ^^^ blockByte b (bo + k)) := by
  have hlen : (((blockBytes b).drop bo).take len).length = len := by simp [blockBytes_length]; omega
  have hzip : ((addressRun destination len).zip (((blockBytes b).drop bo).take len)).length = len := by
    rw [List.length_zip, hlen, length_addressRun, Nat.min_self]
  rw [xorSource_eq_zipWith _ _ (by rw [hzip, List.length_map, length_addressRun])]
  apply List.ext_getElem
  · rw [List.length_zipWith, hzip, List.length_map, length_addressRun, List.length_map, List.length_range, Nat.min_self]
  · intro k h1 h2
    simp [addressRun, blockBytes]

/-- Reading the data space after an iteration: its own bytes hold the values written, every other byte its old value. -/
theorem read_writeAll_run (m : Memory) (destination len : Nat) (g : Nat → Byte) :
    (∀ k < len, (m.writeAll ((List.range len).map fun k => (destination + k, g k))).read (destination + k) = g k) ∧
    ∀ a, (∀ k < len, a ≠ destination + k) →
      (m.writeAll ((List.range len).map fun k => (destination + k, g k))).read a = m.read a := by
  constructor
  · intro k hk
    refine Memory.read_writeAll_mem m _ (destination + k, g k) (List.mem_map.mpr ⟨k, List.mem_range.mpr hk, rfl⟩) ?_
    rw [List.map_map]
    refine List.Nodup.map ?_ List.nodup_range
    intro x y hxy
    simpa using hxy
  · intro a ha
    apply Memory.read_writeAll_other
    intro c hc hca
    obtain ⟨k, hk, rfl⟩ := List.mem_map.mp hc
    exact ha k (List.mem_range.mp hk) hca.symm

/-! ### Source, destination and length of an iteration -/

/-- Where a stream command reads logical byte `w`. -/
def streamSource (l : Loop) (s : State) (w : Nat) : Nat :=
  match l with
  | .enc => encSource s w
  | .dec => decSource s w
  | .batch => 0

/-- Where a stream command writes logical byte `w`. -/
def streamDestination (l : Loop) (s : State) (w : Nat) : Nat :=
  match l with
  | .enc => encDestination s w
  | .dec => decDestination s w
  | .batch => 0

/-- How many bytes an iteration at logical byte `w` takes: STREAM_DEC is also cut at AVAIL (43_stream_transform.md R196,
R203). -/
def streamLength (l : Loop) (s : State) (w : Nat) : Nat :=
  match l with
  | .enc => iterationLength s w
  | .dec => min (iterationLength s w) (s.avail.toNat - physOffset s w)
  | .batch => 0

/-- The state of a stream command that started in `s` after `w` logical bytes, with data space `m`. -/
def streamState (s : State) (w : Nat) (m : Memory) : State := { s with ctr := counterAfter s w, mem := m }

theorem streamBlock_streamState (s : State) (w : Nat) (m : Memory) :
    streamBlock (streamState s w m) =
      aes s.rk (counterBlock (nonce s) (BitVec.ofNat 64 (blockIndexAt s (s.blkOff.toNat + w)))) := by
  have h : blockIndex (streamState s w m) = BitVec.ofNat 64 (blockIndexAt s (s.blkOff.toNat + w)) :=
    blockIndex_setBlockIndex s _
  rw [streamBlock, h]
  rfl

theorem blockIndex_streamState (s : State) (w : Nat) (m : Memory) (h : blockIndexAt s (s.blkOff.toNat + w) < 2 ^ 64) :
    (blockIndex (streamState s w m)).toNat = blockIndexAt s (s.blkOff.toNat + w) := by
  have h' : blockIndex (streamState s w m) = BitVec.ofNat 64 (blockIndexAt s (s.blkOff.toNat + w)) :=
    blockIndex_setBlockIndex s _
  rw [h', BitVec.toNat_ofNat, Nat.mod_eq_of_lt h]

theorem streamSource_add (l : Loop) (s : State) (hg : Geometry s) (w k : Nat)
    (h : (s.blkOff.toNat + w) % 16 + k < 16) (hl : l ≠ .batch) :
    streamSource l s (w + k) = streamSource l s w + k := by
  cases l with
  | batch => exact absurd rfl hl
  | enc => simp only [streamSource, encSource]; omega
  | dec => simp only [streamSource, decSource]; rw [physOffset_add s hg w k h]; omega

theorem streamDestination_add (l : Loop) (s : State) (hg : Geometry s) (w k : Nat)
    (h : (s.blkOff.toNat + w) % 16 + k < 16) (hl : l ≠ .batch) :
    streamDestination l s (w + k) = streamDestination l s w + k := by
  cases l with
  | batch => exact absurd rfl hl
  | enc => simp only [streamDestination, encDestination]; rw [physOffset_add s hg w k h]; omega
  | dec => simp only [streamDestination, decDestination]; omega

theorem streamDestination_ne (l : Loop) (s : State) (w v : Nat) (h : w ≠ v) (hl : l ≠ .batch) :
    streamDestination l s w ≠ streamDestination l s v := by
  intro heq
  apply h
  cases l with
  | batch => exact absurd rfl hl
  | enc => exact physOffset_inj s w v (by simp only [streamDestination, encDestination] at heq; omega)
  | dec => simp only [streamDestination, decDestination] at heq; omega

/-! ### The head of the loop -/

/-- Where the cursors of a stream command stand after `w` logical bytes: at the start of an iteration, or, after an
iteration that was cut short, at a place where nothing is left to do (43_stream_transform.md R200, R203). -/
structure CursorsAt (l : Loop) (s : State) (c : Cursors) (w : Nat) : Prop where
  written : c.written = w
  pos : c.pos = physLength s w
  first : c.first = decide (w = 0)
  place : (c.bo = (s.blkOff.toNat + w) % 16 ∧ iterationStart s w) ∨
    (c.bo < 16 ∧ (w = s.count.toNat ∨ (l = .dec ∧ s.avail.toNat ≤ physOffset s w)))

/-- The plan of an iteration at logical byte `w` (43_stream_transform.md R194, R195, R200). -/
def streamPlan (l : Loop) (s : State) (w : Nat) (m : Memory) : Plan where
  reads := addressRun (streamSource l s w) (streamLength l s w)
  writes := (addressRun (streamDestination l s w) (streamLength l s w)).zip
    (((blockBytes (streamBlock (streamState s w m))).drop ((s.blkOff.toNat + w) % 16)).take (streamLength l s w))
  next :=
    { bo := 0, first := false, written := w + streamLength l s w, pos := physOffset s w + streamLength l s w }
  advance := decide ((s.blkOff.toNat + w) % 16 + streamLength l s w = 16)

/-- What an iteration at logical byte `w` decides: an unadmitted source address, then an unadmitted destination address,
or its plan (20_memory.md R66). -/
theorem streamIteration_at (l : Loop) (hl : l ≠ .batch) (s : State) (hg : Geometry s) (w : Nat) (m : Memory) (c : Cursors)
    (hw : c.written = w) (hbo : c.bo = (s.blkOff.toNat + w) % 16)
    (h16 : (s.blkOff.toNat + w) % 16 + streamLength l s w ≤ 16) (o : Head)
    (ho : o = streamIteration (streamState s w m) c (physOffset s w) (streamLength l s w) (streamSource l s w)
      (streamDestination l s w)) :
    ((∃ k < streamLength l s w, admits s.platform (streamSource l s (w + k)) .read = false) ∧
        o = .done (.busError .read) (physOffset s w)) ∨
      ((∀ k < streamLength l s w, admits s.platform (streamSource l s (w + k)) .read = true) ∧
        (∃ k < streamLength l s w, admits s.platform (streamDestination l s (w + k)) .write = false) ∧
        o = .done (.busError .write) (physOffset s w)) ∨
      ((∀ k < streamLength l s w, admits s.platform (streamSource l s (w + k)) .read = true) ∧
        (∀ k < streamLength l s w, admits s.platform (streamDestination l s (w + k)) .write = true) ∧
        o = .go (streamPlan l s w m)) := by
  have hs := fun k (hk : k < streamLength l s w) => streamSource_add l s hg w k (by omega) hl
  have hd := fun k (hk : k < streamLength l s w) => streamDestination_add l s hg w k (by omega) hl
  subst ho
  rcases streamIteration_cases (streamState s w m) c (physOffset s w) (streamLength l s w) (streamSource l s w)
      (streamDestination l s w) with ⟨⟨a, h1, h2, h3⟩, h⟩ | ⟨hr, ⟨a, h1, h2, h3⟩, h⟩ | ⟨hr, hw', h⟩
  · refine .inl ⟨⟨a - streamSource l s w, by omega, ?_⟩, h⟩
    rw [hs _ (by omega), Nat.add_sub_cancel' h1]
    exact h3
  · refine .inr (.inl ⟨fun k hk => ?_, ⟨a - streamDestination l s w, by omega, ?_⟩, h⟩)
    · rw [hs k hk]; exact hr _ (by omega) (by omega)
    · rw [hd _ (by omega), Nat.add_sub_cancel' h1]
      exact h3
  · refine .inr (.inr ⟨fun k hk => ?_, fun k hk => ?_, ?_⟩)
    · rw [hs k hk]; exact hr _ (by omega) (by omega)
    · rw [hd k hk]; exact hw' _ (by omega) (by omega)
    · rw [h, hw, hbo, streamPlan]

/-- All the head of a stream command's loop can decide: COUNT reached; for STREAM_DEC, the source exhausted; or an
iteration of at least one byte, within its cipher block (43_stream_transform.md R195, R196, R200, R203). -/
theorem streamHead_cases (l : Loop) (hl : l ≠ .batch) (s : State) (hg : Geometry s) (w : Nat) (m : Memory) (c : Cursors)
    (hc : CursorsAt l s c w) (hle : w ≤ s.count.toNat) :
    (w = s.count.toNat ∧ loopHead l (streamState s w m) c = .done .ok (physLength s w)) ∨
    (l = .dec ∧ w < s.count.toNat ∧ s.avail.toNat ≤ physOffset s w ∧
      loopHead l (streamState s w m) c = .done .shortRead (physOffset s w)) ∨
    (w < s.count.toNat ∧ iterationStart s w ∧ 0 < streamLength l s w ∧
      (s.blkOff.toNat + w) % 16 + streamLength l s w ≤ 16 ∧ c.bo = (s.blkOff.toNat + w) % 16 ∧
      loopHead l (streamState s w m) c =
        streamIteration (streamState s w m) c (physOffset s w) (streamLength l s w) (streamSource l s w)
          (streamDestination l s w)) := by
  have hpos : iterationPos (streamState s w m) c = physOffset s w := iterationPos_eq s hg c w hc.pos hc.first
  have hmod := Nat.mod_lt (s.blkOff.toNat + w) (show 0 < 16 by omega)
  by_cases hlt : w < s.count.toNat
  · have hnot : ¬ ¬ c.written < (streamState s w m).count.toNat := by
      rw [hc.written]
      exact not_not_intro hlt
    cases l with
    | batch => exact absurd rfl hl
    | enc =>
      rcases hc.place with ⟨hbo, hst⟩ | ⟨_, h | ⟨h, _⟩⟩
      · have hlen : streamLength .enc s w = min (16 - c.bo) (s.count.toNat - w) := by
          simp only [streamLength, iterationLength, hbo]
        refine .inr (.inr ⟨hlt, hst, by omega, by omega, hbo, ?_⟩)
        simp only [loopHead, streamEncHead]
        rw [if_neg hnot, hpos, hc.written, hlen]
        rfl
      · omega
      · cases h
    | dec =>
      by_cases ha : s.avail.toNat ≤ physOffset s w
      · refine .inr (.inl ⟨rfl, hlt, ha, ?_⟩)
        simp only [loopHead, streamDecHead]
        rw [if_neg hnot, hpos, if_pos]
        show min (min (s.count.toNat - c.written) (s.avail.toNat - physOffset s w)) (16 - c.bo) = 0
        omega
      · rcases hc.place with ⟨hbo, hst⟩ | ⟨_, h | ⟨_, h⟩⟩
        · have hlen : streamLength .dec s w =
              min (min (s.count.toNat - w) (s.avail.toNat - physOffset s w)) (16 - c.bo) := by
            simp only [streamLength, iterationLength, hbo]
            omega
          refine .inr (.inr ⟨hlt, hst, by omega, by omega, hbo, ?_⟩)
          simp only [loopHead, streamDecHead]
          rw [if_neg hnot, hpos, hc.written]
          rw [if_neg (by show ¬ min (min (s.count.toNat - w) (s.avail.toNat - physOffset s w)) (16 - c.bo) = 0; omega),
            hlen]
          rfl
        · omega
        · omega
  · refine .inl ⟨by omega, ?_⟩
    have hdone : ¬ c.written < (streamState s w m).count.toNat := by rw [hc.written]; exact hlt
    cases l with
    | batch => exact absurd rfl hl
    | enc => simp only [loopHead, streamEncHead]; rw [if_pos hdone, hc.pos]
    | dec => simp only [loopHead, streamDecHead]; rw [if_pos hdone, hc.pos]

/-! ### The bytes moved so far -/

/-- After `w` logical bytes of a stream command that started in `s`, the data space is `m`: the bytes were admitted and,
for STREAM_DEC, below AVAIL; each moved byte is its source byte XORed with its keystream byte, unless a byte was
overwritten before it was read; every other byte is as it was; and, whatever was overwritten, each iteration read its
source bytes in the data space the iterations before it left. -/
structure BytesMoved (l : Loop) (s : State) (m : Memory) (w : Nat) : Prop where
  le : w ≤ s.count.toNat
  admitted : bytesAdmitted s.platform (streamSource l s) (streamDestination l s) w
  available : l = .dec → ∀ v < w, physOffset s v < s.avail.toNat
  moved : noOverwrite (streamSource l s) (streamDestination l s) w → ∀ v < w,
    m.read (streamDestination l s v) = s.mem.read (streamSource l s v) ^^^ logicalKeystream s v
  kept : ∀ a, (∀ v < w, a ≠ streamDestination l s v) → m.read a = s.mem.read a
  ordered : ∃ trace : Nat → Memory, trace 0 = s.mem ∧ trace w = m ∧ ∀ n < w, iterationStart s n →
    iterationMoves s (streamSource l s) (streamDestination l s) n (streamLength l s n) (trace n)
      (trace (n + streamLength l s n))

theorem bytesTransformed_of_moved (l : Loop) (s : State) (m : Memory) (w : Nat) (h : BytesMoved l s m w)
    (hn : noOverwrite (streamSource l s) (streamDestination l s) w) :
    bytesTransformed s m (streamSource l s) (streamDestination l s) w :=
  ⟨h.moved hn, h.kept⟩

/-- One iteration moves its bytes (43_stream_transform.md R194, R195, R200). -/
theorem bytesMoved_iteration (l : Loop) (hl : l ≠ .batch) (s : State) (hg : Geometry s) (w len : Nat) (m : Memory)
    (h : BytesMoved l s m w) (hst : iterationStart s w) (hpos : 0 < len) (h16 : (s.blkOff.toNat + w) % 16 + len ≤ 16) (hlen : streamLength l s w = len)
    (hr : ∀ k < len, admits s.platform (streamSource l s (w + k)) .read = true)
    (hw : ∀ k < len, admits s.platform (streamDestination l s (w + k)) .write = true) :
    BytesMoved l s
      (m.writeAll (xorSource (streamPlan l s w m).writes ((streamPlan l s w m).reads.map m.read))) (w + len) := by
  simp only [streamPlan, hlen]
  rw [iteration_cells _ _ _ _ _ _ h16]
  obtain ⟨hin, hout⟩ := read_writeAll_run m (streamDestination l s w) len fun k =>
    m.read (streamSource l s w + k) ^^^
      blockByte (streamBlock (streamState s w m)) ((s.blkOff.toNat + w) % 16 + k)
  have hs := fun k (hk : k < len) => streamSource_add l s hg w k (by omega) hl
  have hd := fun k (hk : k < len) => streamDestination_add l s hg w k (by omega) hl
  have split : ∀ v < w + len, v < w ∨ ∃ k < len, v = w + k := by
    intro v hv
    rcases Nat.lt_or_ge v w with h1 | h1
    · exact .inl h1
    · exact .inr ⟨v - w, by omega, by omega⟩
  have hkey : ∀ k < len, blockByte (streamBlock (streamState s w m)) ((s.blkOff.toNat + w) % 16 + k) =
      logicalKeystream s (w + k) := by
    intro k hk
    rw [streamBlock_streamState, logicalKeystream, keystreamByte]
    have hdiv : (s.blkOff.toNat + (w + k)) / 16 = (s.blkOff.toNat + w) / 16 := by omega
    have hmod : (s.blkOff.toNat + (w + k)) % 16 = (s.blkOff.toNat + w) % 16 + k := by omega
    rw [hmod, blockIndexAt, blockIndexAt, hdiv]
  refine ⟨?_, ?_, ?_, ?_, ?_, ?_⟩
  · have hle := h.le
    cases l with
    | batch => exact absurd rfl hl
    | enc => simp only [streamLength, iterationLength] at hlen; omega
    | dec => simp only [streamLength, iterationLength] at hlen; omega
  · intro v hv
    rcases split v hv with h1 | ⟨k, hk, rfl⟩
    · exact h.admitted v h1
    · exact ⟨hr k hk, hw k hk⟩
  · rintro rfl v hv
    rcases split v hv with h1 | ⟨k, hk, rfl⟩
    · exact h.available rfl v h1
    · rw [physOffset_add s hg w k (by omega)]
      simp only [streamLength] at hlen
      omega
  · intro hn v hv
    rcases split v hv with h1 | ⟨k, hk, rfl⟩
    · rw [hout _ fun k hk heq => streamDestination_ne l s v (w + k) (by omega) hl (by rw [hd k hk]; exact heq)]
      exact h.moved (fun x y hxy hy => hn x y hxy (by omega)) v h1
    · rw [hd k hk, hin k hk, ← hs k hk, h.kept _ fun x hx heq => hn x (w + k) (by omega) (by omega) heq.symm]
      rw [hkey k hk]
  · intro a ha
    rw [hout a fun k hk heq => ha (w + k) (by omega) (by rw [hd k hk]; exact heq)]
    exact h.kept a fun v hv => ha v (by omega)
  · obtain ⟨trace, h0, hlast, hmoves⟩ := h.ordered
    refine ⟨fun n => if n = w + len then _ else trace n, ?_, if_pos rfl, fun n hn hs' => ?_⟩
    · simp only
      rw [if_neg (by omega), h0]
    · simp only
      rw [if_neg (by omega)]
      have hle16 : streamLength l s n ≤ 16 - (s.blkOff.toNat + n) % 16 := by
        cases l with
        | batch => exact absurd rfl hl
        | enc => simp only [streamLength, iterationLength]; omega
        | dec => simp only [streamLength, iterationLength]; omega
      rcases Nat.lt_trichotomy n w with hlt | rfl | hgt
      · have hstep : n + streamLength l s n ≤ w := by
          rcases hst with rfl | hst
          · omega
          · omega
        rw [if_neg (by omega)]
        exact hmoves n hlt hs'
      · rw [hlen, if_pos rfl, hlast]
        refine ⟨fun k hk => ?_, fun a ha => ?_⟩
        · rw [hd k hk, hin k hk, ← hs k hk, hkey k hk]
        · exact hout a fun k hk heq => ha k hk (by rw [hd k hk]; exact heq)
      · exfalso
        rcases hs' with rfl | hs'
        · omega
        · omega

/-! ### The whole command -/

/-- The Counter after an OVERFLOW: the Nonce, and BlockIndex `2^64 - 1` (43_stream_transform.md R206). -/
def exhaustedCounter (s : State) : Vector Word 4 := #v[s.ctr[0], s.ctr[1], 0xFFFFFFFF, 0xFFFFFFFF]

/-- How a stream command that moved `w` bytes and left data space `m` ends. -/
inductive StreamEnd (l : Loop) (s : State) (m : Memory) (w : Nat) (t : State) : Prop
  /-- All COUNT bytes are done (43_stream_transform.md R198). -/
  | ok (_ : w = s.count.toNat) (_ : blockIndexAt s (s.blkOff.toNat + w) < 2 ^ 64)
      (_ : t = complete .ok w (physLength s w) (streamState s w m))
  /-- The source ends first (43_stream_transform.md R203). -/
  | shortRead (_ : l = .dec) (_ : w < s.count.toNat) (_ : s.avail.toNat ≤ physOffset s w)
      (_ : blockIndexAt s (s.blkOff.toNat + w) < 2 ^ 64)
      (_ : t = complete .shortRead w (physOffset s w) (streamState s w m))
  /-- An iteration has an unadmitted source address (20_memory.md R66). -/
  | busRead (_ : w < s.count.toNat) (_ : iterationStart s w) (_ : blockIndexAt s (s.blkOff.toNat + w) < 2 ^ 64)
      (_ : ∃ k < streamLength l s w, admits s.platform (streamSource l s (w + k)) .read = false)
      (_ : t = complete (.busError .read) w (physOffset s w) (streamState s w m))
  /-- An iteration has an unadmitted destination address (20_memory.md R66). -/
  | busWrite (_ : w < s.count.toNat) (_ : iterationStart s w) (_ : blockIndexAt s (s.blkOff.toNat + w) < 2 ^ 64)
      (_ : ∀ k < streamLength l s w, admits s.platform (streamSource l s (w + k)) .read = true)
      (_ : ∃ k < streamLength l s w, admits s.platform (streamDestination l s (w + k)) .write = false)
      (_ : t = complete (.busError .write) w (physOffset s w) (streamState s w m))
  /-- The cipher block of the last BlockIndex is complete (43_stream_transform.md R206). -/
  | overflow (_ : (s.blkOff.toNat + w) % 16 = 0) (_ : blockIndexAt s (s.blkOff.toNat + w) = 2 ^ 64)
      (_ : t = complete .overflow w (physLength s w) { s with ctr := exhaustedCounter s, mem := m })

theorem setBlockIndex_streamState (s : State) (w : Nat) (m : Memory) (n : Nat) :
    setBlockIndex (streamState s w m) (BitVec.ofNat 64 (blockIndexAt s (s.blkOff.toNat + n))) = streamState s n m := rfl

theorem exhausted_streamState (s : State) (w : Nat) (m : Memory) (h : blockIndexAt s (s.blkOff.toNat + w) + 1 = 2 ^ 64) :
    streamState s w m = { s with ctr := exhaustedCounter s, mem := m } := by
  have hb : BitVec.ofNat 64 (blockIndexAt s (s.blkOff.toNat + w)) = (2 ^ 64 - 1 : Nat) := by
    rw [show blockIndexAt s (s.blkOff.toNat + w) = 2 ^ 64 - 1 by omega]
    rfl
  rw [streamState, counterAfter, hb]
  rfl

/-- Once the argument checks pass, a stream command moves some number of bytes and ends in one of five ways. -/
theorem streamLoop_cases (l : Loop) (hl : l ≠ .batch) (s : State) (hg : Geometry s) :
    ∀ n c w m, CursorsAt l s c w → BytesMoved l s m w → blockIndexAt s (s.blkOff.toNat + w) < 2 ^ 64 →
      s.count.toNat ≤ n + w →
      ∃ w' m', BytesMoved l s m' w' ∧ StreamEnd l s m' w' (runLoop (loopHead l) n c (streamState s w m)) := by
  intro n
  induction n with
  | zero =>
    intro c w m hc hb hi hn
    have := hb.le
    refine ⟨w, m, hb, .ok (by omega) hi ?_⟩
    rw [runLoop, hc.written, hc.pos]
  | succ n ih =>
    intro c w m hc hb hi hn
    simp only [runLoop]
    rcases streamHead_cases l hl s hg w m c hc hb.le with ⟨hw, h⟩ | ⟨hd, hlt, ha, h⟩ | ⟨hlt, hst, hpos, h16, hbo, hhead⟩
    · rw [h]
      exact ⟨w, m, hb, .ok hw hi (by rw [hc.written])⟩
    · rw [h]
      exact ⟨w, m, hb, .shortRead hd hlt ha hi (by rw [hc.written])⟩
    · rcases streamIteration_at l hl s hg w m c hc.written hbo h16 _ hhead with ⟨hr, h⟩ | ⟨hr, hw, h⟩ | ⟨hr, hw, h⟩
      · rw [h]
        exact ⟨w, m, hb, .busRead hlt hst hi hr (by rw [hc.written])⟩
      · rw [h]
        exact ⟨w, m, hb, .busWrite hlt hst hi hr hw (by rw [hc.written])⟩
      · rw [h]
        generalize hlen : streamLength l s w = len at *
        have hmoved := bytesMoved_iteration l hl s hg w len m hb hst hpos h16 hlen hr hw
        have hperf : performPlan (streamPlan l s w m) (streamState s w m) = streamState s w
            (m.writeAll (xorSource (streamPlan l s w m).writes ((streamPlan l s w m).reads.map m.read))) := rfl
        have hnext : (streamPlan l s w m).next =
            { bo := 0, first := false, written := w + len, pos := physOffset s w + len } := by rw [streamPlan, hlen]
        have hadv : (streamPlan l s w m).advance = decide ((s.blkOff.toNat + w) % 16 + len = 16) := by
          rw [streamPlan, hlen]
        simp only
        rw [hperf]
        generalize m.writeAll (xorSource (streamPlan l s w m).writes ((streamPlan l s w m).reads.map m.read)) = m' at *
        generalize streamPlan l s w m = p at *
        have hphys : physOffset s w + len = physLength s (w + len) := by
          rw [physLength, if_neg (by omega), show w + len - 1 = w + (len - 1) by omega,
            physOffset_add s hg w (len - 1) (by omega)]
          omega
        have hidx := blockIndex_streamState s w m' hi
        rcases advanceBlock_cases p (streamState s w m') with ⟨ha, he⟩ | ⟨ha, hlt', he⟩ | ⟨ha, heq, he⟩
        · -- a cipher block left incomplete: the last iteration
          have hne : ¬ (s.blkOff.toNat + w) % 16 + len = 16 := by simpa [hadv] using ha
          have hsame : blockIndexAt s (s.blkOff.toNat + (w + len)) = blockIndexAt s (s.blkOff.toNat + w) := by
            rw [blockIndexAt, blockIndexAt]
            omega
          have hstate : streamState s w m' = streamState s (w + len) m' := by
            rw [streamState, streamState, counterAfter, counterAfter, hsame]
          rw [he]
          simp only
          rw [hstate]
          refine ih p.next (w + len) m' ⟨by rw [hnext], by rw [hnext, ← hphys], by rw [hnext]; simp; omega, .inr ⟨by rw [hnext]; simp, ?_⟩⟩
            hmoved (by rw [hsame]; exact hi) (by omega)
          cases l with
          | batch => exact absurd rfl hl
          | enc => left; simp only [streamLength, iterationLength] at hlen; omega
          | dec =>
            by_cases hcount : w + len = s.count.toNat
            · exact .inl hcount
            · right
              refine ⟨rfl, ?_⟩
              rw [physOffset_add s hg w len (by omega)]
              simp only [streamLength, iterationLength] at hlen
              omega
        · have hfull : (s.blkOff.toNat + w) % 16 + len = 16 := by simpa [hadv] using ha
          have hnew : blockIndexAt s (s.blkOff.toNat + (w + len)) = blockIndexAt s (s.blkOff.toNat + w) + 1 := by
            rw [blockIndexAt, blockIndexAt]
            omega
          rw [he]
          simp only
          rw [hidx, ← hnew, setBlockIndex_streamState]
          refine ih p.next (w + len) m' ⟨by rw [hnext], by rw [hnext, ← hphys], by rw [hnext]; simp; omega, .inl ⟨by rw [hnext]; simp; omega, .inr (by omega)⟩⟩
            hmoved (by rw [hnew, ← hidx]; exact hlt') (by omega)
        · have hfull : (s.blkOff.toNat + w) % 16 + len = 16 := by simpa [hadv] using ha
          have hnew : blockIndexAt s (s.blkOff.toNat + (w + len)) = blockIndexAt s (s.blkOff.toNat + w) + 1 := by
            rw [blockIndexAt, blockIndexAt]
            omega
          rw [he]
          simp only
          rw [exhausted_streamState s w m' (by rw [← hidx]; exact heq)]
          refine ⟨w + len, m', hmoved, .overflow (by omega) (by rw [hnew, ← hidx]; exact heq) ?_⟩
          rw [hnext, ← hphys]

/-- All a stream command can do once its argument checks pass. -/
theorem streamCommand_cases (l : Loop) (hl : l ≠ .batch) (s : State) (h : passesChecks s) :
    ∃ w m, BytesMoved l s m w ∧ StreamEnd l s m w (runLoopCommand (loopStart l) (loopHead l) s) := by
  have hg := geometry_of_passesChecks s h
  obtain ⟨hv, hb, hm, hc⟩ := h
  have hstart : loopStart l s = .ok { bo := s.blkOff.toNat, first := true, written := 0, pos := 0 } := by
    have hs : streamStart s = .ok { bo := s.blkOff.toNat, first := true, written := 0, pos := 0 } := by
      rw [streamStart, if_neg (by simp [hv]), if_neg (by omega), if_neg (by omega), if_neg (by omega),
        if_neg (by rintro ⟨h1, h2⟩; exact h2 (hc h1).2)]
    cases l with
    | batch => exact absurd rfl hl
    | enc => exact hs
    | dec => exact hs
  have hlt := (blockIndex s).isLt
  have hzero : blockIndexAt s (s.blkOff.toNat + 0) = (blockIndex s).toNat := by rw [blockIndexAt]; omega
  have hstate : streamState s 0 s.mem = s := by
    rw [streamState, counterAfter, hzero, BitVec.ofNat_toNat, BitVec.setWidth_eq, setBlockIndex_self]
  rw [runLoopCommand, hstart]
  simp only
  have key := streamLoop_cases l hl s hg s.count.toNat { bo := s.blkOff.toNat, first := true, written := 0, pos := 0 } 0
    s.mem ⟨rfl, rfl, rfl, .inl ⟨by show s.blkOff.toNat = _; omega, .inl rfl⟩⟩
    ⟨by omega, fun v hv => by omega, fun _ v hv => by omega, fun _ v hv => by omega, fun _ _ => rfl,
      ⟨fun _ => s.mem, rfl, rfl, fun n hn => by omega⟩⟩
    (by rw [hzero]; exact hlt) (by omega)
  rw [hstate] at key
  exact key

end Sys2Proof.Machine
end

