-- ==== Sys2Proof/Laws/Batch.lean ====
section
/-! SUPPORT. What ENC_BATCH can do once its argument checks pass, said once (`batchCommand_cases`)
(spec/42_block_cipher.md R179, R180; spec/20_memory.md R66). -/

namespace Sys2Proof.Machine

theorem batchAddresses_eq (s : State) (i : Nat) : batchAddresses s i = addressRun (dstBase s + 16 * i) 16 := rfl

/-- After `i` blocks of a batch that started in `s` the data space is `m`: the bytes of the blocks were admitted, hold the
keystream, and every other byte is as it was. -/
structure BlocksWritten (s : State) (m : Memory) (i : Nat) : Prop where
  le : i ≤ s.count.toNat
  admitted : ∀ k < 16 * i, admits s.platform (dstBase s + k) .write = true
  written : ∀ j < i, ∀ k < 16, m.read (dstBase s + 16 * j + k) = blockByte (batchBlock s j) k
  kept : ∀ a, (a < dstBase s ∨ dstBase s + 16 * i ≤ a) → m.read a = s.mem.read a

/-- Writing one more block. -/
theorem blocksWritten_next (s : State) (m : Memory) (i : Nat) (h : BlocksWritten s m i) (hi : i < s.count.toNat)
    (hw : ∀ k < 16, admits s.platform (dstBase s + 16 * i + k) .write = true) :
    BlocksWritten s (m.writeAll ((batchAddresses s i).zip (blockBytes (batchBlock s i)))) (i + 1) := by
  have hcells : (batchAddresses s i).zip (blockBytes (batchBlock s i)) =
      (List.range 16).map fun k => (dstBase s + 16 * i + k, blockByte (batchBlock s i) k) := by
    apply List.ext_getElem
    · simp [batchAddresses, blockBytes]
    · intro k h1 h2
      simp [batchAddresses, blockBytes]
  rw [hcells]
  obtain ⟨hin, hout⟩ := read_writeAll_run m (dstBase s + 16 * i) 16 fun k => blockByte (batchBlock s i) k
  refine ⟨by omega, fun k hk => ?_, fun j hj k hk => ?_, fun a ha => ?_⟩
  · rcases Nat.lt_or_ge k (16 * i) with h1 | h1
    · exact h.admitted k h1
    · have := hw (k - 16 * i) (by omega)
      rwa [show dstBase s + 16 * i + (k - 16 * i) = dstBase s + k by omega] at this
  · rcases Nat.lt_or_ge j i with h1 | h1
    · rw [hout _ fun x hx heq => by omega]
      exact h.written j h1 k hk
    · obtain rfl : j = i := by omega
      exact hin k hk
  · rw [hout a fun k hk heq => by omega]
    exact h.kept a (by omega)

/-- How a batch that wrote `i` blocks and left data space `m` ends. -/
inductive BatchEnd (s : State) (m : Memory) (i : Nat) (t : State) : Prop
  /-- All COUNT blocks are written. -/
  | ok (_ : i = s.count.toNat) (_ : t = complete .ok i 0 { s with mem := m })
  /-- The next block has an unadmitted byte (20_memory.md R66). -/
  | busWrite (_ : i < s.count.toNat) (_ : ∃ k < 16, admits s.platform (dstBase s + 16 * i + k) .write = false)
      (_ : t = complete (.busError .write) i 0 { s with mem := m })

theorem batchLoop_cases (s : State) :
    ∀ n i m, BlocksWritten s m i → s.count.toNat ≤ n + i →
      ∃ i' m', BlocksWritten s m' i' ∧
        BatchEnd s m' i'
          (runLoop encBatchHead n { bo := 0, first := false, written := i, pos := 0 } { s with mem := m }) := by
  intro n
  induction n with
  | zero =>
    intro i m h hn
    have := h.le
    exact ⟨i, m, h, .ok (by omega) rfl⟩
  | succ n ih =>
    intro i m h hn
    simp only [runLoop]
    by_cases hi : i < s.count.toNat
    · by_cases hw : ((batchAddresses s i).any fun a => !admits s.platform a .write) = true
      · have hhead : encBatchHead { s with mem := m } { bo := 0, first := false, written := i, pos := 0 } =
            .done (.busError .write) 0 := by
          unfold encBatchHead
          rw [if_neg (not_not_intro hi)]
          exact if_pos hw
        rw [hhead]
        obtain ⟨a, ha, hno⟩ := List.any_eq_true.mp hw
        rw [batchAddresses_eq, mem_addressRun] at ha
        refine ⟨i, m, h, .busWrite hi ⟨a - (dstBase s + 16 * i), by omega, ?_⟩ rfl⟩
        rw [Nat.add_sub_cancel' ha.1]
        simpa using hno
      · have hhead : encBatchHead { s with mem := m } { bo := 0, first := false, written := i, pos := 0 } =
            .go
              { reads := []
                writes := (batchAddresses s i).zip (blockBytes (batchBlock s i))
                next := { bo := 0, first := false, written := i + 1, pos := 0 }
                advance := false } := by
          unfold encBatchHead
          rw [if_neg (not_not_intro hi)]
          exact if_neg hw
        rw [hhead]
        have hall : ∀ k < 16, admits s.platform (dstBase s + 16 * i + k) .write = true := by
          intro k hk
          by_contra hno
          refine hw (List.any_eq_true.mpr ⟨dstBase s + 16 * i + k, ?_, by simpa using hno⟩)
          rw [batchAddresses_eq, mem_addressRun]
          omega
        have hnext := blocksWritten_next s m i h hi hall
        have hx : ∀ cs : List Host.Cell, xorSource cs [] = cs := fun cs => by cases cs <;> rfl
        simp only [advanceBlock, performPlan, List.map_nil, hx, Bool.false_eq_true, if_false]
        exact ih (i + 1) _ hnext (by omega)
    · have hhead : encBatchHead { s with mem := m } { bo := 0, first := false, written := i, pos := 0 } = .done .ok 0 := by
        rw [encBatchHead, if_pos hi]
      rw [hhead]
      have := h.le
      exact ⟨i, m, h, .ok (by omega) rfl⟩

/-- All ENC_BATCH can do once its argument checks pass. -/
theorem batchCommand_cases (s : State) (hv : s.rkValid = true)
    (hc : (blockIndex s).toNat + s.count.toNat ≤ 2 ^ 64) :
    ∃ i m, BlocksWritten s m i ∧ BatchEnd s m i (runLoopCommand encBatchStart encBatchHead s) := by
  have hstart : encBatchStart s = .ok { bo := 0, first := false, written := 0, pos := 0 } := by
    rw [encBatchStart, if_neg (by simp [hv]), if_neg (by omega)]
  rw [runLoopCommand, hstart]
  exact batchLoop_cases s s.count.toNat 0 s.mem
    ⟨by omega, fun k hk => by omega, fun j hj => by omega, fun _ _ => rfl⟩ (by omega)

/-- Block `i` of a batch, its counter value as a sum (42_block_cipher.md R180). -/
theorem batchBlock_eq (s : State) (i : Nat) :
    batchBlock s i = aes s.rk (counterBlock (nonce s) (BitVec.ofNat 64 ((blockIndex s).toNat + i))) := by
  have h : blockIndex s + BitVec.ofNat 64 i = BitVec.ofNat 64 ((blockIndex s).toNat + i) := by
    apply BitVec.eq_of_toNat_eq
    simp [BitVec.toNat_add]
  rw [batchBlock, h]

end Sys2Proof.Machine
end

