-- ==== Sys2Proof/Laws/PerInstr.lean ====
section
/-! SUPPORT. The statement made for every command: its word is the one its row of spec/opcode_table.json gives. -/

namespace Sys2Proof.Laws.TableRow

/-- The mask and match of a command's row of spec/opcode_table.json. -/
def row : Instr → Word × Word
  | .selectBackend _ => (0xFFFF00FF, 0x00000001)
  | .keyExpand => (0xFFFFFFFF, 0x00000002)
  | .encBlock => (0xFFFFFFFF, 0x00000003)
  | .encBatch => (0xFFFFFFFF, 0x00000004)
  | .ctrInc => (0xFFFFFFFF, 0x00000005)
  | .streamEnc => (0xFFFFFFFF, 0x00000006)
  | .streamDec => (0xFFFFFFFF, 0x00000007)

/-- The word of a well-formed command matches its row of the opcode table. -/
def Statement (i : Instr) : Prop := i.wellFormed = true → encode i &&& (row i).1 = (row i).2

/-- Whatever its ARG, a word of opcode 0x01 matches the row of SELECT_BACKEND. -/
theorem commandWord_selectBackend : ∀ arg : Byte, commandWord 0x01 arg &&& 0xFFFF00FF = 0x00000001 := by decide +kernel

theorem selectBackend (arg : Word) : Statement (.selectBackend arg) := fun _ => commandWord_selectBackend _

theorem keyExpand : Statement .keyExpand := fun _ => by decide

theorem encBlock : Statement .encBlock := fun _ => by decide

theorem encBatch : Statement .encBatch := fun _ => by decide

theorem ctrInc : Statement .ctrInc := fun _ => by decide

theorem streamEnc : Statement .streamEnc := fun _ => by decide

theorem streamDec : Statement .streamDec := fun _ => by decide

end Sys2Proof.Laws.TableRow
end

