-- ==== Sys2Proof/Laws/Run.lean ====
section
/-! SUPPORT. Runs of the machine in which nothing is scheduled: the engine's own micro-steps one after the other
(spec/70_reset_and_hazards.md R283). -/

namespace Sys2Proof.Machine

/-- `n` micro-steps of the engine. -/
def engineSteps : Nat → State → State
  | 0, s => s
  | n + 1, s => engineSteps n (engineStep s)

theorem engineSteps_add (m n : Nat) (s : State) : engineSteps (m + n) s = engineSteps n (engineSteps m s) := by
  induction m generalizing s with
  | zero => simp [engineSteps]
  | succ m ih =>
    rw [show m + 1 + n = (m + n) + 1 by omega]
    exact ih _

/-- The engine never touches the schedule. -/
theorem engineStep_schedule (s : State) : (engineStep s).schedule = s.schedule := by
  rcases engineStep_cases s with ⟨_, h⟩ | ⟨r, _, _, h⟩ | ⟨r, l, st, _, _, h⟩
  · rw [h]
  · rw [h]
    rcases beginCommand_cases r s with ⟨e, _, h⟩ | ⟨l, _, h⟩ | ⟨i, _, _, h⟩
    · rw [h, complete_schedule]
    · rw [h, (beginLoop_frame r l s).1]
    · obtain ⟨o, a, p, u, hc, hu, _⟩ := commandBody_completes i s
      rw [h, hc, complete_schedule, hu]
  · rw [h, (loopStep_frame r l st s).1]

/-- One step of a run, on any machine of the host's interface. -/
theorem core_run_succ (M : Host.Core) (n : Nat) (s t : M.State) (h : M.step s = .next t) :
    M.run (n + 1) s = M.run n t := by
  rw [Host.Core.run, h]

/-- One step of a run. -/
theorem run_succ (n : Nat) (s t : State) (h : step s = .next t) :
    Host.Core.run Sys2Proof.core (n + 1) s = Host.Core.run Sys2Proof.core n t :=
  core_run_succ Sys2Proof.core n s t h

/-- With nothing scheduled, a run is the engine's micro-steps. -/
theorem run_of_no_schedule (n : Nat) (s : State) (h : s.schedule = []) :
    Host.Core.run Sys2Proof.core n s = .next (engineSteps n s) := by
  induction n generalizing s with
  | zero => rfl
  | succ n ih =>
    rw [run_succ n s _ (step_nil s h)]
    exact ih _ ((engineStep_schedule s).trans h)

end Sys2Proof.Machine
end

