-- ==== Sys2Proof/Tests/Slice0.lean ====
section
/-! SUPPORT. The tests of the model: the smoke test of WellFormed, command words written out from the encoding, vectors
of spec/95_test_vectors.md, and for every statement with hypotheses states and operands that meet them (the
`witness_` theorems). -/

namespace Sys2Proof.Tests

open Sys2Proof Sys2Proof.Machine

/-! ## Helpers -/

/-- A platform that answers every address, with the register window at 0x40000000 and the given backends. -/
def platformWith (vector delegated : Bool) (answers : List Region) : Platform :=
  { windowPage := 0x400000, hasVector := vector, hasDelegated := delegated, answers := answers }

/-- MEM_ADMIT of the vectors: "admits every address below 2^32 outside the register window". -/
def everywhere : List Region := [⟨0, 2 ^ 32, true, true⟩]

/-- Every address but `a`, where only accesses of one kind are answered. -/
def everywhereBut (a : Nat) (readable writable : Bool) : List Region :=
  [⟨0, a, true, true⟩, ⟨a, 1, readable, writable⟩, ⟨a + 1, 2 ^ 32 - (a + 1), true, true⟩]

/-- The machine after reset on a concrete platform. -/
def ready : State := { State.reset with platform := platformWith false false everywhere }

/-- The key K1 of spec/95_test_vectors.md. -/
def k1 : Vector Word 8 :=
  #v[0x00010203, 0x04050607, 0x08090a0b, 0x0c0d0e0f, 0x10111213, 0x14151617, 0x18191a1b, 0x1c1d1e1f]

/-- The key of V2. -/
def k2 : Vector Word 8 :=
  #v[0x603deb10, 0x15ca71be, 0x2b73aef0, 0x857d7781, 0x1f352c07, 0x3b6108d7, 0x2d9810a3, 0x0914dff4]

/-- RK_VALID = 1 with an expanded key nobody looks at. -/
def valid : State := { ready with rkValid := true }

/-- RK_VALID = 1 with the expansion of a key. -/
def keyed (key : Vector Word 8) : State := { ready with rk := expandKey key, rkValid := true }

/-- The machine after reset with its last BlockIndex. -/
def lastBlock : Vector Word 4 := #v[0x02020202, 0x02020202, 0xFFFFFFFF, 0xFFFFFFFF]

/-- A BUSY engine that has just accepted a word. -/
def busyWith (w : Word) (s : State) : State := { s with seq := .busy { word := w, phase := .accepted, pending := [] } }

/-- The state with these moves scheduled. -/
def scheduled (ms : List Move) (s : State) : State := { s with schedule := ms }

/-- Consecutive bytes from an address on. -/
def bytesFrom (a : Nat) : List Byte → List Host.Cell
  | [] => []
  | v :: vs => (a, v) :: bytesFrom (a + 1) vs

/-- The data space holds these bytes from an address on. -/
def withBytes (a : Nat) (vs : List Byte) (s : State) : State := { s with mem := s.mem.writeAll (bytesFrom a vs) }

/-- `n` bytes of the data space. -/
def bytesAt (s : State) (a n : Nat) : List Byte := (List.range n).map fun i => s.mem.read (a + i)

/-- The bytes v, v + 1, ... of the vectors. -/
def ramp (v n : Nat) : List Byte := (List.range n).map fun i => BitVec.ofNat 8 (v + i)

/-- The state a command leaves. -/
def after (i : Instr) (s : State) : State :=
  match exec i s with
  | .next t => t
  | .fault _ => s
  | .refused _ => s

theorem exec_after (i : Instr) (s : State) : exec i s = .next (after i s) := by cases i <;> rfl

/-- The "outcome" of the vectors: ERR, CAUSE, RESULT, PHYS_POS. -/
def outcome (s : State) : Nat × Nat × Nat × Nat := (s.err.toNat, s.cause.toNat, s.result.toNat, s.physPos.toNat)

/-- `noOverwrite`, in a form that can be evaluated. -/
theorem noOverwrite_of {source destination : Nat → Nat} {n : Nat} (h : ∀ v < n, ∀ w < v, destination w ≠ source v) :
    noOverwrite source destination n := fun w v hw hv => h v hv w hw

/-! ## WellFormed and Decode -/

theorem test_wellFormed_refuses_wide_argument : (Instr.selectBackend 256).wellFormed = false := by decide

/-- The words of 30_encoding.md R92, written as RSVD ++ ARG ++ OPCODE. -/
theorem test_decode_selectBackend :
    decode (0b0000000000000000#16 ++ 0b00000010#8 ++ 0b00000001#8) = .ok (.selectBackend 2) := by decide

theorem test_decode_keyExpand : decode (0b0000000000000000#16 ++ 0b00000000#8 ++ 0b00000010#8) = .ok .keyExpand := by
  decide

theorem test_decode_encBlock : decode (0b0000000000000000#16 ++ 0b00000000#8 ++ 0b00000011#8) = .ok .encBlock := by
  decide

theorem test_decode_encBatch : decode (0b0000000000000000#16 ++ 0b00000000#8 ++ 0b00000100#8) = .ok .encBatch := by
  decide

theorem test_decode_ctrInc : decode (0b0000000000000000#16 ++ 0b00000000#8 ++ 0b00000101#8) = .ok .ctrInc := by
  decide

theorem test_decode_streamEnc : decode (0b0000000000000000#16 ++ 0b00000000#8 ++ 0b00000110#8) = .ok .streamEnc := by
  decide

theorem test_decode_streamDec : decode (0b0000000000000000#16 ++ 0b00000000#8 ++ 0b00000111#8) = .ok .streamDec := by
  decide

/-- The host's word interface: the word of a command is fetched and run. -/
theorem test_withFetchWord_runs :
    decodeTableWord 32 0x00000005 = some .ctrInc ∧
      step (State.reset.withFetchWord 32 0x00000005) = exec .ctrInc State.reset :=
  ⟨by decide, rfl⟩

/-! ## Vectors -/

/-- V37, row 1: no Vector backend. -/
theorem test_selectBackend_absent :
    let t := after (.selectBackend 1) valid
    outcome t = (4, 0, 0, 0) ∧ t.backend = .software ∧ t.rkValid = true := by decide +kernel

/-- V37, row 6: the Vector backend is present. -/
theorem test_selectBackend_present :
    let t := after (.selectBackend 1) { valid with platform := platformWith true false everywhere }
    outcome t = (0, 0, 0, 0) ∧ t.backend = .vector ∧ t.rkValid = false := by decide +kernel

/-- V2: words of three round keys, the first that needs the `i mod 8 = 4` step and the last among them. -/
theorem test_keyExpand_published :
    let t := after .keyExpand { ready with key := k2 }
    (t.rk[8], t.rk[12], t.rk[59]) = ((0x9ba35411 : Word), (0xa8b09c1a : Word), (0x706c631e : Word)) ∧
      t.rkValid = true := by decide +kernel

/-- V7: the key store is cleared, so a second KEY_EXPAND expands the zero key. -/
theorem test_keyExpand_twice :
    let t := after .keyExpand (after .keyExpand { ready with key := k1 })
    (t.rk[11], t.rk[59]) = ((0x62636363 : Word), (0xcb706385 : Word)) := by decide +kernel

/-- V1, FIPS-197 C.3. -/
theorem test_encBlock_published :
    (after .encBlock { keyed k1 with din := #v[0x00112233, 0x44556677, 0x8899aabb, 0xccddeeff] }).dout =
      #v[0x8ea2b7ca, 0x516745bf, 0xeafc4990, 0x4b496089] := by decide +kernel

/-- V9: no key after reset. -/
theorem test_encBlock_without_key : outcome (after .encBlock ready) = (2, 1, 0, 0) := by decide +kernel

/-- V12: two keystream blocks, the Counter untouched. -/
theorem test_encBatch_two_blocks :
    let t := after .encBatch { keyed (Vector.replicate 8 0) with count := 2, dstAddr := 0x2000 }
    bytesAt t 0x2000 4 = [0xdc, 0x95, 0xc0, 0x78] ∧ bytesAt t 0x201c 4 = [0xc4, 0xcb, 0x73, 0x8b] ∧
      outcome t = (0, 0, 2, 0) ∧ t.ctr = Vector.replicate 4 0 := by decide +kernel

/-- V11, COUNT = 3: the overflow check precedes every write. -/
theorem test_encBatch_overflow :
    let t := after .encBatch
      { valid with ctr := #v[0x11111111, 0x11111111, 0xFFFFFFFF, 0xFFFFFFFE], count := 3, dstAddr := 0x2000 }
    outcome t = (1, 0, 0, 0) ∧ t.mem.cells = [] := by decide +kernel

/-- V5.2: a carry into the upper half of the BlockIndex. -/
theorem test_ctrInc_carry :
    (after .ctrInc { ready with ctr := #v[0xa5a5a5a5, 0xa5a5a5a5, 0, 0xFFFFFFFF], incLo := 1 }).ctr =
      #v[0xa5a5a5a5, 0xa5a5a5a5, 1, 0] := by decide +kernel

/-- V5.11, the second increment: no carry into the Nonce. -/
theorem test_ctrInc_overflow :
    let t := after .ctrInc { ready with ctr := Vector.replicate 4 0xFFFFFFFF, incLo := 1 }
    outcome t = (1, 0, 0, 0) ∧ t.ctr = Vector.replicate 4 0xFFFFFFFF := by decide +kernel

/-- V21 and V22: 2 bytes of block 0 from BLK_OFF = 14 on, then 2 bytes of block 1 (keystream of V21). -/
theorem test_streamEnc_crosses_a_block :
    let t := after .streamEnc
      { keyed k1 with ctr := #v[0x00010203, 0x04050607, 0, 0], blkOff := 14, count := 4, dstAddr := 0x2000 }
    bytesAt t 0x2000 4 = [0x09, 0xa7, 0xdf, 0x5b] ∧ outcome t = (0, 0, 4, 4) ∧
      t.ctr = #v[0x00010203, 0x04050607, 0, 1] := by decide +kernel

/-- V26, COUNT = 16: the increment after the last block overflows. -/
theorem test_streamEnc_overflow :
    let t := after .streamEnc (withBytes 0x1000 (ramp 0 16)
      { keyed k1 with ctr := lastBlock, count := 16, srcAddr := 0x1000, dstAddr := 0x2000 })
    bytesAt t 0x2000 4 = [0xb2, 0xdb, 0xef, 0x33] ∧ outcome t = (1, 0, 16, 16) ∧ t.ctr = lastBlock := by
  decide +kernel

/-- V25: AVAIL = 10 of 16 bytes. -/
theorem test_streamDec_short_read :
    let t := after .streamDec (withBytes 0x2000
      [0x55, 0xe6, 0x35, 0x0b, 0xa8, 0x21, 0x7c, 0x5d, 0x62, 0x7c, 0x58, 0x2a, 0x0a, 0x0e, 0x47, 0xe8]
      { keyed k1 with
        ctr := #v[0x00010203, 0x04050607, 0, 0]
        count := 16
        avail := 10
        srcAddr := 0x2000
        dstAddr := 0x3000 })
    bytesAt t 0x3000 11 = ramp 0x40 10 ++ [0] ∧ outcome t = (3, 0, 10, 10) ∧
      t.ctr = #v[0x00010203, 0x04050607, 0, 0] := by decide +kernel

/-- V27, third case: the read of 0x2019 is refused, tag bytes are never read. -/
theorem test_streamDec_bus_error :
    outcome (after .streamDec
      { valid with
        platform := platformWith false false (everywhereBut 0x2019 false true)
        chunkSize := 16
        tagLen := 4
        count := 20
        avail := 64
        srcAddr := 0x2000
        dstAddr := 0x3000 }) = (5, 1, 16, 24) := by decide +kernel

/-- V39: CAP of an engine with both optional backends. -/
theorem test_cap : capWord (platformWith true true everywhere) = 0x0e100807 := by decide

/-! ## Witnesses

For every statement with hypotheses, states and operands that meet them; where a statement has several clauses, each
clause at a boundary of its range. -/

/-! ### Encoding -/

theorem witness_DecodeOfEncodeIsTheCommand :
    (Instr.selectBackend 0).wellFormed = true ∧ (Instr.selectBackend 255).wellFormed = true ∧
      Instr.streamDec.wellFormed = true := by decide

theorem witness_EncodeOfDecodeIsTheWord :
    decode 0x0000FF01 = .ok (.selectBackend 255) ∧ decode 0x00000007 = .ok .streamDec := by decide

/-- The words of V38, the boundaries of each clause of R93 among them. -/
theorem witness_IllegalWordsCompleteWithIllegalCommand :
    ∀ w ∈ [0x00010002, 0x80000006, 0x00000000, 0x00000008, 0x000000FF, 0x00000102, 0x0000FF07],
      isBusy (scheduled [.command w] valid) = false ∧ (scheduled [.command w] valid).schedule = [.command w] ∧
        ∃ e, decode w = .error e := by
  intro w hw
  simp only [List.mem_cons, List.not_mem_nil, or_false] at hw
  rcases hw with rfl | rfl | rfl | rfl | rfl | rfl | rfl <;> exact ⟨rfl, rfl, _, rfl⟩

theorem witness_StepRunsTheDecodedCommand :
    (scheduled [.command 5] ready).schedule = [.command 5] ∧ decode 5 = .ok .ctrInc ∧
      Instr.ctrInc.wellFormed = true := by decide

/-! ### The register window -/

/-- The last byte of the last register (10_state.md R22). -/
theorem witness_RegistersPackBytesBigEndian :
    (3 < 4 ∧ 3 < 4) ∧
      blockByte (blockOfRegs #v[0x00010203, 0x04050607, 0x08090a0b, 0x0c0d0e0f]) (4 * 3 + 3) = 0x0f := by
  decide +kernel

/-- The first and last reserved offset of each gap. -/
theorem witness_ReservedLocationsReadZero :
    (∀ o ∈ ([0x10, 0x1C, 0x78, 0x7C, 0xA8, 0xAC, 0xB8, 0xFC] : List (BitVec 8)),
      o.toNat % 4 = 0 ∧
        (0x10 ≤ o.toNat ∧ o.toNat ≤ 0x1C ∨ 0x78 ≤ o.toNat ∧ o.toNat ≤ 0x7C ∨ 0xA8 ≤ o.toNat ∧ o.toNat ≤ 0xAC ∨
          0xB8 ≤ o.toNat) ∧
        (scheduled [.writeReg o .word 7] ready).schedule = [.writeReg o .word 7] ∧
        (scheduled [.readReg o .word] ready).schedule = [.readReg o .word]) ∧
    (0x00000001 : Word).getLsbD 0 = (0xFFFFFFFF : Word).getLsbD 0 ∧
    (0x00000002 : Word).getLsbD 1 = (0xFFFFFFFE : Word).getLsbD 1 ∧
    (0x00010000 : Word).extractLsb' 16 16 ≠ 0 ∧ (0x80000000 : Word).extractLsb' 16 16 ≠ 0 := by
  decide

/-- Every offset of the statement: the first and the last register of CTR and DIN, and the others. -/
theorem witness_PlainRegistersHoldWhatIsWritten :
    (∀ o ∈ ([0x40, 0x4C, 0x50, 0x5C, 0x70, 0x74, 0x80, 0x84, 0x88, 0x8C, 0x90, 0x94, 0x98, 0x9C, 0xA0, 0xA4] :
        List (BitVec 8)),
      isBusy (scheduled [.writeReg o .word 7] ready) = false ∧
        (scheduled [.writeReg o .word 7] ready).schedule = [.writeReg o .word 7] ∧
        isBusy (scheduled [.writeReg o .word 7, .readReg o .word] ready) = false ∧
        (scheduled [.writeReg o .word 7, .readReg o .word] ready).schedule =
          [.writeReg o .word 7, .readReg o .word]) ∧
    (0x4C : BitVec 8) = 0x40 + BitVec.ofNat 8 (4 * (3 : Fin 4).val) ∧
      (0x5C : BitVec 8) = 0x50 + BitVec.ofNat 8 (4 * (3 : Fin 4).val) := by
  decide

theorem witness_ReadOnlyRegistersIgnoreWrites :
    ∀ o ∈ ([0x0C, 0x60, 0x6C, 0xB0, 0xB4] : List (BitVec 8)),
      (o = 0x0C ∨ (∃ i : Fin 4, o = 0x60 + BitVec.ofNat 8 (4 * i.val)) ∨ o = 0xB0 ∨ o = 0xB4) ∧
        (scheduled [.writeReg o .word 7] ready).schedule = [.writeReg o .word 7] := by
  decide

/-- KEY0 and KEY7, and the last byte of a word. -/
theorem witness_KeyWritesClearRkValid :
    3 < 4 ∧ ∀ i ∈ [(0 : Fin 8), 7],
      isBusy (scheduled [.writeReg (0x20 + BitVec.ofNat 8 (4 * i.val)) .word 7] valid) = false ∧
        (scheduled [.writeReg (0x20 + BitVec.ofNat 8 (4 * i.val)) .word 7] valid).schedule =
          [.writeReg (0x20 + BitVec.ofNat 8 (4 * i.val)) .word 7] ∧
        (scheduled [.readReg (0x20 + BitVec.ofNat 8 (4 * i.val)) .word] valid).schedule =
          [.readReg (0x20 + BitVec.ofNat 8 (4 * i.val)) .word] := by
  decide

theorem witness_StatusFieldsAndDoneClear :
    isBusy (scheduled [.writeReg 0x08 .word 2] { ready with done := true }) = false ∧
      (scheduled [.writeReg 0x08 .word 2] { ready with done := true }).schedule = [.writeReg 0x08 .word 2] := by
  decide

theorem witness_CapReportsThePlatform :
    (scheduled [.readReg 0x0C .word] ready).schedule = [.readReg 0x0C .word] ∧
      (scheduled [.writeReg 0x0C .word 7] ready).schedule = [.writeReg 0x0C .word 7] := by
  decide

theorem witness_CtrlGatesTheInterrupt :
    (scheduled [.writeReg 0x00 .word 1] ready).schedule = [.writeReg 0x00 .word 1] ∧
      (scheduled [.readReg 0x00 .word] ready).schedule = [.readReg 0x00 .word] ∧
      ({ ready with irqEn := true } : State).irqEn = true ∧ ready.irqEn = false := by
  decide

/-- CTRL itself, its neighbour CMD, and the last offset; the atomic CMD write as well. -/
theorem witness_BusyWritesAreIgnored :
    (∀ o ∈ ([0x00, 0x04, 0x08, 0xFC] : List (BitVec 8)),
      isBusy (scheduled [.writeReg o .word 7] (busyWith 6 valid)) = true ∧ o.toNat % 4 = 0 ∧
        (scheduled [.writeReg o .word 7] (busyWith 6 valid)).schedule = [.writeReg o .word 7]) ∧
    isBusy (scheduled [.command 2] (busyWith 6 valid)) = true ∧
      (scheduled [.command 2] (busyWith 6 valid)).schedule = [.command 2] := by
  decide

/-- Reads while IDLE and while BUSY: a register of each kind, the last of each numbered one, and the first and last
reserved offset. -/
theorem witness_BusyReadsOfEngineRegistersAreFree :
    (∀ o ∈ ([0x40, 0x4C, 0x6C, 0xB0, 0xB4, 0x00, 0x04, 0x08, 0x0C, 0x3C, 0x5C, 0x70, 0x74, 0x80, 0x84, 0x88, 0x8C, 0x90,
        0x94, 0x98, 0x9C, 0xA0, 0xA4, 0x10, 0xFC] : List (BitVec 8)),
      isBusy (scheduled [.readReg o .word] valid) = false ∧
        (scheduled [.readReg o .word] valid).schedule = [.readReg o .word] ∧
        isBusy (scheduled [.readReg o .word] (busyWith 6 valid)) = true ∧
        (scheduled [.readReg o .word] (busyWith 6 valid)).schedule = [.readReg o .word]) ∧
    ((0x4C : BitVec 8) = 0x40 + BitVec.ofNat 8 (4 * (3 : Fin 4).val) ∧
      (0x6C : BitVec 8) = 0x60 + BitVec.ofNat 8 (4 * (3 : Fin 4).val) ∧
      (0x3C : BitVec 8) = 0x20 + BitVec.ofNat 8 (4 * (7 : Fin 8).val) ∧
      (0x5C : BitVec 8) = 0x50 + BitVec.ofNat 8 (4 * (3 : Fin 4).val)) ∧
    ∀ o ∈ ([0x10, 0xFC] : List (BitVec 8)),
      o.toNat % 4 = 0 ∧
        (0x10 ≤ o.toNat ∧ o.toNat ≤ 0x1C ∨ 0x78 ≤ o.toNat ∧ o.toNat ≤ 0x7C ∨ 0xA8 ≤ o.toNat ∧ o.toNat ≤ 0xAC ∨
          0xB8 ≤ o.toNat) := by
  decide

theorem witness_CmdWriteAcceptsTheCommand :
    isBusy (scheduled [.writeReg 0x04 .word 6] valid) = false ∧
      (scheduled [.writeReg 0x04 .word 6] valid).schedule = [.writeReg 0x04 .word 6] := by
  decide

theorem witness_OutcomeCodes :
    ∀ o ∈ [Completion.ok, .overflow, .shortRead, .backendUnavailable, .illegalCommand],
      (∀ c, o ≠ .invalidArgument c) ∧ ∀ k, o ≠ .busError k := by
  intro o ho
  constructor <;> intro _ h <;> subst h <;> simp at ho

/-- Every narrow width, every misaligned offset, and the first and last byte of the window; and a regular access. -/
theorem witness_IrregularWindowAccessFaults :
    (∀ size ∈ [AccessSize.byte, .half, .double], size ≠ .word ∧
      (scheduled [.writeReg 0x04 size 7] ready).schedule = [.writeReg 0x04 size 7] ∧
      (scheduled [.readReg 0x04 size] ready).schedule = [.readReg 0x04 size]) ∧
    (∀ o ∈ ([0x01, 0x02, 0x03, 0xFF] : List (BitVec 8)), o.toNat % 4 ≠ 0 ∧
      (scheduled [.writeReg o .word 7] ready).schedule = [.writeReg o .word 7] ∧
      (scheduled [.readReg o .word] ready).schedule = [.readReg o .word]) ∧
    (0xFC : BitVec 8).toNat % 4 = 0 := by
  decide

/-- The first and the last byte of the window. -/
theorem witness_IrregularWindowAccessFaults_byData :
    ((regBase ready.platform).toNat ≤ (0x40000000 : Word).toNat ∧
      (0x40000000 : Word).toNat < (regBase ready.platform).toNat + 256) ∧
    ((regBase ready.platform).toNat ≤ (0x400000FF : Word).toNat ∧
      (0x400000FF : Word).toNat < (regBase ready.platform).toNat + 256) ∧
    (scheduled [.store 0x400000FF 1 true] ready).schedule = [.store 0x400000FF 1 true] ∧
    (scheduled [.load 0x400000FF true] ready).schedule = [.load 0x400000FF true] := by
  decide +kernel

/-! ### Single-step commands -/

theorem witness_SelectBackendEffect :
    isBusy valid = false ∧ 3 ≤ (3 : Word).toNat ∧ 3 ≤ (0xFFFFFFFF : Word).toNat ∧
      ((2 : Word).toNat < 3 ∧ (capWord valid.platform).getLsbD (2 : Word).toNat = false) ∧
      ((0 : Word).toNat < 3 ∧ (capWord valid.platform).getLsbD (0 : Word).toNat = true) ∧
      (capWord (platformWith true true everywhere)).getLsbD (2 : Word).toNat = true := by
  decide

theorem witness_KeyExpandEffect :
    isBusy ready = false ∧ exec .keyExpand ready = .next (after .keyExpand ready) ∧
      exec .keyExpand (after .keyExpand ready) = .next (after .keyExpand (after .keyExpand ready)) :=
  ⟨rfl, exec_after _ _, exec_after _ _⟩

theorem witness_EncBlockEffect :
    isBusy valid = false ∧ valid.rkValid = true ∧ isBusy ready = false ∧ ready.rkValid = false := by decide

/-- The smallest negative operand, the first sum that overflows and the last one that does not. -/
theorem witness_CtrIncEffect :
    let negative : State := { ready with incHi := 0x80000000 }
    let first : State := { ready with ctr := #v[0, 0, 0x80000000, 1], incHi := 0x7FFFFFFF, incLo := 0xFFFFFFFF }
    let last : State := { ready with ctr := #v[0, 0, 0x80000000, 0], incHi := 0x7FFFFFFF, incLo := 0xFFFFFFFF }
    (isBusy negative = false ∧ negative.incHi.getLsbD 31 = true) ∧
    (isBusy first = false ∧ first.incHi.getLsbD 31 = false ∧
      2 ^ 64 ≤ (blockIndex first).toNat + (first.incHi.toNat * 2 ^ 32 + first.incLo.toNat)) ∧
    (isBusy last = false ∧ last.incHi.getLsbD 31 = false ∧
      (blockIndex last).toNat + (last.incHi.toNat * 2 ^ 32 + last.incLo.toNat) < 2 ^ 64) := by
  decide

/-! ### The cipher -/

theorem witness_SboxIsAffineOfInverse : 0 < 8 ∧ 7 < 8 ∧ (1 : Byte) ≠ 0 ∧ (0xFF : Byte) ≠ 0 := by decide

theorem witness_WordOperationsOnBytes : 0 < 4 ∧ 3 < 4 ∧ (0 < 1 ∧ 1 < 4) ∧ 0 < 3 := by decide

/-- The first and last word of each clause, and the `i mod 8 = 4` step. -/
theorem witness_KeyExpansionRecurrence :
    (0 < 60 ∧ 0 < 8) ∧ (7 < 60 ∧ 7 < 8) ∧ (8 < 60 ∧ 8 ≤ 8 ∧ 8 % 8 = 0) ∧ (12 < 60 ∧ 8 ≤ 12 ∧ 12 % 8 = 4) ∧
      (59 < 60 ∧ 8 ≤ 59) := by decide

theorem witness_RoundTransformationsOnCells : 0 < 4 ∧ 3 < 4 := by decide

theorem witness_CipherIsFourteenRounds :
    (1 ≤ (1 : Fin 15).val ∧ (1 : Fin 15).val ≤ 13) ∧ 1 ≤ (13 : Fin 15).val ∧ (13 : Fin 15).val ≤ 13 := by decide

/-! ### ENC_BATCH -/

/-- The last counter value is 2^64 - 1, and the last byte written is the last byte of the data space. -/
theorem witness_EncBatchWritesKeystream :
    let s : State := { valid with ctr := lastBlock, count := 1, dstAddr := 0xFFFFFFF0 }
    isBusy s = false ∧ s.rkValid = true ∧ (blockIndex s).toNat + s.count.toNat ≤ 2 ^ 64 ∧
      ∀ k < 16 * s.count.toNat, admits s.platform (dstBase s + k) .write = true := by
  decide +kernel

/-- The first sum that overflows; a second block whose last byte is refused; a first block that is refused. -/
theorem witness_EncBatchStops :
    (isBusy ready = false ∧ ready.rkValid = false) ∧
    (let s : State := { valid with ctr := lastBlock, count := 2 }
     isBusy s = false ∧ s.rkValid = true ∧ 1 ≤ s.count.toNat ∧ 2 ^ 64 ≤ (blockIndex s).toNat + (s.count.toNat - 1)) ∧
    ∀ i ∈ [0, 1],
      let s : State :=
        { valid with
          platform := platformWith false false (everywhereBut (0x2000 + 16 * i + 15) true false)
          count := 2
          dstAddr := 0x2000 }
      isBusy s = false ∧ s.rkValid = true ∧ (blockIndex s).toNat + s.count.toNat ≤ 2 ^ 64 ∧ i < s.count.toNat ∧
        (∀ k < 16 * i, admits s.platform (dstBase s + k) .write = true) ∧
        ∃ k < 16, admits s.platform (dstBase s + 16 * i + k) .write = false := by
  decide +kernel

/-! ### Stream commands -/

/-- The states of V23, whose rows stand at the boundaries of the checks, and COUNT = 0 (V28). -/
theorem witness_StreamArgumentChecks :
    (isBusy ready = false ∧ ready.rkValid = false) ∧
    (let s : State := { valid with blkOff := 16 }
     isBusy s = false ∧ s.rkValid = true ∧ 16 ≤ s.blkOff.toNat) ∧
    (let s : State := { valid with chunkSize := 8, blkOff := 15 }
     s.rkValid = true ∧ s.blkOff.toNat < 16 ∧ s.chunkSize.toNat % 16 ≠ 0) ∧
    (let s : State := { valid with chunkSize := 64, tagLen := 32, c2bOff := 64 }
     s.rkValid = true ∧ s.blkOff.toNat < 16 ∧ s.chunkSize.toNat % 16 = 0 ∧ 0 < s.chunkSize.toNat ∧
       s.chunkSize.toNat ≤ s.c2bOff.toNat) ∧
    (let s : State := { valid with chunkSize := 64, tagLen := 32, c2bOff := 63, blkOff := 14 }
     s.rkValid = true ∧ s.blkOff.toNat < 16 ∧ s.chunkSize.toNat % 16 = 0 ∧ 0 < s.chunkSize.toNat ∧
       s.c2bOff.toNat < s.chunkSize.toNat ∧ s.c2bOff.toNat % 16 ≠ s.blkOff.toNat) ∧
    (let s : State := { valid with chunkSize := 64, tagLen := 32, c2bOff := 63, blkOff := 15 }
     passesChecks s ∧ s.count = 0) := by
  simp only [passesChecks]
  decide

/-- A chunked stream of 20 bytes: it starts in the middle of a cipher block and crosses a tag. -/
def chunked : State :=
  { valid with
    chunkSize := 16
    tagLen := 4
    c2bOff := 10
    blkOff := 10
    count := 20
    avail := 0x1000
    srcAddr := 0x1000
    dstAddr := 0x2000 }

theorem chunked_passesChecks : passesChecks chunked := by
  unfold passesChecks
  decide

/-- A plain stream of 20 bytes. -/
def plain : State := { valid with count := 20, avail := 0x1000, srcAddr := 0x1000, dstAddr := 0x2000 }

theorem plain_passesChecks : passesChecks plain := by
  unfold passesChecks
  decide

theorem witness_StreamEncTransforms :
    isBusy chunked = false ∧ passesChecks chunked ∧
      blockIndexAt chunked (chunked.blkOff.toNat + chunked.count.toNat) < 2 ^ 64 ∧
      bytesAdmitted chunked.platform (encSource chunked) (encDestination chunked) chunked.count.toNat ∧
      noOverwrite (encSource chunked) (encDestination chunked) chunked.count.toNat := by
  refine ⟨rfl, chunked_passesChecks, by decide +kernel, ?_, noOverwrite_of (by decide +kernel)⟩
  unfold bytesAdmitted
  decide +kernel

/-- AVAIL exactly the physical length, and in place. -/
theorem witness_StreamDecTransforms :
    let s : State := { chunked with avail := 38, dstAddr := 0x1000 }
    isBusy s = false ∧ passesChecks s ∧ blockIndexAt s (s.blkOff.toNat + s.count.toNat) < 2 ^ 64 ∧
      physLength s s.count.toNat ≤ s.avail.toNat ∧
      bytesAdmitted s.platform (decSource s) (decDestination s) s.count.toNat ∧
      noOverwrite (decSource s) (decDestination s) s.count.toNat := by
  refine ⟨rfl, chunked_passesChecks, by decide +kernel, by decide +kernel, ?_, noOverwrite_of (by decide +kernel)⟩
  unfold bytesAdmitted
  decide +kernel

/-- In place, AVAIL exactly the physical length; for STREAM_ENC bytes are overwritten before they are read (V36). -/
theorem witness_StreamFollowsTheAccessOrder :
    let s : State := { chunked with avail := 38, dstAddr := 0x1000 }
    isBusy s = false ∧ passesChecks s ∧ blockIndexAt s (s.blkOff.toNat + s.count.toNat) < 2 ^ 64 ∧
      bytesAdmitted s.platform (encSource s) (encDestination s) s.count.toNat ∧
      physLength s s.count.toNat ≤ s.avail.toNat ∧
      bytesAdmitted s.platform (decSource s) (decDestination s) s.count.toNat := by
  refine ⟨rfl, chunked_passesChecks, by decide +kernel, ?_, by decide +kernel, ?_⟩ <;>
    unfold bytesAdmitted <;> decide +kernel

/-- The first byte is missing (V33), and the last byte is missing. -/
theorem witness_StreamDecShortRead :
    ∀ p ∈ [(0, (14 : Word)), (19, 37)],
      let s : State := { chunked with avail := p.2 }
      isBusy s = false ∧ passesChecks s ∧ p.1 < s.count.toNat ∧ (∀ w < p.1, physOffset s w < s.avail.toNat) ∧
        s.avail.toNat ≤ physOffset s p.1 ∧ blockIndexAt s (s.blkOff.toNat + p.1) < 2 ^ 64 ∧
        bytesAdmitted s.platform (decSource s) (decDestination s) p.1 ∧
        noOverwrite (decSource s) (decDestination s) p.1 := by
  intro p hp
  refine ⟨rfl, chunked_passesChecks, ?_⟩
  simp only [List.mem_cons, List.not_mem_nil, or_false] at hp
  rcases hp with rfl | rfl <;>
    refine ⟨by decide +kernel, by decide +kernel, by decide +kernel, by decide +kernel, ?_,
      noOverwrite_of (by decide +kernel)⟩ <;>
    unfold bytesAdmitted <;> decide +kernel

/-- The block of BlockIndex 2^64 - 1 completes at the last byte, and before it. -/
theorem witness_StreamOverflowKeepsTheBlock :
    ∀ n ∈ [20, 16],
      let s : State := { plain with ctr := lastBlock, blkOff := BitVec.ofNat 32 (32 - n) &&& 15, count := 20 }
      let b : State := if n = 20 then { s with ctr := #v[0, 0, 0xFFFFFFFF, 0xFFFFFFFE] } else s
      isBusy b = false ∧ passesChecks b ∧ n ≤ b.count.toNat ∧
        b.blkOff.toNat + n = 16 * (2 ^ 64 - (blockIndex b).toNat) ∧
        bytesAdmitted b.platform (encSource b) (encDestination b) n ∧
        noOverwrite (encSource b) (encDestination b) n ∧ physLength b n ≤ b.avail.toNat ∧
        bytesAdmitted b.platform (decSource b) (decDestination b) n ∧
        noOverwrite (decSource b) (decDestination b) n := by
  intro n hn
  simp only [List.mem_cons, List.not_mem_nil, or_false] at hn
  rcases hn with rfl | rfl <;>
    refine ⟨by decide +kernel, ?_, by decide +kernel, by decide +kernel, ?_, noOverwrite_of (by decide +kernel),
      by decide +kernel, ?_, noOverwrite_of (by decide +kernel)⟩ <;>
    simp only [bytesAdmitted, passesChecks] <;> decide +kernel

/-- The plain stream where one address refuses an access. -/
def refusing (a : Nat) (readable writable : Bool) : State :=
  { plain with platform := platformWith false false (everywhereBut a readable writable) }

/-- Refused reads and writes in the first iteration, and in the last byte of the second. -/
theorem witness_StreamEncBusError :
    ∀ n ∈ [0, 16],
      let r := refusing (if n = 0 then 0x100F else 0x1013) false true
      let w := refusing (if n = 0 then 0x200F else 0x2013) true false
      (isBusy r = false ∧ passesChecks r ∧ n < r.count.toNat ∧ iterationStart r n ∧
        blockIndexAt r (r.blkOff.toNat + n) < 2 ^ 64 ∧ bytesAdmitted r.platform (encSource r) (encDestination r) n ∧
        noOverwrite (encSource r) (encDestination r) n ∧
        ∃ k < iterationLength r n, admits r.platform (encSource r (n + k)) .read = false) ∧
      (isBusy w = false ∧ passesChecks w ∧ n < w.count.toNat ∧ iterationStart w n ∧
        blockIndexAt w (w.blkOff.toNat + n) < 2 ^ 64 ∧ bytesAdmitted w.platform (encSource w) (encDestination w) n ∧
        noOverwrite (encSource w) (encDestination w) n ∧
        (∀ k < iterationLength w n, admits w.platform (encSource w (n + k)) .read = true) ∧
        ∃ k < iterationLength w n, admits w.platform (encDestination w (n + k)) .write = false) := by
  intro n hn
  simp only [List.mem_cons, List.not_mem_nil, or_false] at hn
  rcases hn with rfl | rfl <;>
    refine ⟨⟨rfl, plain_passesChecks, by decide +kernel, ?_, by decide +kernel, ?_, noOverwrite_of (by decide +kernel),
      by decide +kernel⟩, rfl, plain_passesChecks, by decide +kernel, ?_, by decide +kernel, ?_,
      noOverwrite_of (by decide +kernel), by decide +kernel, by decide +kernel⟩ <;>
    simp only [bytesAdmitted, iterationStart] <;> decide +kernel

/-- The same for STREAM_DEC, the second iteration cut at AVAIL. -/
theorem witness_StreamDecBusError :
    ∀ n ∈ [0, 16],
      let r : State := { refusing (if n = 0 then 0x100F else 0x1011) false true with avail := 18 }
      let w : State := { refusing (if n = 0 then 0x200F else 0x2011) true false with avail := 18 }
      (isBusy r = false ∧ passesChecks r ∧ n < r.count.toNat ∧ iterationStart r n ∧
        physOffset r n < r.avail.toNat ∧ blockIndexAt r (r.blkOff.toNat + n) < 2 ^ 64 ∧
        bytesAdmitted r.platform (decSource r) (decDestination r) n ∧
        noOverwrite (decSource r) (decDestination r) n ∧
        ∃ k < min (iterationLength r n) (r.avail.toNat - physOffset r n),
          admits r.platform (decSource r (n + k)) .read = false) ∧
      (isBusy w = false ∧ passesChecks w ∧ n < w.count.toNat ∧ iterationStart w n ∧
        physOffset w n < w.avail.toNat ∧ blockIndexAt w (w.blkOff.toNat + n) < 2 ^ 64 ∧
        bytesAdmitted w.platform (decSource w) (decDestination w) n ∧
        noOverwrite (decSource w) (decDestination w) n ∧
        (∀ k < min (iterationLength w n) (w.avail.toNat - physOffset w n),
          admits w.platform (decSource w (n + k)) .read = true) ∧
        ∃ k < min (iterationLength w n) (w.avail.toNat - physOffset w n),
          admits w.platform (decDestination w (n + k)) .write = false) := by
  intro n hn
  simp only [List.mem_cons, List.not_mem_nil, or_false] at hn
  rcases hn with rfl | rfl <;>
    refine ⟨⟨rfl, plain_passesChecks, by decide +kernel, ?_, by decide +kernel, by decide +kernel, ?_,
      noOverwrite_of (by decide +kernel), by decide +kernel⟩, rfl, plain_passesChecks, by decide +kernel, ?_,
      by decide +kernel, by decide +kernel, ?_, noOverwrite_of (by decide +kernel), by decide +kernel,
      by decide +kernel⟩ <;>
    simp only [bytesAdmitted, iterationStart] <;> decide +kernel

/-- All four outcomes of the two clauses. -/
theorem witness_StreamCounterFollowsFloor :
    isBusy plain = false ∧ (∀ i s, exec i s = .next (after i s)) ∧
      (after .streamEnc { plain with count := 0 }).err = 0 ∧
      (after .streamDec { plain with avail := 0 }).err = 3 ∧
      (after .streamEnc (refusing 0x1000 false true)).err = 5 ∧
      (after .streamEnc { plain with ctr := lastBlock, blkOff := 15, count := 1 }).err = 1 :=
  ⟨rfl, exec_after, by decide +kernel, by decide +kernel, by decide +kernel, by decide +kernel⟩

/-- The byte before and the byte after the one destination byte. -/
theorem witness_StreamWritesOnlyItsBytes :
    let s : State := { plain with blkOff := 15, count := 1 }
    isBusy s = false ∧ exec .streamEnc s = .next (after .streamEnc s) ∧
      exec .streamDec s = .next (after .streamDec s) ∧
      ∀ a ∈ [0x1FFF, 0x2001],
        (∀ w < (after .streamEnc s).result.toNat, a ≠ encDestination s w) ∧
          ∀ w < (after .streamDec s).result.toNat, a ≠ decDestination s w :=
  ⟨rfl, exec_after _ _, exec_after _ _, by decide +kernel⟩

theorem witness_LayoutSkipsTagSlots :
    passesChecks chunked ∧ 0 < chunkBytes chunked ∧ (chunked.blkOff.toNat + 0 + 1) % 16 ≠ 0 :=
  ⟨chunked_passesChecks, by decide, by decide⟩

/-- Two bytes encrypted and decrypted back, across a tag. -/
theorem witness_StreamRoundTrip :
    let s : State := { chunked with c2bOff := 15, blkOff := 15, count := 2 }
    let t := after .streamEnc s
    let d : State :=
      { t with
        ctr := s.ctr
        srcAddr := s.dstAddr
        srcOff := s.dstOff
        dstAddr := 0x3000
        dstOff := 0
        avail := t.physPos }
    let u := after .streamDec d
    isBusy s = false ∧ passesChecks s ∧ noOverwrite (encSource s) (encDestination s) s.count.toNat ∧
      physLength s s.count.toNat < 2 ^ 32 ∧ exec .streamEnc s = .next t ∧ t.err = 0 ∧
      noOverwrite (decSource d) (decDestination d) s.count.toNat ∧ exec .streamDec d = .next u ∧ u.err ≠ 1 ∧
      u.err ≠ 5 := by
  refine ⟨rfl, by simp only [passesChecks]; decide, noOverwrite_of (by decide +kernel), by decide +kernel, exec_after _ _,
    by decide +kernel, noOverwrite_of (by decide +kernel), exec_after _ _, by decide +kernel, by decide +kernel⟩

/-- One byte and then one byte, across a chunk boundary: encrypted; decrypted after OK; decrypted after a SHORT_READ, for
want of the second chunk. -/
theorem witness_StreamEncResumes :
    (let s : State := { chunked with c2bOff := 15, blkOff := 15, count := 2 }
     let t₁ := after .streamEnc { s with count := 1 }
     let s₂ : State := { resumed s t₁ t₁.result.toNat (resumeAdvance s t₁) with count := 1 }
     isBusy s = false ∧ passesChecks s ∧ (1 : Word).toNat + (1 : Word).toNat < 2 ^ 32 ∧ s.count = 1 + 1 ∧
      noOverwrite (encSource s) (encDestination s) s.count.toNat ∧
      exec .streamEnc { s with count := 1 } = .next t₁ ∧ t₁.err = 0 ∧
      s.srcOff.toNat + t₁.result.toNat < 2 ^ 32 ∧ s.dstOff.toNat + resumeAdvance s t₁ < 2 ^ 32 ∧
      exec .streamEnc s₂ = .next (after .streamEnc s₂) ∧ (after .streamEnc s₂).err = 0 ∧
      exec .streamEnc s = .next (after .streamEnc s) ∧ (after .streamEnc s).err = 0) ∧
    ∀ c ∈ [((1 : Word), (40 : Word), (0 : BitVec 3)), (2, 20, 3)],
      let s : State := { chunked with c2bOff := 15, blkOff := 15, count := 2, avail := 40 }
      let t₁ := after .streamDec { s with count := c.1, avail := c.2.1 }
      let s₂ : State := { resumed s t₁ (resumeAdvance s t₁) t₁.result.toNat with count := 1, avail := 20 }
      isBusy s = false ∧ passesChecks s ∧ noOverwrite (decSource s) (decDestination s) s.count.toNat ∧
        exec .streamDec { s with count := c.1, avail := c.2.1 } = .next t₁ ∧ t₁.err = c.2.2 ∧
        t₁.result.toNat + (1 : Word).toNat < 2 ^ 32 ∧ s.count = t₁.result + 1 ∧ c.2.1.toNat ≤ s.avail.toNat ∧
        s.avail.toNat = resumeAdvance s t₁ + (20 : Word).toNat ∧
        s.srcOff.toNat + resumeAdvance s t₁ < 2 ^ 32 ∧ s.dstOff.toNat + t₁.result.toNat < 2 ^ 32 ∧
        exec .streamDec s₂ = .next (after .streamDec s₂) ∧ (after .streamDec s₂).err = 0 ∧
        exec .streamDec s = .next (after .streamDec s) ∧ (after .streamDec s).err = 0 := by
  refine ⟨⟨rfl, by simp only [passesChecks]; decide, by decide, by decide, noOverwrite_of (by decide +kernel),
    exec_after _ _, by decide +kernel, by decide +kernel, by decide +kernel, exec_after _ _, by decide +kernel,
    exec_after _ _, by decide +kernel⟩, fun c hc => ?_⟩
  simp only [List.mem_cons, List.not_mem_nil, or_false] at hc
  rcases hc with rfl | rfl <;>
    exact ⟨rfl, by simp only [passesChecks]; decide, noOverwrite_of (by decide +kernel), exec_after _ _,
      by decide +kernel, by decide +kernel, by decide +kernel, by decide, by decide +kernel, by decide +kernel,
      by decide +kernel, exec_after _ _, by decide +kernel, exec_after _ _, by decide +kernel⟩

/-! ### Rules of the whole machine -/

/-- An engine that encrypts one byte and is about to write it. -/
def writing : State :=
  { keyed (Vector.replicate 8 0) with
    seq := .busy
      { word := 6
        phase := .looping .enc (.writing
          { reads := [0x1000], writes := [(0x2000, 0xdc)], next := ⟨0, false, 1, 1⟩, advance := false }
          [(0x2000, 0xdc)] [])
        pending := [] }
    count := 1
    srcAddr := 0x1000
    dstAddr := 0x2000 }

theorem writing_inv : Inv writing where
  mem_wf := by decide
  outcome := by decide +kernel
  backend_present := by decide +kernel
  rk_expanded _ := ⟨_, rfl⟩
  key_cleared _ := rfl
  running := by
    rintro r ⟨rfl⟩
    simp only [runningConsistent, cellsAdmitted, stageConsistent]
    decide +kernel

/-- A keyed machine that has nothing to do. -/
theorem keyed_inv (ms : List Move) : Inv (scheduled ms (keyed (Vector.replicate 8 0))) where
  mem_wf := ⟨List.Pairwise.nil, nofun⟩
  outcome := List.mem_cons_self
  backend_present := rfl
  rk_expanded _ := ⟨_, rfl⟩
  key_cleared _ := rfl
  running := nofun

theorem witness_StepKeepsTheInvariant :
    (Inv writing ∧ ∃ t, step writing = .next t) ∧
      Inv (scheduled [.writeReg 0x04 .word 6] (keyed (Vector.replicate 8 0))) ∧
      ∃ t, step (scheduled [.writeReg 0x04 .word 6] (keyed (Vector.replicate 8 0))) = .next t :=
  ⟨⟨writing_inv, _, rfl⟩, keyed_inv _, _, rfl⟩

/-- A command that runs and an illegal word. -/
theorem witness_AtomicCommandEqualsInterleaved :
    ∀ w ∈ [(6 : Word), 0],
      isBusy plain = false ∧ ∃ t, step { plain with schedule := [.command w] } = .next t := by
  intro w hw
  simp only [List.mem_cons, List.not_mem_nil, or_false] at hw
  rcases hw with rfl | rfl
  · exact ⟨rfl, after .streamEnc plain, rfl⟩
  · exact ⟨rfl, _, rfl⟩

/-- A machine that is BUSY with an illegal word. -/
theorem illegal_inv : Inv (busyWith 8 ready) where
  mem_wf := by decide
  outcome := by decide +kernel
  backend_present := by decide +kernel
  rk_expanded := nofun
  key_cleared := nofun
  running := by
    rintro r ⟨rfl⟩
    simp only [runningConsistent, cellsAdmitted]
    decide +kernel

theorem witness_BusyEngineReachesIdle :
    (Inv writing ∧ writing.schedule = [] ∧ ∃ r, writing.seq = .busy r ∧ decode r.word = .ok .streamEnc) ∧
      Inv (busyWith 8 ready) ∧ (busyWith 8 ready).schedule = [] ∧
      ∃ r, (busyWith 8 ready).seq = .busy r ∧ decode r.word = .error .reservedOpcode :=
  ⟨⟨writing_inv, rfl, _, rfl, rfl⟩, illegal_inv, rfl, _, rfl, rfl⟩

theorem witness_CommandsWriteOnlyTheirSet :
    exec .keyExpand ready = .next (after .keyExpand ready) ∧ exec .encBlock ready = .next (after .encBlock ready) ∧
      (Instr.encBlock ≠ .ctrInc ∧ Instr.encBlock ≠ .streamEnc ∧ Instr.encBlock ≠ .streamDec) ∧
      Instr.keyExpand ≠ .encBlock ∧ Instr.encBlock ≠ .keyExpand ∧ ∀ arg, Instr.encBlock ≠ .selectBackend arg :=
  ⟨exec_after _ _, exec_after _ _, by decide, by decide, by decide, nofun⟩

theorem witness_CommandsCompleteWithListedOutcomes :
    isBusy ready = false ∧ isBusy (scheduled [.command 8] ready) = false ∧ decode 8 = .error .reservedOpcode ∧
      (scheduled [.command 8] ready).schedule = [.command 8] :=
  ⟨rfl, rfl, rfl, rfl⟩

/-- An atomic ENC_BATCH of one block writes 0xdc to 0x2000 (V12). -/
theorem witness_EngineWritesOnlyAdmittedBytes :
    let s : State := { scheduled [.command 4] (keyed (Vector.replicate 8 0)) with count := 1, dstAddr := 0x2000 }
    Inv s ∧ (∀ b v h rest, s.schedule ≠ .store b v h :: rest) ∧
      ∃ t, step s = .next t ∧ t.mem.read 0x2000 ≠ s.mem.read 0x2000 := by
  refine ⟨⟨by decide, by decide +kernel, by decide +kernel, fun _ => ⟨_, rfl⟩, fun _ => rfl, nofun⟩,
    nofun, after .encBatch { keyed (Vector.replicate 8 0) with count := 1, dstAddr := 0x2000 },
    rfl, by decide +kernel⟩

theorem witness_NonceChangesOnlyByHostOrReset :
    (∀ o ∈ ([0x40, 0x44] : List (BitVec 8)),
      let s := scheduled [.writeReg o .word 7] ready
      ∃ t, step s = .next t ∧ nonce t ≠ nonce s) ∧
    let s := scheduled [.reset []] { ready with ctr := lastBlock }
    ∃ t, step s = .next t ∧ nonce t ≠ nonce s := by
  refine ⟨fun o ho => ?_, _, rfl, by decide⟩
  simp only [List.mem_cons, List.not_mem_nil, or_false] at ho
  rcases ho with rfl | rfl <;> exact ⟨_, rfl, by decide⟩

/-- KEY_EXPAND sets RK_VALID and changes RK, in both forms of its CMD write; a reset changes RK. -/
theorem witness_ExpandedKeyComesOnlyFromKeyExpand :
    (let s := scheduled [.command 2] { ready with key := k1 }
     ∃ t, step s = .next t ∧ t.rk ≠ s.rk ∧ s.rkValid = false ∧ t.rkValid = true) ∧
    (∀ ms ∈ [[], [Move.engine]],
      let s := scheduled ms (busyWith 2 { ready with key := k1 })
      ∃ t, step s = .next t ∧ t.rk ≠ s.rk ∧ s.rkValid = false ∧ t.rkValid = true) ∧
    let s := scheduled [.reset []] (keyed k1)
    ∃ t, step s = .next t ∧ t.rk ≠ s.rk := by
  refine ⟨⟨after .keyExpand { ready with key := k1 }, rfl, by decide +kernel, rfl, rfl⟩, fun ms hm => ?_,
    ⟨_, rfl, by decide +kernel⟩⟩
  simp only [List.mem_cons, List.not_mem_nil, or_false] at hm
  rcases hm with rfl | rfl <;> exact ⟨_, rfl, by decide +kernel, rfl, rfl⟩

theorem witness_BackendSwitchClearsRkValid :
    let s := scheduled [.command 0x101] { valid with platform := platformWith true false everywhere }
    ∃ t, step s = .next t ∧ t.backend ≠ s.backend :=
  ⟨after (.selectBackend 1) { valid with platform := platformWith true false everywhere }, rfl, by decide +kernel⟩

theorem witness_ResetLeavesTheTable :
    (scheduled [.reset []] valid).schedule = [.reset []] ∧ isBusy (scheduled [.reset []] valid) = false ∧
      (scheduled [.reset [true]] writing).schedule = [.reset [true]] := by
  decide +kernel

/-- A reset while a byte is about to be written; and an iteration left alone while it writes and while it reads. -/
theorem witness_ResetDuringACommand :
    ((scheduled [.reset [true]] writing).schedule = [.reset [true]] ∧ ((iterationWrites writing).map Prod.fst).Nodup ∧
      (∀ c ∈ iterationWrites writing, c.1 ≠ 0x2001) ∧ (0x2000, 0xdc) ∈ iterationWrites writing) ∧
    ready.seq = .idle ∧
    (let p : Plan := { reads := [0x1000], writes := [(0x2000, 0xdc)], next := ⟨0, false, 1, 1⟩, advance := false }
     let running (stage : Stage) : Running := { word := 6, phase := .looping .enc stage, pending := [] }
     (running (.head ⟨0, true, 0, 0⟩)).phase = .looping .enc (.head ⟨0, true, 0, 0⟩) ∧
       writing.seq = .busy (running (.writing p [(0x2000, 0xdc)] [])) ∧ writing.schedule = [] ∧
       { writing with seq := .busy (running (.reading p [0x1000] [])) }.seq = .busy (running (.reading p [0x1000] [])) ∧
       ∀ c, Stage.writing p [(0x2000, 0xdc)] [] ≠ .head c ∧ Stage.reading p [0x1000] [] ≠ .head c) :=
  ⟨by decide +kernel, rfl, rfl, rfl, rfl, rfl, fun _ => ⟨nofun, nofun⟩⟩

/-- The addresses just below and above the register window, and the ends of the data space. -/
theorem witness_HostStoreThenLoad :
    (inWindow ready.platform (0 : Word).toNat = false ∧ inWindow ready.platform (0x3FFFFFFF : Word).toNat = false ∧
      inWindow ready.platform (0x40000100 : Word).toNat = false ∧
      inWindow ready.platform (0xFFFFFFFF : Word).toNat = false) ∧
    isBusy (scheduled [.store 0xFFFFFFFF 1 true, .load 0xFFFFFFFF true] ready) = false ∧
      (scheduled [.store 0xFFFFFFFF 1 true, .load 0xFFFFFFFF true] ready).schedule =
        [.store 0xFFFFFFFF 1 true, .load 0xFFFFFFFF true] := by
  decide +kernel

/-- A byte a finished iteration has written, a byte the iteration in progress has written, and a byte nothing has written;
and an iteration that is reading its source. -/
theorem witness_HostRacesWithABusyCommand :
    let p : Plan :=
      { reads := [0x1001, 0x1002], writes := [(0x2001, 0xdc), (0x2002, 0xdc)], next := ⟨0, false, 3, 3⟩, advance := false }
    let r : Running :=
      { word := 6, phase := .looping .enc (.writing p [(0x2002, 0xdc)] [(0x2001, 0xdc)]), pending := [(0x2000, 0xdc)] }
    let q : Running := { r with phase := .looping .enc (.reading p [0x1002] [0]) }
    let s : State := { valid with seq := .busy r }
    s.seq = .busy r ∧ { s with seq := .busy q }.seq = .busy q ∧
      (inWindow s.platform (0x2000 : Word).toNat = false ∧ inWindow s.platform (0x2001 : Word).toNat = false ∧
        inWindow s.platform (0x2003 : Word).toNat = false) ∧
      (∀ (a : Word) (b : Bool), (scheduled [.load a b] s).schedule = [.load a b] ∧
        (scheduled [.store a 1 b] s).schedule = [.store a 1 b]) ∧
      (∃ c ∈ r.pending, c.1 = (0x2000 : Word).toNat) ∧ (∃ c ∈ writtenSoFar s, c.1 = (0x2001 : Word).toNat) ∧
      (∀ c ∈ r.pending, c.1 ≠ (0x2001 : Word).toNat) ∧ (∀ c ∈ writtenSoFar s, c.1 ≠ (0x2003 : Word).toNat) ∧
      (s.schedule = [] ∧ (scheduled [.engine] s).schedule = [.engine] ∧ ready.seq = .idle) ∧
      isBusy (scheduled [.writeReg 0x04 .word 6] ready) = false ∧
      (scheduled [.writeReg 0x04 .word 6] ready).schedule = [.writeReg 0x04 .word 6] ∧
      r.phase = .looping .enc (.writing p [(0x2002, 0xdc)] [(0x2001, 0xdc)]) ∧
      q.phase = .looping .enc (.reading p [0x1002] [0]) :=
  ⟨rfl, rfl, ⟨by decide, by decide, by decide⟩, fun _ _ => ⟨rfl, rfl⟩, ⟨_, List.mem_cons_self, rfl⟩,
    ⟨(0x2001, 0xdc), List.mem_cons_of_mem _ List.mem_cons_self, rfl⟩, by decide, by decide,
    ⟨rfl, rfl, rfl⟩, rfl, rfl, rfl, rfl⟩

theorem witness_IdleEngineWaits :
    (isBusy ready = false ∧ ready.schedule = []) ∧
    ∀ m ∈ [Move.engine, .readReg 0x08 .word, .load 0x1000 true, .store 0x1000 1 true],
      isBusy (scheduled [m] ready) = false ∧ (scheduled [m] ready).schedule = [m] ∧ (∀ w, m ≠ .command w) ∧
        (∀ o z v, m ≠ .writeReg o z v) ∧ (∀ l, m ≠ .reset l) ∧ ∃ t, step (scheduled [m] ready) = .next t := by
  refine ⟨⟨rfl, rfl⟩, fun m hm => ?_⟩
  simp only [List.mem_cons, List.not_mem_nil, or_false] at hm
  rcases hm with rfl | rfl | rfl | rfl <;>
    exact ⟨rfl, rfl, nofun, nofun, nofun, _, rfl⟩

end Sys2Proof.Tests
end

/-! SUPPORT. Every step keeps the invariant of the machine: first what establishes it (completion), then the engine's
micro-steps, then the host's moves. -/

namespace Sys2Proof.Machine

/-- The part of the invariant that speaks of the backend and of the keys. -/
structure KeysConsistent (s : State) : Prop where
  backend_present : backendPresent s.platform s.backend = true
  rk_expanded : s.rkValid = true → ∃ key, s.rk = expandKey key
  key_cleared : s.rkValid = true → s.key = Vector.replicate 8 0

theorem Inv.keysConsistent {s : State} (h : Inv s) : KeysConsistent s :=
  ⟨h.backend_present, h.rk_expanded, h.key_cleared⟩

/-- Stores of admitted bytes keep the canonical form (20_memory.md R60, R61). -/
theorem Memory.wf_writeAll_admitted (p : Platform) (m : Memory) (cs : List Host.Cell) (hm : m.wf)
    (hcs : cellsAdmitted p cs) : (m.writeAll cs).wf :=
  Memory.wf_writeAll m cs hm fun c hc => lt_of_admit p c.1 .write (hcs c hc)

theorem Inv.pendingWrites_admitted {s : State} (h : Inv s) : cellsAdmitted s.platform (pendingWrites s) := by
  cases hq : s.seq with
  | idle => simp [pendingWrites, hq, cellsAdmitted]
  | busy r =>
    obtain ⟨_, _, _, hpending, _⟩ := h.running r hq
    simpa [pendingWrites, hq] using hpending

theorem Inv.engineView_wf {s : State} (h : Inv s) : (engineView s).wf :=
  Memory.wf_writeAll_admitted s.platform s.mem _ h.mem_wf h.pendingWrites_admitted

/-! ### Completion and the single-step commands -/

/-- Completion establishes the invariant: the outcome is listed and nothing is in progress. -/
theorem inv_complete (o : Completion) (result phys : Nat) (s : State) (hk : KeysConsistent s)
    (hm : (engineView s).wf) : Inv (complete o result phys s) where
  mem_wf := hm
  outcome := outcome_mem_outcomeTable o
  backend_present := hk.backend_present
  rk_expanded := hk.rk_expanded
  key_cleared := hk.key_cleared
  running := by simp

theorem Inv.after_complete {s : State} (h : Inv s) (o : Completion) (result phys : Nat) :
    Inv (complete o result phys s) :=
  inv_complete o result phys s h.keysConsistent h.engineView_wf

theorem counterAndMemoryOnly.keysConsistent {s t : State} (h : counterAndMemoryOnly s t) (hk : KeysConsistent s) :
    KeysConsistent t := by
  rw [h.1]
  exact ⟨hk.backend_present, hk.rk_expanded, hk.key_cleared⟩

theorem counterAndMemoryOnly.pendingWrites_eq {s t : State} (h : counterAndMemoryOnly s t) :
    pendingWrites t = pendingWrites s := by
  rw [h.1]; rfl

theorem engineView_of_no_pending (s : State) (h : pendingWrites s = []) : engineView s = s.mem := by
  rw [engineView, h, Memory.writeAll_nil]

theorem advanceBlock_mem (p : Plan) (s t : State) (h : advanceBlock p s = .ok t) : t.mem = s.mem := by
  rcases advanceBlock_cases p s with ⟨_, ha⟩ | ⟨_, _, ha⟩ | ⟨_, _, ha⟩ <;> rw [ha] at h <;> cases h <;> rfl

/-- An iteration whose plan writes admitted bytes keeps the canonical form. -/
theorem performPlan_mem_wf (p : Plan) (s : State) (hp : planConsistent s.platform p) (hm : s.mem.wf) :
    (performPlan p s).mem.wf :=
  Memory.wf_writeAll_admitted s.platform _ _ hm (cellsAdmitted_xorSource _ _ _ hp.2)

/-- A loop run atomically ends in a consistent machine. -/
theorem inv_runLoop (l : Loop) (n : Nat) (c : Cursors) (s : State) (hk : KeysConsistent s)
    (hp : pendingWrites s = []) (hm : s.mem.wf) : Inv (runLoop (loopHead l) n c s) := by
  have ends : ∀ o result phys u, counterAndMemoryOnly s u → u.mem.wf → Inv (complete o result phys u) := by
    intro o result phys u hu hum
    refine inv_complete _ _ _ _ (hu.keysConsistent hk) ?_
    rwa [engineView_of_no_pending u (hu.pendingWrites_eq.trans hp)]
  obtain ⟨m, u, d, ⟨hu, hum⟩, h0, h1⟩ := runLoop_exit (loopHead l)
    (fun _ u _ => counterAndMemoryOnly s u ∧ u.mem.wf)
    (fun _ u d p t ⟨hu, hum⟩ hgo hok =>
      ⟨counterAndMemoryOnly_trans _ _ _ (counterAndMemoryOnly_trans _ _ _ hu (performPlan_frame p u))
          (advanceBlock_frame _ _ _ hok),
        advanceBlock_mem _ _ _ hok ▸ performPlan_mem_wf p u (loopHead_consistent l u d p hgo) hum⟩)
    n c s ⟨counterAndMemoryOnly_refl s, hm⟩
  by_cases hz : m = 0
  · exact h0 hz ▸ ends _ _ _ u hu hum
  · rcases h1 hz with ⟨o, phys, _, h⟩ | ⟨p, o, hgo, _, h⟩
    · exact h ▸ ends _ _ _ u hu hum
    · exact h ▸ ends _ _ _ _ (counterAndMemoryOnly_trans _ _ _ hu (performPlan_frame p u))
        (performPlan_mem_wf p u (loopHead_consistent l u d p hgo) hum)

theorem commandBody_loopInstr (l : Loop) :
    commandBody (loopInstr l) = runLoopCommand (loopStart l) (loopHead l) := by
  cases l <;> rfl

/-- A whole command, run on an engine that has just accepted it, ends in a consistent machine. -/
theorem inv_commandBody (i : Instr) (s : State) (hk : KeysConsistent s) (hp : pendingWrites s = []) (hm : s.mem.wf) :
    Inv (commandBody i s) := by
  have view : ∀ u : State, u.mem = s.mem → u.seq = s.seq → (engineView u).wf := by
    intro u hum huq
    rwa [engineView_of_no_pending u (by simpa only [pendingWrites, huq] using hp), hum]
  have loop : ∀ l, Inv (commandBody (loopInstr l) s) := by
    intro l
    rw [commandBody_loopInstr, runLoopCommand]
    split
    · exact inv_complete _ _ _ _ hk (view s rfl rfl)
    · exact inv_runLoop _ _ _ _ hk hp hm
  cases i with
  | selectBackend arg =>
    simp only [commandBody, selectBackendBody]
    split
    · exact inv_complete _ _ _ _ hk (view s rfl rfl)
    · split
      · rename_i hb
        exact inv_complete _ _ _ _ ⟨hb, nofun, nofun⟩ (view _ rfl rfl)
      · exact inv_complete _ _ _ _ hk (view s rfl rfl)
  | keyExpand =>
    exact inv_complete _ _ _ _ ⟨hk.backend_present, fun _ => ⟨s.key, rfl⟩, fun _ => rfl⟩ (view _ rfl rfl)
  | encBlock =>
    simp only [commandBody, encBlockBody]
    split
    · exact inv_complete _ _ _ _ ⟨hk.backend_present, hk.rk_expanded, hk.key_cleared⟩ (view _ rfl rfl)
    · exact inv_complete _ _ _ _ hk (view s rfl rfl)
  | ctrInc =>
    simp only [commandBody, ctrIncBody]
    split
    · exact inv_complete _ _ _ _ ((setBlockIndex_frame s _).keysConsistent hk) (view _ rfl rfl)
    · exact inv_complete _ _ _ _ hk (view s rfl rfl)
  | encBatch => exact loop .batch
  | streamEnc => exact loop .enc
  | streamDec => exact loop .dec

/-! ### The engine's micro-steps -/

/-- Another sequencer state may stand in the place of the present one if it is consistent with the registers. -/
theorem Inv.after_setSeq {s : State} (h : Inv s) (q : Seq) (hq : ∀ r, q = .busy r → runningConsistent s r) :
    Inv { s with seq := q } :=
  ⟨h.mem_wf, h.outcome, h.backend_present, h.rk_expanded, h.key_cleared, hq⟩

theorem Inv.after_setBlockIndex {s : State} (h : Inv s) (b : BitVec 64) : Inv (setBlockIndex s b) :=
  ⟨h.mem_wf, h.outcome, h.backend_present, h.rk_expanded, h.key_cleared, h.running⟩

theorem Inv.after_advanceBlock {p : Plan} {s t : State} (h : Inv s) (ha : advanceBlock p s = .ok t) : Inv t := by
  rcases advanceBlock_cases p s with ⟨_, hc⟩ | ⟨_, _, hc⟩ | ⟨_, _, hc⟩ <;> rw [hc] at ha <;> cases ha
  · exact h
  · exact h.after_setBlockIndex _

/-- A running command may move to any consistent stage of its own loop. -/
theorem Inv.after_enterStage {s : State} (h : Inv s) (r : Running) (l : Loop) (stage : Stage)
    (hr : runningConsistent s { r with phase := .looping l stage }) : Inv (enterStage r l stage s) :=
  h.after_setSeq _ fun _ hq => by cases hq; exact hr

theorem beginLoop_keeps_inv (r : Running) (l : Loop) (s : State) (h : Inv s) (hr : runningConsistent s r)
    (hl : decode r.word = .ok (loopInstr l)) : Inv (beginLoop r l s) := by
  rw [beginLoop]
  split
  · exact h.after_complete _ _ _
  · rename_i c hc
    obtain ⟨hvalid, hbo, _, _⟩ := loopStart_ok l s c hc
    obtain ⟨hdone, herr, hcause, hpending, _⟩ := hr
    exact h.after_enterStage r l _ ⟨hdone, herr, hcause, hpending, hvalid, hl, hbo⟩

theorem beginCommand_keeps_inv (r : Running) (s : State) (h : Inv s) (hq : s.seq = .busy r) (hp : r.phase = .accepted) :
    Inv (beginCommand r s) := by
  have hr := h.running r hq
  rcases beginCommand_cases r s with ⟨e, _, hb⟩ | ⟨l, hl, hb⟩ | ⟨i, _, _, hb⟩
  · exact hb ▸ h.after_complete _ _ _
  · exact hb ▸ beginLoop_keeps_inv r l s h hr hl
  · obtain ⟨_, _, _, _, hphase⟩ := hr
    rw [hp] at hphase
    exact hb ▸ inv_commandBody i s h.keysConsistent (by simpa [pendingWrites, hq] using hphase) h.mem_wf

/-- A loop may move from any of its stages to any consistent one. -/
theorem Inv.after_enterNext {s : State} (h : Inv s) {r : Running} {l : Loop} {stage : Stage} (hq : s.seq = .busy r)
    (hp : r.phase = .looping l stage) (next : Stage) (hnext : stageConsistent s.platform next) :
    Inv (enterStage r l next s) := by
  obtain ⟨hdone, herr, hcause, hpending, hphase⟩ := h.running r hq
  simp only [hp] at hphase
  obtain ⟨hvalid, hl, _⟩ := hphase
  exact h.after_enterStage r l next ⟨hdone, herr, hcause, hpending, hvalid, hl, hnext⟩

/-- The end of an iteration: its bytes join those of the finished iterations, and the loop goes on or completes. -/
theorem endIteration_keeps_inv (r : Running) (l : Loop) (p : Plan) (written : List Host.Cell) (s : State) (h : Inv s)
    (hq : s.seq = .busy r) (hp : r.phase = .looping l (.writing p [] written)) :
    Inv (endIteration r l p written s) := by
  have hr := h.running r hq
  simp only [runningConsistent, hp] at hr
  obtain ⟨hdone, herr, hcause, hpending, hvalid, hl, hbo, htodo, hwritten⟩ := hr
  have hjoined : cellsAdmitted s.platform (r.pending ++ written) := cellsAdmitted_append _ _ _ hpending hwritten
  have hs : Inv { s with seq := .busy { r with pending := r.pending ++ written } } := by
    refine h.after_setSeq _ fun r' hr' => ?_
    cases hr'
    simp only [runningConsistent, hp]
    exact ⟨hdone, herr, hcause, hjoined, hvalid, hl, hbo, htodo, hwritten⟩
  rw [endIteration]
  split
  · exact hs.after_complete _ _ _
  · rename_i t ht
    have hseq : t.seq = .busy { r with pending := r.pending ++ written } := by
      rw [(advanceBlock_frame _ _ _ ht).1]
    exact (hs.after_advanceBlock ht).after_enterNext hseq hp _ hbo

/-- One micro-step of a loop: every stage leads to a consistent one, or to completion. -/
theorem loopStep_keeps_inv (r : Running) (l : Loop) (stage : Stage) (s : State) (h : Inv s) (hq : s.seq = .busy r)
    (hp : r.phase = .looping l stage) : Inv (loopStep r l stage s) := by
  have enter := h.after_enterNext hq hp
  have hstage : stageConsistent s.platform stage := by
    obtain ⟨_, _, _, _, hphase⟩ := h.running r hq
    simp only [hp] at hphase
    obtain ⟨_, _, hstage⟩ := hphase
    exact hstage
  match stage, hp, hstage with
  | .head c, _, _ =>
    simp only [loopStep]
    split
    · exact h.after_complete _ _ _
    · rename_i p hgo
      exact enter _ (loopHead_consistent l s c p hgo)
  | .reading p (a :: todo) got, _, hc => exact enter _ hc
  | .reading p [] got, _, ⟨hbo, hwrites⟩ =>
    exact enter _ ⟨hbo, cellsAdmitted_xorSource _ _ _ hwrites, by simp [cellsAdmitted]⟩
  | .writing p (c :: todo) written, _, ⟨hbo, htodo, hwritten⟩ =>
    refine enter _ ⟨hbo, fun d hd => htodo d (List.mem_cons_of_mem _ hd), cellsAdmitted_append _ _ _ hwritten ?_⟩
    simpa [cellsAdmitted] using htodo c List.mem_cons_self
  | .writing p [] written, hp, _ => exact endIteration_keeps_inv r l p written s h hq hp

theorem engineStep_keeps_inv (s : State) (h : Inv s) : Inv (engineStep s) := by
  rcases engineStep_cases s with ⟨_, he⟩ | ⟨r, hq, hp, he⟩ | ⟨r, l, stage, hq, hp, he⟩
  · rwa [he]
  · exact he ▸ beginCommand_keeps_inv r s h hq hp
  · exact he ▸ loopStep_keeps_inv r l stage s h hq hp

/-! ### The host's moves -/

theorem accept_keeps_inv (w : Word) (s : State) (h : Inv s) : Inv (accept w s) where
  mem_wf := h.mem_wf
  outcome := List.mem_cons_self
  backend_present := h.backend_present
  rk_expanded := h.rk_expanded
  key_cleared := h.key_cleared
  running := by
    intro r hr
    cases hr
    exact ⟨rfl, rfl, rfl, by simp [cellsAdmitted], rfl⟩

/-- A command word run atomically keeps the invariant if its body, run on the accepted engine, ends in it. -/
theorem runCommand_keeps_inv (w : Word) (body : State → State) (s : State) (h : Inv s) (hb : Inv (body (accept w s))) :
    Inv (runCommand w body s) := by
  cases hbusy : isBusy s with
  | true => rwa [runCommand_busy _ _ _ hbusy]
  | false => rwa [runCommand_idle _ _ _ hbusy]

/-- A host write to an IDLE engine keeps the invariant: a KEY write clears RK_VALID, a CMD write clears the outcome. -/
theorem writeRegisterIdle_keeps_inv (r : Reg) (v : Word) (s : State) (h : Inv s) (hidle : isBusy s = false) :
    Inv (writeRegisterIdle r v s) := by
  have notRunning : ∀ r, s.seq ≠ .busy r := by simp [seq_of_not_busy s hidle]
  cases r with
  | cmd => exact accept_keeps_inv v s h
  | status =>
    rw [writeRegisterIdle]
    split
    · exact ⟨h.mem_wf, h.outcome, h.backend_present, h.rk_expanded, h.key_cleared,
        fun r hr => absurd hr (notRunning r)⟩
    · exact h
  | key i =>
    exact ⟨h.mem_wf, h.outcome, h.backend_present, nofun, nofun, fun r hr => absurd hr (notRunning r)⟩
  | _ => exact ⟨h.mem_wf, h.outcome, h.backend_present, h.rk_expanded, h.key_cleared, h.running⟩

theorem writeRegister_keeps_inv (r : Reg) (v : Word) (s : State) (h : Inv s) : Inv (writeRegister r v s) := by
  by_cases hr : r = .ctrl
  · subst hr
    rw [writeRegister_ctrl]
    exact ⟨h.mem_wf, h.outcome, h.backend_present, h.rk_expanded, h.key_cleared, h.running⟩
  · cases hbusy : isBusy s with
    | true => rwa [writeRegister_busy r v s hbusy hr]
    | false => rw [writeRegister_idle r v s hbusy]; exact writeRegisterIdle_keeps_inv r v s h hbusy

theorem writeWindow_keeps_inv (offset : BitVec 8) (v : Word) (s : State) (h : Inv s) : Inv (writeWindow offset v s) := by
  rw [writeWindow]
  split
  · exact h
  · exact writeRegister_keeps_inv _ v s h

theorem Inv.after_setReported {s : State} (h : Inv s) (reported : List Word) (draws : Nat) :
    Inv { s with reported := reported, draws := draws } :=
  ⟨h.mem_wf, h.outcome, h.backend_present, h.rk_expanded, h.key_cleared, h.running⟩

theorem cellsAdmitted_filter (p : Platform) (cs : List Host.Cell) (keep : Host.Cell → Bool) (h : cellsAdmitted p cs) :
    cellsAdmitted p (cs.filter keep) :=
  fun c hc => h c (List.mem_filter.mp hc).1

/-- Losing the engine's write of one byte leaves a running command consistent. -/
theorem runningConsistent_dropWrite (a : Nat) (r : Running) (s : State) (h : runningConsistent s r) :
    runningConsistent s (dropWrite a r) := by
  obtain ⟨hdone, herr, hcause, hpending, hphase⟩ := h
  have hkept := cellsAdmitted_filter s.platform r.pending (fun c => c.1 != a) hpending
  obtain ⟨w, phase, pending⟩ := r
  match phase, hphase with
  | .looping l (.writing p todo written), ⟨hvalid, hl, hbo, htodo, hwritten⟩ =>
    exact ⟨hdone, herr, hcause, hkept, hvalid, hl, hbo, htodo, cellsAdmitted_filter _ _ _ hwritten⟩
  | .looping l (.reading p todo got), hphase => exact ⟨hdone, herr, hcause, hkept, hphase⟩
  | .looping l (.head c), hphase => exact ⟨hdone, herr, hcause, hkept, hphase⟩
  | .accepted, hphase => exact ⟨hdone, herr, hcause, hkept, by simp [dropWrite, show pending = [] from hphase]⟩

theorem storeByte_keeps_inv (a : Word) (v : Byte) (hostWins : Bool) (s : State) (h : Inv s) :
    Inv (storeByte a.toNat v hostWins s) where
  mem_wf := Memory.wf_write _ _ _ h.mem_wf a.isLt
  outcome := h.outcome
  backend_present := h.backend_present
  rk_expanded := h.rk_expanded
  key_cleared := h.key_cleared
  running := by
    intro r hr
    cases hq : s.seq with
    | idle => simp [hq, seqAfterStore] at hr
    | busy q =>
      have hrun := h.running q hq
      cases hostWins with
      | false =>
        simp only [storeByte_seq, hq, seqAfterStore, Bool.false_eq_true, if_false, Seq.busy.injEq] at hr
        exact hr ▸ hrun
      | true =>
        simp only [storeByte_seq, hq, seqAfterStore, if_true, Seq.busy.injEq] at hr
        exact hr ▸ runningConsistent_dropWrite a.toNat q s hrun

theorem mem_of_mem_landedCells (cs : List Host.Cell) (landed : List Bool) (c : Host.Cell)
    (h : c ∈ landedCells cs landed) : c ∈ cs := by
  induction cs generalizing landed with
  | nil => simp [landedCells] at h
  | cons d ds ih =>
    cases landed with
    | nil => simp [landedCells] at h
    | cons b bs =>
      cases b with
      | false => exact List.mem_cons_of_mem _ (ih bs h)
      | true =>
        rcases List.mem_cons.mp h with rfl | h
        · exact List.mem_cons_self
        · exact List.mem_cons_of_mem _ (ih bs h)

/-- The bytes of the iteration in progress are admitted (20_memory.md R66). -/
theorem Inv.iterationWrites_admitted {s : State} (h : Inv s) : cellsAdmitted s.platform (iterationWrites s) := by
  have none : cellsAdmitted s.platform [] := by simp [cellsAdmitted]
  cases hq : s.seq with
  | idle => simpa only [iterationWrites, hq] using none
  | busy r =>
    have hr := h.running r hq
    obtain ⟨w, phase, pending⟩ := r
    obtain ⟨_, _, _, _, hphase⟩ := hr
    simp only [iterationWrites, hq]
    match phase, hphase with
    | .accepted, _ => exact none
    | .looping l (.head c), _ => exact none
    | .looping l (.reading p todo got), ⟨_, _, _, hwrites⟩ => exact cellsAdmitted_xorSource _ _ _ hwrites
    | .looping l (.writing p todo written), ⟨_, _, _, htodo, hwritten⟩ =>
      exact cellsAdmitted_append _ _ _ hwritten htodo

theorem resetEngine_keeps_inv (landed : List Bool) (s : State) (h : Inv s) : Inv (resetEngine landed s) where
  mem_wf := Memory.wf_writeAll_admitted s.platform _ _ h.engineView_wf fun c hc =>
    h.iterationWrites_admitted c (mem_of_mem_landedCells _ _ _ hc)
  outcome := List.mem_cons_self
  backend_present := rfl
  rk_expanded := nofun
  key_cleared := nofun
  running := nofun

theorem perform_keeps_inv (m : Move) (s t : State) (h : Inv s) (hm : perform m s = .next t) : Inv t := by
  have haccept := fun w => accept_keeps_inv w s h
  rcases perform_next_cases m s t hm with ⟨_, rfl⟩ | ⟨w, i, _, _, rfl⟩ | ⟨w, e, _, _, rfl⟩ | ⟨offset, v, _, _, rfl⟩ |
    ⟨offset, _, _, rfl⟩ | ⟨a, v, hostWins, _, _, rfl⟩ | ⟨a, engineValue, _, _, rfl⟩ | ⟨landed, _, rfl⟩
  · exact engineStep_keeps_inv s h
  · exact runCommand_keeps_inv _ _ _ h (inv_commandBody i _ (haccept _).keysConsistent rfl h.mem_wf)
  · exact runCommand_keeps_inv _ _ _ h ((haccept w).after_complete _ _ _)
  · exact writeWindow_keeps_inv offset v s h
  · rw [readWindow_frame]; exact h.after_setReported _ _
  · exact storeByte_keeps_inv a v hostWins s h
  · exact h.after_setReported _ _
  · exact resetEngine_keeps_inv landed s h

/-- Settles O44: the engine's micro-step and each move keep the invariant. -/
theorem stepKeepsTheInvariant : Obligations.StepKeepsTheInvariant := by
  intro s t h hstep
  rcases step_next_cases s t hstep with ⟨_, rfl⟩ | ⟨m, rest, _, hm⟩
  · exact engineStep_keeps_inv s h
  · exact perform_keeps_inv m { s with schedule := rest } t
      ⟨h.mem_wf, h.outcome, h.backend_present, h.rk_expanded, h.key_cleared, h.running⟩ hm

end Sys2Proof.Machine

/-! SUPPORT. What each command writes (spec/10_state.md R41), and which steps touch the expanded key, RK_VALID or the
backend (spec/41_key_schedule.md R152, spec/44_backend_select.md R231). -/

namespace Sys2Proof.Machine

/-! ### What each command writes -/

/-- `t` is `s` but for what command `i` writes before it completes, and the Nonce is the same (10_state.md R41). -/
def differsByWriteSet (i : Instr) (s t : State) : Prop :=
  (match i with
    | .selectBackend _ => t = { s with backend := t.backend, rkValid := t.rkValid }
    | .keyExpand => t = { s with key := t.key, rk := t.rk, rkValid := t.rkValid }
    | .encBlock => t = { s with dout := t.dout }
    | .encBatch => t = { s with mem := t.mem }
    | .ctrInc => t = { s with ctr := t.ctr }
    | .streamEnc => t = { s with ctr := t.ctr, mem := t.mem }
    | .streamDec => t = { s with ctr := t.ctr, mem := t.mem }) ∧
  t.ctr[0] = s.ctr[0] ∧ t.ctr[1] = s.ctr[1]

theorem differsByWriteSet_refl (i : Instr) (s : State) : differsByWriteSet i s s := by
  cases i <;> exact ⟨rfl, rfl, rfl⟩

/-- Every command is a change of its own write set, followed by completion (`commandBody_completes`, command by
command). -/
theorem commandBody_writeSet (i : Instr) (s : State) :
    ∃ o result phys u, commandBody i s = complete o result phys u ∧ differsByWriteSet i s u := by
  have unchanged := differsByWriteSet_refl i s
  cases i with
  | selectBackend arg =>
    simp only [commandBody, selectBackendBody]
    split
    · exact ⟨_, _, _, s, rfl, unchanged⟩
    · split
      · exact ⟨_, _, _, _, rfl, rfl, rfl, rfl⟩
      · exact ⟨_, _, _, s, rfl, unchanged⟩
  | keyExpand => exact ⟨_, _, _, _, rfl, rfl, rfl, rfl⟩
  | encBlock =>
    simp only [commandBody, encBlockBody]
    split
    · exact ⟨_, _, _, _, rfl, rfl, rfl, rfl⟩
    · exact ⟨_, _, _, s, rfl, unchanged⟩
  | encBatch =>
    obtain ⟨o, result, phys, u, h, hu⟩ := encBatch_frame s
    exact ⟨o, result, phys, u, h, hu, by rw [hu], by rw [hu]⟩
  | ctrInc =>
    simp only [commandBody, ctrIncBody]
    split
    · exact ⟨_, _, _, _, rfl, rfl, rfl, rfl⟩
    · exact ⟨_, _, _, s, rfl, unchanged⟩
  | streamEnc => exact runLoopCommand_frame streamStart streamEncHead s
  | streamDec => exact runLoopCommand_frame streamStart streamDecHead s

/-- On an IDLE engine a command ends as the completion of a change of its write set, made on the accepted engine. -/
theorem exec_idle_writeSet (i : Instr) (s t : State) (hidle : isBusy s = false) (h : exec i s = .next t) :
    ∃ o result phys u, t = complete o result phys u ∧ differsByWriteSet i (accept (encode i) s) u := by
  obtain ⟨o, result, phys, u, hc, hu⟩ := commandBody_writeSet i (accept (encode i) s)
  rw [exec_idle i s hidle, hc] at h
  cases h
  exact ⟨o, result, phys, u, rfl, hu⟩

/-- Settles O49: each command's write set, read off its change before completion. -/
theorem commandsWriteOnlyTheirSet : Obligations.CommandsWriteOnlyTheirSet := by
  intro i s t h
  cases hbusy : isBusy s with
  | true =>
    rw [exec_busy i s hbusy] at h
    cases h
    simp
  | false =>
    obtain ⟨o, result, phys, u, rfl, hu, h0, h1⟩ := exec_idle_writeSet i s t hbusy h
    cases i
    all_goals
      simp only at hu
      rw [hu]
      simp [engineView, pendingWrites, h0, h1]

/-! ### Which steps touch the expanded key or the backend -/

/-- `t` has the backend and the expanded key of `s`, and RK_VALID is not newly set. -/
def keepsKeys (s t : State) : Prop :=
  t.platform = s.platform ∧ t.backend = s.backend ∧ t.rk = s.rk ∧ (t.rkValid = true → s.rkValid = true)

theorem keepsKeys_refl (s : State) : keepsKeys s s := ⟨rfl, rfl, rfl, id⟩

/-- What a command can do to the expanded key and the backend (41_key_schedule.md R152, 44_backend_select.md R231). -/
def keyEffect : Instr → State → State → Prop
  | .keyExpand, s, t =>
    t.backend = s.backend ∧ t.rk = expandKey s.key ∧ t.rkValid = true ∧ t.key = Vector.replicate 8 0 ∧
      t.done = true ∧ t.err = 0
  | .selectBackend _, s, t =>
    keepsKeys s t ∨ t.rk = s.rk ∧ t.rkValid = false ∧ backendPresent t.platform t.backend = true
  | _, s, t => keepsKeys s t

theorem commandBody_keyEffect (i : Instr) (s : State) : keyEffect i s (commandBody i s) := by
  have keeps : ∀ o result phys u, u.platform = s.platform → u.backend = s.backend → u.rk = s.rk →
      u.rkValid = s.rkValid → keepsKeys s (complete o result phys u) :=
    fun _ _ _ _ hp hb hrk hv => ⟨hp, hb, hrk, fun h => hv.symm.trans h⟩
  obtain ⟨o, result, phys, u, h, hu, _⟩ := commandBody_writeSet i s
  cases i with
  | keyExpand => exact ⟨rfl, rfl, rfl, rfl, rfl, rfl⟩
  | selectBackend arg =>
    simp only [keyEffect, commandBody, selectBackendBody]
    split
    · exact .inl (keeps _ _ _ s rfl rfl rfl rfl)
    · split
      · rename_i hpresent
        exact .inr ⟨rfl, rfl, hpresent⟩
      · exact .inl (keeps _ _ _ s rfl rfl rfl rfl)
  | _ => rw [h, hu]; exact keeps _ _ _ _ rfl rfl rfl rfl

/-- The effect speaks of the backend and the keys before it alone. -/
theorem keyEffect_congr {i : Instr} {s u t : State} (h : keyEffect i u t) (hplatform : u.platform = s.platform)
    (hbackend : u.backend = s.backend) (hkey : u.key = s.key) (hrk : u.rk = s.rk) (hvalid : u.rkValid = s.rkValid) :
    keyEffect i s t := by
  cases i <;> simpa only [keyEffect, keepsKeys, hplatform, hbackend, hkey, hrk, hvalid] using h

theorem loopFrame.keepsKeys {s t : State} (h : loopFrame s t) : keepsKeys s t := by
  rw [h.1]
  exact ⟨rfl, rfl, rfl, id⟩

/-- A micro-step of the engine leaves the keys and the backend alone but where it runs an accepted command whole. -/
theorem engineStep_keys (s : State) :
    keepsKeys s (engineStep s) ∨
    ∃ r i, s.seq = .busy r ∧ r.phase = .accepted ∧ decode r.word = .ok i ∧ keyEffect i s (engineStep s) := by
  rcases engineStep_cases s with ⟨_, he⟩ | ⟨r, hq, hp, he⟩ | ⟨r, l, stage, _, _, he⟩
  · rw [he]; exact .inl (keepsKeys_refl s)
  · rcases beginCommand_cases r s with ⟨e, _, hb⟩ | ⟨l, _, hb⟩ | ⟨i, hi, _, hb⟩
    · rw [he, hb]; exact .inl ⟨rfl, rfl, rfl, id⟩
    · rw [he, hb]; exact .inl (beginLoop_frame r l s).keepsKeys
    · rw [he, hb]; exact .inr ⟨r, i, hq, hp, hi, commandBody_keyEffect i s⟩
  · rw [he]; exact .inl (loopStep_frame r l stage s).keepsKeys

/-- A host write of a register never sets RK_VALID and touches neither RK nor the backend. -/
theorem writeWindow_keepsKeys (offset : BitVec 8) (v : Word) (s : State) : keepsKeys s (writeWindow offset v s) := by
  rw [writeWindow]
  split
  · exact keepsKeys_refl s
  · rename_i r _
    rw [writeRegister]
    split
    · exact keepsKeys_refl s
    · cases r with
      | status => rw [writeRegisterIdle]; split <;> exact ⟨rfl, rfl, rfl, id⟩
      | key i => exact ⟨rfl, rfl, rfl, nofun⟩
      | _ => exact ⟨rfl, rfl, rfl, id⟩

/-- The next step runs command `i` whole: by an atomic CMD write of its word to an IDLE engine, or by the engine's own
step on the word it has accepted. -/
def runsCommand (s : State) (i : Instr) : Prop :=
  (∃ w rest, s.schedule = .command w :: rest ∧ isBusy s = false ∧ decode w = .ok i) ∨
  (s.schedule = [] ∨ ∃ rest, s.schedule = .engine :: rest) ∧
    ∃ r, s.seq = .busy r ∧ r.phase = .accepted ∧ decode r.word = .ok i

/-- All a step can do to the expanded key and the backend: a reset, nothing, or what the command it runs does. -/
theorem step_keys_cases (s t : State) (h : step s = .next t) :
    (∃ landed rest, s.schedule = .reset landed :: rest ∧ t = resetEngine landed { s with schedule := rest }) ∨
    keepsKeys s t ∨ ∃ i, runsCommand s i ∧ keyEffect i s t := by
  rcases step_next_cases s t h with ⟨hs, rfl⟩ | ⟨m, rest, hs, hm⟩
  · rcases engineStep_keys s with hk | ⟨r, i, hq, hp, hi, hk⟩
    · exact .inr (.inl hk)
    · exact .inr (.inr ⟨i, .inr ⟨.inl hs, r, hq, hp, hi⟩, hk⟩)
  · rcases perform_next_cases m _ t hm with ⟨rfl, rfl⟩ | ⟨w, i, rfl, hi, rfl⟩ | ⟨w, e, rfl, _, rfl⟩ |
      ⟨offset, v, _, _, rfl⟩ | ⟨offset, _, _, rfl⟩ | ⟨a, v, hostWins, _, _, rfl⟩ | ⟨a, engineValue, _, _, rfl⟩ |
      ⟨landed, rfl, rfl⟩
    · rcases engineStep_keys { s with schedule := rest } with hk | ⟨r, i, hq, hp, hi, hk⟩
      · exact .inr (.inl hk)
      · exact .inr (.inr ⟨i, .inr ⟨.inr ⟨rest, hs⟩, r, hq, hp, hi⟩, keyEffect_congr hk rfl rfl rfl rfl rfl⟩)
    · cases hbusy : isBusy { s with schedule := rest } with
      | true => rw [runCommand_busy _ _ _ hbusy]; exact .inr (.inl (keepsKeys_refl s))
      | false =>
        rw [runCommand_idle _ _ _ hbusy]
        exact .inr (.inr ⟨i, .inl ⟨w, rest, hs, hbusy, hi⟩,
          keyEffect_congr (commandBody_keyEffect i _) rfl rfl rfl rfl rfl⟩)
    · rw [runCommand]
      split <;> exact .inr (.inl (keepsKeys_refl s))
    · exact .inr (.inl (writeWindow_keepsKeys offset v _))
    · rw [readWindow_frame]; exact .inr (.inl (keepsKeys_refl s))
    · exact .inr (.inl (keepsKeys_refl s))
    · exact .inr (.inl (keepsKeys_refl s))
    · exact .inl ⟨landed, rest, hs, rfl⟩

/-- Settles O53: of the commands only KEY_EXPAND has that effect. -/
theorem expandedKeyComesOnlyFromKeyExpand : Obligations.ExpandedKeyComesOnlyFromKeyExpand := by
  intro s t h hchange
  have notKept : ¬ keepsKeys s t := by
    rintro ⟨_, _, hrk, hvalid⟩
    rcases hchange with hne | ⟨hclear, hset⟩
    · exact hne hrk
    · exact absurd (hvalid hset) (by simp [hclear])
  rcases step_keys_cases s t h with ⟨landed, rest, hs, _⟩ | hk | ⟨i, hruns, hk⟩
  · exact .inl ⟨landed, rest, hs⟩
  · exact absurd hk notKept
  · cases i with
    | keyExpand =>
      obtain ⟨_, heffect⟩ := hk
      exact .inr ⟨hruns, heffect⟩
    | selectBackend arg =>
      rcases hk with hk | ⟨hrk, hclear, _⟩
      · exact absurd hk notKept
      · rcases hchange with hne | ⟨_, hset⟩
        · exact absurd hrk hne
        · simp [hclear] at hset
    | _ => exact absurd hk notKept

theorem backendPresent_iff (p : Platform) (b : Backend) :
    backendPresent p b = true ↔ (b = .vector → p.hasVector = true) ∧ (b = .delegated → p.hasDelegated = true) := by
  cases b <;> simp [backendPresent]

/-- Settles O54: only SELECT_BACKEND and reset change the backend. -/
theorem backendSwitchClearsRkValid : Obligations.BackendSwitchClearsRkValid := by
  intro s t h hchange
  rcases step_keys_cases s t h with ⟨landed, rest, _, rfl⟩ | ⟨_, hb, _⟩ | ⟨i, _, hk⟩
  · exact ⟨rfl, nofun, nofun⟩
  · exact absurd hb hchange
  · cases i with
    | keyExpand =>
      obtain ⟨hb, _⟩ := hk
      exact absurd hb hchange
    | selectBackend arg =>
      rcases hk with ⟨_, hb, _⟩ | ⟨_, hclear, hpresent⟩
      · exact absurd hb hchange
      · exact ⟨hclear, (backendPresent_iff _ _).mp hpresent⟩
    | _ =>
      obtain ⟨_, hb, _⟩ := hk
      exact absurd hb hchange

end Sys2Proof.Machine

/-! SUPPORT. The register window: reserved offsets, host writes and reads as steps, the fields of CTRL, STATUS and CAP,
and data held in four registers (spec/10_state.md R21 to R40). -/

namespace Sys2Proof.Machine

/-! ### Offsets of the window -/

/-- The reserved offsets of the window (10_state.md R21). -/
def reservedOffset (offset : BitVec 8) : Prop :=
  0x10 ≤ offset.toNat ∧ offset.toNat ≤ 0x1C ∨ 0x78 ≤ offset.toNat ∧ offset.toNat ≤ 0x7C ∨
    0xA8 ≤ offset.toNat ∧ offset.toNat ≤ 0xAC ∨ 0xB8 ≤ offset.toNat

theorem not_reservedOffset_regOffset (r : Reg) : ¬ reservedOffset (regOffset r) := by
  have h : ∀ q ∈ allRegs, ¬ reservedOffset (regOffset q) := by unfold reservedOffset; decide
  exact h r (mem_allRegs r)

/-- No register stands at a reserved offset (10_state.md R21, R23). -/
theorem regAt_reserved (offset : BitVec 8) (h : reservedOffset offset) : regAt offset = none := by
  cases hr : regAt offset with
  | none => rfl
  | some r => exact absurd (regOffset_of_regAt offset r hr ▸ h) (not_reservedOffset_regOffset r)

/-- A reserved offset ignores writes (10_state.md R23). -/
theorem step_write_reserved (s : State) (offset : BitVec 8) (v : Word) (rest : List Move)
    (haligned : offset.toNat % 4 = 0) (hres : reservedOffset offset) (h : s.schedule = .writeReg offset .word v :: rest) :
    step s = .next { s with schedule := rest } := by
  rw [step_cons _ _ _ h, perform_writeReg _ _ _ haligned, writeWindow, regAt_reserved offset hres]

/-- A reserved offset reads 0 (10_state.md R23). -/
theorem step_read_reserved (s : State) (offset : BitVec 8) (rest : List Move)
    (haligned : offset.toNat % 4 = 0) (hres : reservedOffset offset) (h : s.schedule = .readReg offset .word :: rest) :
    step s = .next { s with schedule := rest, reported := 0 :: s.reported } := by
  rw [step_cons _ _ _ h, perform_readReg _ _ haligned, readWindow, regAt_reserved offset hres]
  rfl

/-! ### Host writes and reads, as steps -/

/-- The host's write of a register of an IDLE engine. -/
theorem step_writeReg_idle (s : State) (r : Reg) (v : Word) (rest : List Move) (hidle : isBusy s = false)
    (h : s.schedule = .writeReg (regOffset r) .word v :: rest) :
    step s = .next { writeRegisterIdle r v s with schedule := rest } := by
  rw [step_writeReg s r v rest h, writeRegister_idle r v { s with schedule := rest } hidle]
  cases r with
  | status => rw [writeRegisterIdle, writeRegisterIdle]; split <;> rfl
  | _ => rfl

/-- CTRL takes a write in both states of the sequencer (10_state.md R25, R39). -/
theorem step_write_ctrl (s : State) (v : Word) (rest : List Move) (h : s.schedule = .writeReg 0x00 .word v :: rest) :
    step s = .next { s with schedule := rest, irqEn := v.getLsbD 0 } := by
  rw [step_writeReg s .ctrl v rest h, writeRegister_ctrl]

/-- The registers that no host write changes (10_state.md R27, R33, R37). -/
def readOnly : Reg → Bool
  | .cap | .dout _ | .result | .physPos => true
  | _ => false

theorem step_write_readOnly (s : State) (r : Reg) (v : Word) (rest : List Move) (hr : readOnly r = true)
    (h : s.schedule = .writeReg (regOffset r) .word v :: rest) : step s = .next { s with schedule := rest } := by
  rw [step_writeReg s r v rest h, writeRegister]
  split
  · rfl
  · cases r with
    | cap | dout i | result | physPos => rfl
    | _ => cases hr

/-- What a register holds does not depend on the moves still to happen. -/
theorem regValue_schedule (s : State) (rest : List Move) (r : Reg) :
    regValue { s with schedule := rest } r = regValue s r := by
  cases r <;> rfl

/-- A host read that 10_state.md R40 gives a value reports it and changes nothing else (20_memory.md R72). -/
theorem step_read_stable (s : State) (r : Reg) (rest : List Move)
    (hstable : isBusy s = false ∨ unspecifiedWhileBusy r = false)
    (h : s.schedule = .readReg (regOffset r) .word :: rest) :
    step s = .next { s with schedule := rest, reported := regValue s r :: s.reported } := by
  rw [step_readReg s r rest h, readRegister_stable r { s with schedule := rest } hstable, regValue_schedule, report]

/-- A host read that 10_state.md R40 leaves open reports a free draw. -/
theorem step_read_free (s : State) (r : Reg) (rest : List Move) (hbusy : isBusy s = true)
    (hr : unspecifiedWhileBusy r = true) (h : s.schedule = .readReg (regOffset r) .word :: rest) :
    step s = .next
      { s with schedule := rest, reported := Config.busyRead s.draws :: s.reported, draws := s.draws + 1 } := by
  rw [step_readReg s r rest h, readRegister_free r { s with schedule := rest } hbusy hr]

/-! ### The plain registers -/

/-- The registers that hold what the host writes, and nothing more (10_state.md R21, R32 to R36). -/
def plainRW : Reg → Bool
  | .ctr _ | .din _ | .incLo | .incHi | .chunkSize | .tagLen | .c2bOff | .blkOff => true
  | .srcAddr | .srcOff | .dstAddr | .dstOff | .count | .avail => true
  | _ => false

/-- A plain register holds the value written. -/
theorem regValue_writeRegisterIdle (r : Reg) (v : Word) (s : State) (hr : plainRW r = true) :
    regValue (writeRegisterIdle r v s) r = v := by
  cases r with
  | ctr i => simp [regValue, writeRegisterIdle]
  | din i => simp [regValue, writeRegisterIdle]
  | ctrl | cmd | status | cap | key i | dout i | result | physPos => cases hr
  | _ => rfl

/-- A write of a plain register leaves the sequencer and the reported values alone. -/
theorem writeRegisterIdle_frame (r : Reg) (v : Word) (s : State) (hr : plainRW r = true) :
    (writeRegisterIdle r v s).seq = s.seq ∧ (writeRegisterIdle r v s).reported = s.reported := by
  cases r with
  | ctrl | cmd | status | cap | key i | dout i | result | physPos => cases hr
  | _ => exact ⟨rfl, rfl⟩

/-- A write of a plain register followed by its read (20_memory.md R72, 70_reset_and_hazards.md R275). -/
theorem run_write_read_plain (s : State) (r : Reg) (v : Word) (rest : List Move) (hr : plainRW r = true)
    (hidle : isBusy s = false)
    (h : s.schedule = .writeReg (regOffset r) .word v :: .readReg (regOffset r) .word :: rest) :
    Host.Core.run Sys2Proof.core 2 s =
      .next { writeRegisterIdle r v s with schedule := rest, reported := v :: s.reported } := by
  obtain ⟨hseq, hreported⟩ := writeRegisterIdle_frame r v s hr
  have hread := step_read_stable
    { writeRegisterIdle r v s with schedule := .readReg (regOffset r) .word :: rest } r rest
    (.inl (isBusy_of_idle _ (hseq.trans (seq_of_not_busy s hidle)))) rfl
  rw [regValue_schedule, regValue_writeRegisterIdle r v s hr, hreported] at hread
  rw [run_succ 1 s _ (step_writeReg_idle s r v _ hidle h), run_succ 0 _ _ hread]
  rfl

/-- Settles O8: each clause names one plain register. -/
theorem plainRegistersHoldWhatIsWritten : Obligations.PlainRegistersHoldWhatIsWritten := by
  intro s u offset v rest hidle hreg
  have named : ∃ r, plainRW r = true ∧ offset = regOffset r ∧ u = writeRegisterIdle r v s := by
    rcases hreg with ⟨i, ho, hu⟩ | ⟨i, ho, hu⟩ | ⟨ho, hu⟩ | ⟨ho, hu⟩ | ⟨ho, hu⟩ | ⟨ho, hu⟩ | ⟨ho, hu⟩ | ⟨ho, hu⟩ |
      ⟨ho, hu⟩ | ⟨ho, hu⟩ | ⟨ho, hu⟩ | ⟨ho, hu⟩ | ⟨ho, hu⟩ | ⟨ho, hu⟩
    exacts [⟨.ctr i, rfl, ho, hu⟩, ⟨.din i, rfl, ho, hu⟩, ⟨.incLo, rfl, ho, hu⟩, ⟨.incHi, rfl, ho, hu⟩,
      ⟨.chunkSize, rfl, ho, hu⟩, ⟨.tagLen, rfl, ho, hu⟩, ⟨.c2bOff, rfl, ho, hu⟩, ⟨.blkOff, rfl, ho, hu⟩,
      ⟨.srcAddr, rfl, ho, hu⟩, ⟨.srcOff, rfl, ho, hu⟩, ⟨.dstAddr, rfl, ho, hu⟩, ⟨.dstOff, rfl, ho, hu⟩,
      ⟨.count, rfl, ho, hu⟩, ⟨.avail, rfl, ho, hu⟩]
  obtain ⟨r, hr, rfl, rfl⟩ := named
  exact ⟨step_writeReg_idle s r v rest hidle, run_write_read_plain s r v rest hr hidle⟩

/-- Settles O15: each clause names one register, of the group 10_state.md R40 leaves open or of the others. -/
theorem busyReadsOfEngineRegistersAreFree : Obligations.BusyReadsOfEngineRegistersAreFree := by
  intro s offset rest h
  refine ⟨fun x hx => ?_, fun x hx => ?_, fun haligned hres => step_read_reserved s offset rest haligned hres h⟩
  · have named : ∃ r, unspecifiedWhileBusy r = true ∧ offset = regOffset r ∧ x = regValue s r := by
      rcases hx with ⟨i, ho, hx⟩ | ⟨i, ho, hx⟩ | ⟨ho, hx⟩ | ⟨ho, hx⟩
      exacts [⟨.ctr i, rfl, ho, hx⟩, ⟨.dout i, rfl, ho, hx⟩, ⟨.result, rfl, ho, hx⟩, ⟨.physPos, rfl, ho, hx⟩]
    obtain ⟨r, hr, rfl, rfl⟩ := named
    exact ⟨fun hidle => step_read_stable s r rest (.inl hidle) h, fun hbusy => step_read_free s r rest hbusy hr h⟩
  · have named : ∃ r, unspecifiedWhileBusy r = false ∧ offset = regOffset r ∧ x = regValue s r := by
      rcases hx with ⟨ho, hx⟩ | ⟨ho, hx⟩ | ⟨ho, hx⟩ | ⟨ho, hx⟩ | ⟨i, ho, hx⟩ | ⟨i, ho, hx⟩ | ⟨ho, hx⟩ | ⟨ho, hx⟩ |
        ⟨ho, hx⟩ | ⟨ho, hx⟩ | ⟨ho, hx⟩ | ⟨ho, hx⟩ | ⟨ho, hx⟩ | ⟨ho, hx⟩ | ⟨ho, hx⟩ | ⟨ho, hx⟩ | ⟨ho, hx⟩ | ⟨ho, hx⟩
      exacts [⟨.ctrl, rfl, ho, hx⟩, ⟨.cmd, rfl, ho, hx⟩, ⟨.status, rfl, ho, hx⟩, ⟨.cap, rfl, ho, hx⟩,
        ⟨.key i, rfl, ho, hx⟩, ⟨.din i, rfl, ho, hx⟩, ⟨.incLo, rfl, ho, hx⟩, ⟨.incHi, rfl, ho, hx⟩,
        ⟨.chunkSize, rfl, ho, hx⟩, ⟨.tagLen, rfl, ho, hx⟩, ⟨.c2bOff, rfl, ho, hx⟩, ⟨.blkOff, rfl, ho, hx⟩,
        ⟨.srcAddr, rfl, ho, hx⟩, ⟨.srcOff, rfl, ho, hx⟩, ⟨.dstAddr, rfl, ho, hx⟩, ⟨.dstOff, rfl, ho, hx⟩,
        ⟨.count, rfl, ho, hx⟩, ⟨.avail, rfl, ho, hx⟩]
    obtain ⟨r, hr, rfl, rfl⟩ := named
    exact step_read_stable s r rest (.inr hr) h

/-- Settles O9: each clause names one read-only register. -/
theorem readOnlyRegistersIgnoreWrites : Obligations.ReadOnlyRegistersIgnoreWrites := by
  intro s offset v rest hoffset h
  have named : ∃ r, readOnly r = true ∧ offset = regOffset r := by
    rcases hoffset with ho | ⟨i, ho⟩ | ho | ho
    exacts [⟨.cap, rfl, ho⟩, ⟨.dout i, rfl, ho⟩, ⟨.result, rfl, ho⟩, ⟨.physPos, rfl, ho⟩]
  obtain ⟨r, hr, rfl⟩ := named
  exact step_write_readOnly s r v rest hr h

/-- Settles O10: the KEY write as a step, its bytes, and the KEY read as a step. -/
theorem keyWritesClearRkValid : Obligations.KeyWritesClearRkValid := by
  intro s i rest
  refine ⟨fun v hidle h => step_writeReg_idle s (.key i) v rest hidle h, fun v j _ => ?_,
    fun h => step_read_stable s (.key i) rest (.inr rfl) h⟩
  rw [Vector.getElem_set_self, wordByte]

/-- Settles O14: a write while BUSY reaches no register but CTRL, and no second command is taken. -/
theorem busyWritesAreIgnored : Obligations.BusyWritesAreIgnored := by
  intro s rest hbusy
  refine ⟨fun offset v haligned h => ⟨fun hne => ?_, fun hctrl => ?_⟩, fun w h => ?_⟩
  · rw [step_cons _ _ _ h, perform_writeReg _ _ _ haligned, writeWindow]
    split
    · rfl
    · rename_i r hr
      have hnotCtrl : r ≠ .ctrl := by
        rintro rfl
        exact hne (regOffset_of_regAt offset .ctrl hr).symm
      rw [writeRegister_busy r v { s with schedule := rest } hbusy hnotCtrl]
  · subst hctrl
    exact step_write_ctrl s v rest h
  · rw [step_command s w rest h, runWord]
    split
    · exact exec_busy _ _ hbusy
    · rw [runCommand_busy w illegalCommand { s with schedule := rest } hbusy]

/-! ### The fields of CTRL, STATUS and CAP -/

/-- CTRL holds IRQ_EN in bit 0 and reads its other bits as 0 (10_state.md R25). -/
theorem ctrlWord_fields (s : State) : (ctrlWord s).getLsbD 0 = s.irqEn ∧ (ctrlWord s).extractLsb' 1 31 = 0 := by
  rw [ctrlWord]
  generalize s.irqEn = irqEn
  revert irqEn
  decide

/-- The fields of STATUS (10_state.md R26). -/
theorem statusWord_fields (s : State) :
    (statusWord s).getLsbD 0 = isBusy s ∧ (statusWord s).getLsbD 1 = s.done ∧ (statusWord s).getLsbD 2 = s.rkValid ∧
    (statusWord s).getLsbD 3 = irqPending s ∧ (statusWord s).extractLsb' 4 3 = s.err ∧
    (statusWord s).extractLsb' 8 8 = s.cause ∧ (statusWord s).extractLsb' 16 2 = backendId s.backend := by
  unfold statusWord
  refine ⟨?_, ?_, ?_, ?_, ?_, ?_, ?_⟩
  · simp only [BitVec.getLsbD_append]; simp
  · simp only [BitVec.getLsbD_append]; simp
  · simp only [BitVec.getLsbD_append]; simp
  · simp only [BitVec.getLsbD_append]; simp
  · simp (disch := decide) only [extractLsb'_append_high, extractLsb'_append_low]
    exact BitVec.extractLsb'_eq_self
  · simp (disch := decide) only [extractLsb'_append_high, extractLsb'_append_low]
    exact BitVec.extractLsb'_eq_self
  · simp (disch := decide) only [extractLsb'_append_high, extractLsb'_append_low]
    exact BitVec.extractLsb'_eq_self

/-- The reserved bits of STATUS read 0 (10_state.md R23, R26). -/
theorem statusWord_reserved (s : State) :
    (statusWord s).getLsbD 7 = false ∧ (statusWord s).extractLsb' 18 14 = 0 := by
  unfold statusWord
  refine ⟨?_, ?_⟩
  · simp only [BitVec.getLsbD_append]; simp
  · simp (disch := decide) only [extractLsb'_append_high]
    rfl

/-- The host's write of STATUS takes bit 1 alone, and that only while IDLE (10_state.md R26, R39). -/
theorem step_write_status (s : State) (v : Word) (rest : List Move) (h : s.schedule = .writeReg 0x08 .word v :: rest) :
    step s = .next { s with schedule := rest, done := s.done && (isBusy s || !v.getLsbD 1) } := by
  rw [step_writeReg s .status v rest h]
  cases hbusy : isBusy s with
  | true =>
    rw [writeRegister_busy .status v { s with schedule := rest } hbusy nofun]
    simp
  | false =>
    rw [writeRegister_idle .status v { s with schedule := rest } hbusy, writeRegisterIdle]
    cases v.getLsbD 1 <;> simp

/-- Settles O11, from the fields of STATUS and the step that writes it. -/
theorem statusFieldsAndDoneClear : Obligations.StatusFieldsAndDoneClear := by
  refine ⟨statusWord_fields, fun s v rest hidle h => ?_⟩
  rw [step_write_status s v rest h, hidle, Bool.false_or]

theorem decode_of_reservedField (w : Word) (h : reservedField w ≠ 0) : decode w = .error .reservedBits := by
  rw [decode, if_pos h]

/-- Settles O7: reserved offsets hold no register, and the writable registers with reserved bits take one bit only. -/
theorem reservedLocationsReadZero : Obligations.ReservedLocationsReadZero := by
  refine ⟨fun s offset v rest haligned hres => ?_, fun s => ?_, fun s v w rest => ⟨fun hbit => ?_, fun hbit => ?_⟩,
    fun w hw => ⟨_, decode_of_reservedField w hw⟩⟩
  · exact ⟨step_write_reserved s offset v rest haligned hres, step_read_reserved s offset rest haligned hres⟩
  · obtain ⟨_, hctrl⟩ := ctrlWord_fields s
    exact ⟨hctrl, statusWord_reserved s⟩
  · rw [step_write_ctrl _ v rest rfl, step_write_ctrl _ w rest rfl, hbit]
  · rw [step_write_status _ v rest rfl, step_write_status _ w rest rfl, hbit]
    rfl

/-- CAP as the host reads it, by bits (10_state.md R27). -/
theorem capWord_fields (p : Platform) :
    capWord p = 0x0E100801 ||| ((BitVec.ofBool p.hasVector).setWidth 32 <<< 1) |||
      ((BitVec.ofBool p.hasDelegated).setWidth 32 <<< 2) ∧
    (capWord p).getLsbD 0 = true ∧ (capWord p).getLsbD 1 = p.hasVector ∧ (capWord p).getLsbD 2 = p.hasDelegated ∧
    (capWord p).extractLsb' 3 5 = 0 ∧ (capWord p).extractLsb' 8 8 = 8 ∧ (capWord p).extractLsb' 16 8 = 16 ∧
    (capWord p).extractLsb' 24 8 = 14 := by
  rw [capWord]
  generalize p.hasVector = vector
  generalize p.hasDelegated = delegated
  revert vector delegated
  decide

/-- Settles O12: CAP is a function of the platform, stable while BUSY and read-only. -/
theorem capReportsThePlatform : Obligations.CapReportsThePlatform :=
  ⟨capWord_fields, fun s rest => ⟨step_read_stable s .cap rest (.inr rfl), fun v => step_write_readOnly s .cap v rest rfl⟩⟩

/-- Settles O13, from the fields of CTRL and STATUS and the steps that write and read CTRL. -/
theorem ctrlGatesTheInterrupt : Obligations.CtrlGatesTheInterrupt := by
  refine ⟨rfl, step_write_ctrl, fun s rest h => ?_, fun s => ⟨fun hen => ?_, fun hen => ?_, ?_⟩⟩
  · exact ⟨_, ctrlWord s, step_read_stable s .ctrl rest (.inr rfl) h, rfl, ctrlWord_fields s⟩
  · simp [irq, irqPending, hen]
  · simp [irq, irqPending, hen]
  · obtain ⟨_, _, _, hpend, _⟩ := statusWord_fields s
    exact hpend

/-! ### Data in four registers -/

/-- Word `i` of a block of four words is the word at position `i` (10_state.md R22). -/
theorem blockWord_blockOf (w0 w1 w2 w3 : Word) :
    blockWord (blockOf w0 w1 w2 w3) 0 = w0 ∧ blockWord (blockOf w0 w1 w2 w3) 1 = w1 ∧
      blockWord (blockOf w0 w1 w2 w3) 2 = w2 ∧ blockWord (blockOf w0 w1 w2 w3) 3 = w3 := by
  simp only [blockWord, blockOf]
  refine ⟨?_, ?_, ?_, ?_⟩
  · rw [extractLsb'_append_high _ _ _ _ _ _ (by omega)]
    exact append_high w0 w1
  · rw [extractLsb'_append_high _ _ _ _ _ _ (by omega)]
    exact append_low w0 w1
  · rw [extractLsb'_append_low _ _ _ _ _ _ (by omega)]
    exact append_high w2 w3
  · rw [extractLsb'_append_low _ _ _ _ _ _ (by omega)]
    exact append_low w2 w3

theorem regsOfBlock_blockOfRegs (v : Vector Word 4) : regsOfBlock (blockOfRegs v) = v := by
  obtain ⟨h0, h1, h2, h3⟩ := blockWord_blockOf v[0] v[1] v[2] v[3]
  simp only [regsOfBlock, blockOfRegs, h0, h1, h2, h3]
  exact (vector4_eta v).symm

theorem blockOfRegs_regsOfBlock (b : Block) : blockOfRegs (regsOfBlock b) = b := by
  have pair : ∀ i, (b.extractLsb' (i + 32) 32 ++ b.extractLsb' i 32 : BitVec 64) = b.extractLsb' i 64 :=
    fun _ => BitVec.extractLsb'_append_extractLsb'_eq_extractLsb' rfl
  calc
    blockOfRegs (regsOfBlock b) = b.extractLsb' 64 64 ++ b.extractLsb' 0 64 :=
      congrArg₂ (· ++ ·) (pair 64) (pair 0)
    _ = b.extractLsb' 0 128 := BitVec.extractLsb'_append_extractLsb'_eq_extractLsb' rfl
    _ = b := BitVec.extractLsb'_eq_self

/-- Byte `4i + j` of a datum is byte `j` of register `i` (10_state.md R22). -/
theorem blockByte_blockOfRegs (v : Vector Word 4) (i j : Nat) (hi : i < 4) (hj : j < 4) :
    blockByte (blockOfRegs v) (4 * i + j) = wordByte v[i] j := by
  obtain ⟨h0, h1, h2, h3⟩ := blockByte_blockOf v[0] v[1] v[2] v[3] j hj
  rw [blockOfRegs]
  match i, hi with
  | 0, _ => simpa using h0
  | 1, _ => exact h1
  | 2, _ => exact h2
  | 3, _ => exact h3

/-- Settles O6: bytes of a datum, both round trips, and the Counter. -/
theorem registersPackBytesBigEndian : Obligations.RegistersPackBytesBigEndian :=
  ⟨blockByte_blockOfRegs, regsOfBlock_blockOfRegs, blockOfRegs_regsOfBlock, fun _ => rfl⟩

end Sys2Proof.Machine

/-! SUPPORT. What a move of the schedule does to the data space: the engine's micro-step, a whole command run
atomically, and reset; and which of its bytes such a move can change (spec/20_memory.md R61, R75 to R77). -/

namespace Sys2Proof.Machine

/-! ### What the running command has written -/

/-- The bytes the iteration in progress has written. -/
def iterationWritten : Phase → List Host.Cell
  | .accepted | .looping _ (.head _) | .looping _ (.reading _ _ _) => []
  | .looping _ (.writing _ _ written) => written

theorem writtenSoFar_idle (s : State) (h : s.seq = .idle) : writtenSoFar s = [] := by
  rw [writtenSoFar, h]

/-- A command has written the bytes of its finished iterations and those of the one in progress. -/
theorem writtenSoFar_busy (s : State) (r : Running) (h : s.seq = .busy r) :
    writtenSoFar s = r.pending ++ iterationWritten r.phase := by
  obtain ⟨w, phase, pending⟩ := r
  simp only [writtenSoFar, h]
  match phase with
  | .looping l (.writing p todo written) => rfl
  | .looping l (.reading p todo got) => exact (List.append_nil pending).symm
  | .looping l (.head c) => exact (List.append_nil pending).symm
  | .accepted => exact (List.append_nil pending).symm

theorem pendingWrites_busy (s : State) (r : Running) (h : s.seq = .busy r) : pendingWrites s = r.pending := by
  rw [pendingWrites, h]

/-- The byte a micro-step of the engine writes from a phase, if it writes one. -/
def phaseWrites : Phase → List Host.Cell
  | .accepted | .looping _ (.head _) | .looping _ (.reading _ _ _) | .looping _ (.writing _ [] _) => []
  | .looping _ (.writing _ (c :: _) _) => [c]

/-- The running command of `s` either goes on in `t`, having written `cells` and left the data space alone, or has
completed in `t` and put all it had written in the data space (20_memory.md R75, R77). -/
def writesOrCompletes (s t : State) (cells : List Host.Cell) : Prop :=
  (isBusy t = true ∧ t.mem = s.mem ∧ writtenSoFar t = writtenSoFar s ++ cells) ∨
  (isBusy t = false ∧ t.mem = s.mem.writeAll (writtenSoFar s))

theorem writesOrCompletes_complete (s u : State) (cells : List Host.Cell) (o : Completion) (result phys : Nat)
    (hmem : u.mem = s.mem) (hpending : pendingWrites u = writtenSoFar s) :
    writesOrCompletes s (complete o result phys u) cells := by
  refine .inr ⟨rfl, ?_⟩
  rw [← hmem, ← hpending]
  rfl

theorem writesOrCompletes_enterStage (s u : State) (cells : List Host.Cell) (r : Running) (l : Loop) (stage : Stage)
    (hmem : u.mem = s.mem)
    (hwritten : r.pending ++ iterationWritten (.looping l stage) = writtenSoFar s ++ cells) :
    writesOrCompletes s (enterStage r l stage u) cells :=
  .inl ⟨rfl, hmem, (writtenSoFar_busy _ _ rfl).trans hwritten⟩

/-- A command that runs in one step of work writes no data byte before it completes (10_state.md R41). -/
theorem commandBody_completes_in_place (i : Instr) (s : State) (hi : ∀ l, i ≠ loopInstr l) :
    ∃ o result phys u, commandBody i s = complete o result phys u ∧ u.mem = s.mem ∧ u.seq = s.seq := by
  obtain ⟨o, result, phys, u, h, hu, _⟩ := commandBody_writeSet i s
  refine ⟨o, result, phys, u, h, ?_⟩
  cases i with
  | encBatch => exact absurd rfl (hi .batch)
  | streamEnc => exact absurd rfl (hi .enc)
  | streamDec => exact absurd rfl (hi .dec)
  | _ =>
    simp only at hu
    rw [hu]
    exact ⟨rfl, rfl⟩

theorem beginCommand_writes (r : Running) (s : State) (hq : s.seq = .busy r) (hp : r.phase = .accepted) :
    writesOrCompletes s (beginCommand r s) [] := by
  have hwritten : r.pending = writtenSoFar s := by
    rw [writtenSoFar_busy s r hq, hp, iterationWritten, List.append_nil]
  have hpending : pendingWrites s = writtenSoFar s := (pendingWrites_busy s r hq).trans hwritten
  rcases beginCommand_cases r s with ⟨e, _, h⟩ | ⟨l, _, h⟩ | ⟨i, _, hi, h⟩
  · rw [h]
    exact writesOrCompletes_complete s s [] _ _ _ rfl hpending
  · rw [h, beginLoop]
    split
    · exact writesOrCompletes_complete s s [] _ _ _ rfl hpending
    · refine writesOrCompletes_enterStage s s [] r l _ rfl ?_
      rw [iterationWritten, hwritten]
  · obtain ⟨o, result, phys, u, hc, hmem, hseq⟩ := commandBody_completes_in_place i s hi
    rw [h, hc]
    exact writesOrCompletes_complete s u [] _ _ _ hmem (by rw [pendingWrites, hseq]; exact hpending)

theorem endIteration_writes (r : Running) (l : Loop) (p : Plan) (written : List Host.Cell) (s : State)
    (hwritten : r.pending ++ written = writtenSoFar s) : writesOrCompletes s (endIteration r l p written s) [] := by
  rw [endIteration]
  split
  · exact writesOrCompletes_complete s _ [] _ _ _ rfl hwritten
  · rename_i t ht
    have hmem := advanceBlock_mem _ _ _ ht
    refine writesOrCompletes_enterStage s t [] _ l _ hmem ?_
    rw [iterationWritten, hwritten]

theorem loopStep_writes (r : Running) (l : Loop) (stage : Stage) (s : State) (hq : s.seq = .busy r)
    (hp : r.phase = .looping l stage) : writesOrCompletes s (loopStep r l stage s) (phaseWrites r.phase) := by
  have hwritten := writtenSoFar_busy s r hq
  rw [hp] at hwritten ⊢
  have enter := fun next cells => writesOrCompletes_enterStage s s cells r l next rfl
  match stage with
  | .head c =>
    have hpending : r.pending = writtenSoFar s := by rw [hwritten, iterationWritten, List.append_nil]
    simp only [loopStep]
    split
    · exact writesOrCompletes_complete s s _ _ _ _ rfl ((pendingWrites_busy s r hq).trans hpending)
    · exact enter _ _ (by simp [hwritten, iterationWritten, phaseWrites])
  | .reading p (a :: todo) got => exact enter _ _ (by simp [hwritten, iterationWritten, phaseWrites])
  | .reading p [] got => exact enter _ _ (by simp [hwritten, iterationWritten, phaseWrites])
  | .writing p (c :: todo) written => exact enter _ _ (by simp [hwritten, iterationWritten, phaseWrites])
  | .writing p [] written => exact endIteration_writes r l p written s hwritten.symm

/-- All a micro-step of a BUSY engine does to the data bytes. -/
theorem engineStep_writes (s : State) (r : Running) (hq : s.seq = .busy r) :
    writesOrCompletes s (engineStep s) (phaseWrites r.phase) := by
  rcases engineStep_cases s with ⟨hidle, _⟩ | ⟨r', hq', hp, he⟩ | ⟨r', l, stage, hq', hp, he⟩
  · rw [hq] at hidle; cases hidle
  · obtain rfl : r = r' := Seq.busy.inj (hq.symm.trans hq')
    rw [he, hp]
    exact beginCommand_writes r s hq hp
  · obtain rfl : r = r' := Seq.busy.inj (hq.symm.trans hq')
    rw [he]
    exact loopStep_writes r l stage s hq hp

/-- A command that goes on adds the byte it writes, if any, to what it has written. -/
theorem engineStep_goes_on (s : State) (r : Running) (hq : s.seq = .busy r) (hbusy : isBusy (engineStep s) = true) :
    (engineStep s).mem = s.mem ∧ writtenSoFar (engineStep s) = writtenSoFar s ++ phaseWrites r.phase := by
  rcases engineStep_writes s r hq with ⟨_, hgoes⟩ | ⟨hidle, _⟩
  · exact hgoes
  · rw [hbusy] at hidle; cases hidle

/-- A command that completes puts all it has written in the data space (20_memory.md R75). -/
theorem engineStep_completes (s : State) (r : Running) (hq : s.seq = .busy r) (hidle : isBusy (engineStep s) = false) :
    (engineStep s).mem = s.mem.writeAll (writtenSoFar s) := by
  rcases engineStep_writes s r hq with ⟨hbusy, _⟩ | ⟨_, hmem⟩
  · rw [hidle] at hbusy; cases hbusy
  · exact hmem

/-! ### Which bytes change -/

/-- Data space `m'` holds what `m` holds at every address the engine may not write (20_memory.md R61). -/
def keepsUnadmitted (p : Platform) (m m' : Memory) : Prop := ∀ a, admits p a .write = false → m'.read a = m.read a

theorem keepsUnadmitted_refl (p : Platform) (m : Memory) : keepsUnadmitted p m m := fun _ _ => rfl

theorem keepsUnadmitted.trans {p : Platform} {m m' m'' : Memory} (h : keepsUnadmitted p m m')
    (h' : keepsUnadmitted p m' m'') : keepsUnadmitted p m m'' :=
  fun a ha => (h' a ha).trans (h a ha)

/-- Stores of admitted bytes change no other byte. -/
theorem keepsUnadmitted_writeAll (p : Platform) (m : Memory) (cs : List Host.Cell) (h : cellsAdmitted p cs) :
    keepsUnadmitted p m (m.writeAll cs) := by
  intro a ha
  refine Memory.read_writeAll_other m cs a fun c hc hca => ?_
  have := h c hc
  rw [hca, ha] at this
  cases this

theorem Inv.keepsUnadmitted_engineView {s : State} (h : Inv s) : keepsUnadmitted s.platform s.mem (engineView s) :=
  keepsUnadmitted_writeAll _ _ _ h.pendingWrites_admitted

theorem Inv.writtenSoFar_admitted {s : State} (h : Inv s) : cellsAdmitted s.platform (writtenSoFar s) := by
  have empty : cellsAdmitted s.platform [] := nofun
  cases hq : s.seq with
  | idle => rwa [writtenSoFar_idle s hq]
  | busy r =>
    rw [writtenSoFar_busy s r hq]
    obtain ⟨_, _, _, hpending, hphase⟩ := h.running r hq
    refine cellsAdmitted_append _ _ _ hpending ?_
    obtain ⟨w, phase, pending⟩ := r
    match phase, hphase with
    | .looping l (.writing p todo written), ⟨_, _, _, _, hwritten⟩ => exact hwritten
    | .looping l (.reading p todo got), _ => exact empty
    | .looping l (.head c), _ => exact empty
    | .accepted, _ => exact empty

/-- A micro-step of the engine changes admitted bytes only: those a command that completes puts in the data space. -/
theorem engineStep_keepsUnadmitted (s : State) (h : Inv s) : keepsUnadmitted s.platform s.mem (engineStep s).mem := by
  cases hq : s.seq with
  | idle =>
    rw [engineStep, hq]
    exact keepsUnadmitted_refl _ _
  | busy r =>
    rcases engineStep_writes s r hq with ⟨_, hmem, _⟩ | ⟨_, hmem⟩
    · rw [hmem]
      exact keepsUnadmitted_refl _ _
    · rw [hmem]
      exact keepsUnadmitted_writeAll _ _ _ h.writtenSoFar_admitted

/-- An iteration whose plan writes admitted bytes changes no other byte. -/
theorem performPlan_keepsUnadmitted (p : Plan) (s : State) (h : planConsistent s.platform p) :
    keepsUnadmitted s.platform s.mem (performPlan p s).mem := by
  obtain ⟨_, hwrites⟩ := h
  exact keepsUnadmitted_writeAll _ _ _ (cellsAdmitted_xorSource _ _ _ hwrites)

/-- A loop run atomically changes admitted bytes only. -/
theorem runLoop_keepsUnadmitted (l : Loop) (n : Nat) (c : Cursors) (s : State) (hp : pendingWrites s = []) :
    keepsUnadmitted s.platform s.mem (runLoop (loopHead l) n c s).mem := by
  have performed : ∀ u d p, counterAndMemoryOnly s u ∧ keepsUnadmitted s.platform s.mem u.mem →
      loopHead l u d = .go p →
      counterAndMemoryOnly s (performPlan p u) ∧ keepsUnadmitted s.platform s.mem (performPlan p u).mem := by
    intro u d p ⟨hu, hum⟩ hgo
    have hplan := performPlan_keepsUnadmitted p u (loopHead_consistent l u d p hgo)
    rw [show u.platform = s.platform by rw [hu.1]] at hplan
    exact ⟨counterAndMemoryOnly_trans _ _ _ hu (performPlan_frame p u), hum.trans hplan⟩
  have ends : ∀ o result phys u, counterAndMemoryOnly s u ∧ keepsUnadmitted s.platform s.mem u.mem →
      keepsUnadmitted s.platform s.mem (complete o result phys u).mem := by
    intro o result phys u ⟨hu, hum⟩
    rwa [complete_mem, engineView_of_no_pending u (hu.pendingWrites_eq.trans hp)]
  obtain ⟨m, u, d, hu, h0, h1⟩ := runLoop_exit (loopHead l)
    (fun _ u _ => counterAndMemoryOnly s u ∧ keepsUnadmitted s.platform s.mem u.mem)
    (fun _ u d p t hu hgo hok => by
      obtain ⟨hp, hpm⟩ := performed u d p hu hgo
      exact ⟨counterAndMemoryOnly_trans _ _ _ hp (advanceBlock_frame _ _ _ hok), advanceBlock_mem _ _ _ hok ▸ hpm⟩)
    n c s ⟨counterAndMemoryOnly_refl s, keepsUnadmitted_refl _ _⟩
  by_cases hz : m = 0
  · exact h0 hz ▸ ends _ _ _ u hu
  · rcases h1 hz with ⟨o, phys, _, h⟩ | ⟨p, o, hgo, _, h⟩
    · exact h ▸ ends _ _ _ u hu
    · exact h ▸ ends _ _ _ _ (performed u d p hu hgo)

/-- A whole command, run on an engine that has just accepted it, changes admitted bytes only. -/
theorem commandBody_keepsUnadmitted (i : Instr) (s : State) (hp : pendingWrites s = []) :
    keepsUnadmitted s.platform s.mem (commandBody i s).mem := by
  have inPlace : ∀ o result phys u, u.mem = s.mem → u.seq = s.seq →
      keepsUnadmitted s.platform s.mem (complete o result phys u).mem := by
    intro o result phys u hmem hseq
    rw [complete_mem, engineView_of_no_pending u (by rwa [pendingWrites, hseq]), hmem]
    exact keepsUnadmitted_refl _ _
  by_cases hi : ∃ l, i = loopInstr l
  · obtain ⟨l, rfl⟩ := hi
    rw [commandBody_loopInstr, runLoopCommand]
    split
    · exact inPlace _ _ _ s rfl rfl
    · exact runLoop_keepsUnadmitted l _ _ s hp
  · obtain ⟨o, result, phys, u, h, hmem, hseq⟩ := commandBody_completes_in_place i s fun l hl => hi ⟨l, hl⟩
    rw [h]
    exact inPlace _ _ _ u hmem hseq

theorem runCommand_keepsUnadmitted (w : Word) (body : State → State) (s : State)
    (h : keepsUnadmitted s.platform s.mem (body (accept w s)).mem) :
    keepsUnadmitted s.platform s.mem (runCommand w body s).mem := by
  cases hbusy : isBusy s with
  | true => rw [runCommand_busy w body s hbusy]; exact keepsUnadmitted_refl _ _
  | false => rwa [runCommand_idle w body s hbusy]

/-- A host write of the window touches no data byte. -/
theorem writeWindow_mem (offset : BitVec 8) (v : Word) (s : State) : (writeWindow offset v s).mem = s.mem := by
  rw [writeWindow]
  split
  · rfl
  · rename_i r _
    rw [writeRegister]
    split
    · rfl
    · cases r with
      | status => rw [writeRegisterIdle]; split <;> rfl
      | _ => rfl

/-- A reset during a command puts admitted bytes only in the data space (70_reset_and_hazards.md R271). -/
theorem resetEngine_keepsUnadmitted (landed : List Bool) (s : State) (h : Inv s) :
    keepsUnadmitted s.platform s.mem (resetEngine landed s).mem :=
  h.keepsUnadmitted_engineView.trans (keepsUnadmitted_writeAll _ _ _ fun c hc =>
    h.iterationWrites_admitted c (mem_of_mem_landedCells _ _ _ hc))

/-- Every move but another agent's store changes admitted bytes only. -/
theorem perform_keepsUnadmitted (m : Move) (s t : State) (h : Inv s) (hstore : ∀ a v hostWins, m ≠ .store a v hostWins)
    (hm : perform m s = .next t) : keepsUnadmitted s.platform s.mem t.mem := by
  rcases perform_next_cases m s t hm with ⟨_, rfl⟩ | ⟨w, i, _, _, rfl⟩ | ⟨w, e, _, _, rfl⟩ | ⟨offset, v, _, _, rfl⟩ |
    ⟨offset, _, _, rfl⟩ | ⟨a, v, hostWins, hs, _, _⟩ | ⟨a, engineValue, _, _, rfl⟩ | ⟨landed, _, rfl⟩
  · exact engineStep_keepsUnadmitted s h
  · exact runCommand_keepsUnadmitted _ _ s (commandBody_keepsUnadmitted i (accept (encode i) s) rfl)
  · exact runCommand_keepsUnadmitted _ _ s (keepsUnadmitted_refl _ _)
  · rw [writeWindow_mem]; exact keepsUnadmitted_refl _ _
  · rw [readWindow_frame]; exact keepsUnadmitted_refl _ _
  · exact absurd hs (hstore a v hostWins)
  · exact keepsUnadmitted_refl _ _
  · exact resetEngine_keepsUnadmitted landed s h

/-- Every step but another agent's store changes admitted bytes only. -/
theorem step_keepsUnadmitted (s t : State) (h : Inv s)
    (hstore : ∀ a v hostWins rest, s.schedule ≠ .store a v hostWins :: rest)
    (hstep : step s = .next t) : keepsUnadmitted s.platform s.mem t.mem := by
  rcases step_next_cases s t hstep with ⟨_, rfl⟩ | ⟨m, rest, hs, hm⟩
  · exact engineStep_keepsUnadmitted s h
  · refine perform_keepsUnadmitted m { s with schedule := rest } t
      ⟨h.mem_wf, h.outcome, h.backend_present, h.rk_expanded, h.key_cleared, h.running⟩ (fun a v hostWins hst => ?_) hm
    exact hstore a v hostWins rest (hst ▸ hs)

/-- Settles O51: a byte that changed is admitted, and admission is what R61 says. -/
theorem engineWritesOnlyAdmittedBytes : Obligations.EngineWritesOnlyAdmittedBytes := by
  intro s t a h hstore hstep hchange
  have hadmitted : admits s.platform a .write = true := by
    by_contra hno
    exact hchange (step_keepsUnadmitted s t h hstore hstep a (by simpa using hno))
  obtain ⟨hlt, hmem, hwindow⟩ := (admits_iff s.platform a .write).mp hadmitted
  exact ⟨hmem, hlt, by simpa only [inWindow, decide_eq_false_iff_not] using hwindow⟩

end Sys2Proof.Machine

/-! SUPPORT. The other agents' accesses as steps: a byte access that falls into the register window, a store and a load
of a data byte while IDLE, and their races with a running command (spec/20_memory.md R60, R65, R71, R75 to R77). -/

namespace Sys2Proof.Machine

/-! ### The data space under stores -/

/-- After the same stores, a byte reads alike in two data spaces in which it read alike before. -/
theorem Memory.read_writeAll_congr (m n : Memory) (cs : List Host.Cell) (b : Nat) (h : m.read b = n.read b) :
    (m.writeAll cs).read b = (n.writeAll cs).read b := by
  induction cs generalizing m n with
  | nil => exact h
  | cons c cs ih =>
    rw [Memory.writeAll_cons, Memory.writeAll_cons]
    exact ih _ _ (by rw [Memory.read_write, Memory.read_write, h])

/-- A byte that one of the stores names reads as they leave it, whatever it was before. -/
theorem Memory.read_writeAll_of_named (m n : Memory) (cs : List Host.Cell) (b : Nat) (h : ∃ c ∈ cs, c.1 = b) :
    (m.writeAll cs).read b = (n.writeAll cs).read b := by
  induction cs generalizing m n with
  | nil =>
    obtain ⟨c, hc, _⟩ := h
    cases hc
  | cons c cs ih =>
    rw [Memory.writeAll_cons, Memory.writeAll_cons]
    by_cases hc : c.1 = b
    · refine Memory.read_writeAll_congr _ _ cs b ?_
      rw [hc, Memory.read_write_same, Memory.read_write_same]
    · obtain ⟨d, hd, hdb⟩ := h
      rcases List.mem_cons.mp hd with rfl | hd
      · exact absurd hdb hc
      · exact ih _ _ ⟨d, hd, hdb⟩

/-- Leaving out the stores to one byte changes no other byte. -/
theorem Memory.read_writeAll_filter (m : Memory) (cs : List Host.Cell) (a b : Nat) (h : b ≠ a) :
    (m.writeAll (cs.filter fun c => c.1 != a)).read b = (m.writeAll cs).read b := by
  induction cs generalizing m with
  | nil => rfl
  | cons c cs ih =>
    rw [Memory.writeAll_cons]
    by_cases hc : c.1 = a
    · rw [List.filter_cons_of_neg (by simp [hc]), ih]
      exact Memory.read_writeAll_congr _ _ cs b (Memory.read_write_other _ _ _ _ (by rwa [hc])).symm
    · rw [List.filter_cons_of_pos (by simp [hc]), Memory.writeAll_cons, ih]

/-! ### Accesses as steps -/

/-- Another agent's store outside the register window. -/
theorem step_store (s : State) (a : Word) (v : Byte) (hostWins : Bool) (rest : List Move)
    (hw : inWindow s.platform a.toNat = false) (h : s.schedule = .store a v hostWins :: rest) :
    step s = .next (storeByte a.toNat v hostWins { s with schedule := rest }) := by
  simp [step_cons _ _ _ h, perform, hw]

/-- Another agent's load outside the register window. -/
theorem step_load (s : State) (a : Word) (engineValue : Bool) (rest : List Move)
    (hw : inWindow s.platform a.toNat = false) (h : s.schedule = .load a engineValue :: rest) :
    step s = .next (loadByte a.toNat engineValue { s with schedule := rest }) := by
  simp [step_cons _ _ _ h, perform, hw]

/-- An address of the register window stands at its distance from REG_BASE. -/
theorem windowOffset_eq (p : Platform) (a : Word) (h : (regBase p).toNat ≤ a.toNat) :
    windowOffset p a = BitVec.ofNat 8 (a.toNat - (regBase p).toNat) := by
  rw [windowOffset, ← BitVec.toNat_sub_of_le (BitVec.le_def.mpr h), BitVec.ofNat_toNat]

/-- Settles O18: a narrow or misaligned access of the window stops the machine, a regular one does not. -/
theorem irregularWindowAccessFaults : Obligations.IrregularWindowAccessFaults := by
  have irregular : ∀ (offset : BitVec 8) (size : AccessSize), (size ≠ .word ∨ offset.toNat % 4 ≠ 0) →
      regularAccess offset size = false := by
    intro offset size h
    rw [← Bool.not_eq_true, regularAccess_iff]
    tauto
  refine ⟨fun s offset size v rest => ⟨fun h => ⟨fun hirr => ?_, ?_⟩, fun h => ⟨fun hirr => ?_, ?_⟩⟩,
    fun s a v b rest hlo hhi => ?_⟩
  · simp [step_cons _ _ _ h, perform, irregular offset size hirr]
  · rintro rfl haligned
    exact ⟨_, (step_cons _ _ _ h).trans (perform_writeReg offset v _ haligned)⟩
  · simp [step_cons _ _ _ h, perform, irregular offset size hirr]
  · rintro rfl haligned
    exact ⟨_, (step_cons _ _ _ h).trans (perform_readReg offset _ haligned)⟩
  · have hwindow : inWindow s.platform a.toNat = true := by simp [inWindow, hlo, hhi]
    rw [← windowOffset_eq s.platform a hlo]
    constructor <;> intro h <;> simp [step_cons _ _ _ h, perform, hwindow]

/-! ### An IDLE engine -/

/-- While IDLE a store changes its byte of the data space alone. -/
theorem storeByte_of_idle (a : Nat) (v : Byte) (hostWins : Bool) (s : State) (h : s.seq = .idle) :
    storeByte a v hostWins s = { s with mem := s.mem.write a v } := by
  rw [storeByte, h, seqAfterStore, ← h]

/-- While IDLE a load reports the byte of the data space. -/
theorem loadByte_of_idle (a : Nat) (engineValue : Bool) (s : State) (h : s.seq = .idle) :
    loadByte a engineValue s = report ((s.mem.read a).setWidth 32) s := by
  rw [loadByte, writtenSoFar_idle s h, Memory.writeAll_nil, ite_self]

/-- Settles O58: the store and the load as two steps on the data space. -/
theorem hostStoreThenLoad : Obligations.HostStoreThenLoad := by
  intro s a v h e rest hidle hw hs
  have hseq := seq_of_not_busy s hidle
  have hstore := step_store s a v h _ hw hs
  rw [storeByte_of_idle a.toNat v h { s with schedule := .load a e :: rest } hseq] at hstore
  have hload := step_load { s with schedule := .load a e :: rest, mem := s.mem.write a.toNat v } a e rest hw rfl
  rw [loadByte_of_idle _ _ _ (by exact hseq), Memory.read_write_same] at hload
  refine ⟨s.mem.write a.toNat v, ?_, Memory.read_write_same _ _ _, fun b hb => Memory.read_write_other _ _ _ _ hb⟩
  rw [run_succ 1 s _ hstore, run_succ 0 _ _ hload]
  rfl

/-! ### A BUSY engine -/

/-- The engine's writes that outlive another agent's store to `a`: where the host's value is to stand, those to `a` are
lost (20_memory.md R76). -/
def writesKept (a : Nat) (hostWins : Bool) (cs : List Host.Cell) : List Host.Cell :=
  if hostWins then cs.filter fun c => c.1 != a else cs

theorem writesKept_append (a : Nat) (hostWins : Bool) (cs ds : List Host.Cell) :
    writesKept a hostWins (cs ++ ds) = writesKept a hostWins cs ++ writesKept a hostWins ds := by
  cases hostWins with
  | false => rfl
  | true => exact List.filter_append cs ds

/-- How the engine's writes `cs` and a store of `v` to `a` race in data space `m`: the host's value stands where it wins
or where the engine has not written the byte, the engine's value stands otherwise, and no other byte is concerned
(20_memory.md R76). -/
theorem read_store_race (m : Memory) (a : Nat) (v : Byte) (hostWins : Bool) (cs : List Host.Cell) :
    (hostWins = true → ((m.write a v).writeAll (writesKept a hostWins cs)).read a = v) ∧
    (hostWins = false → (∃ c ∈ cs, c.1 = a) →
      ((m.write a v).writeAll (writesKept a hostWins cs)).read a = (m.writeAll cs).read a) ∧
    ((∀ c ∈ cs, c.1 ≠ a) → ((m.write a v).writeAll (writesKept a hostWins cs)).read a = v) ∧
    ∀ b, b ≠ a → ((m.write a v).writeAll (writesKept a hostWins cs)).read b = (m.writeAll cs).read b := by
  have unnamed : ∀ ds : List Host.Cell, (∀ c ∈ ds, c.1 ≠ a) → ((m.write a v).writeAll ds).read a = v := fun ds hds =>
    (Memory.read_writeAll_other _ ds a hds).trans (Memory.read_write_same m a v)
  have other : ∀ b, b ≠ a → ((m.write a v).writeAll cs).read b = (m.writeAll cs).read b := fun b hb =>
    Memory.read_writeAll_congr _ _ cs b (Memory.read_write_other m a b v hb)
  cases hostWins with
  | false => exact ⟨nofun, fun _ hnamed => Memory.read_writeAll_of_named _ _ cs a hnamed, unnamed cs, other⟩
  | true =>
    have dropped : ((m.write a v).writeAll (writesKept a true cs)).read a = v :=
      unnamed _ fun c hc => by simpa using (List.mem_filter.mp hc).2
    exact ⟨fun _ => dropped, nofun, fun _ => dropped, fun b hb =>
      (Memory.read_writeAll_filter _ cs a b hb).trans (other b hb)⟩

/-- Losing its write to `a`, a running command keeps its word, its other writes, and the bytes it has read. -/
theorem dropWrite_fields (a : Nat) (r : Running) :
    (dropWrite a r).word = r.word ∧ (dropWrite a r).pending = writesKept a true r.pending ∧
    iterationWritten (dropWrite a r).phase = writesKept a true (iterationWritten r.phase) ∧
    ∀ l p todo got, r.phase = .looping l (.reading p todo got) → (dropWrite a r).phase = r.phase := by
  obtain ⟨w, phase, pending⟩ := r
  match phase with
  | .accepted => exact ⟨rfl, rfl, rfl, nofun⟩
  | .looping l (.head c) => exact ⟨rfl, rfl, rfl, nofun⟩
  | .looping l (.reading p todo got) => exact ⟨rfl, rfl, rfl, fun _ _ _ _ _ => rfl⟩
  | .looping l (.writing p todo written) => exact ⟨rfl, rfl, rfl, nofun⟩

/-- The running command after another agent's store. -/
theorem seqAfterStore_busy (a : Nat) (hostWins : Bool) (r : Running) :
    ∃ r', seqAfterStore a hostWins (.busy r) = .busy r' ∧ r'.word = r.word ∧ (hostWins = false → r' = r) ∧
      r'.pending = writesKept a hostWins r.pending ∧
      iterationWritten r'.phase = writesKept a hostWins (iterationWritten r.phase) ∧
      ∀ l p todo got, r.phase = .looping l (.reading p todo got) → r'.phase = r.phase := by
  cases hostWins with
  | false => exact ⟨r, rfl, rfl, fun _ => rfl, rfl, rfl, fun _ _ _ _ _ => rfl⟩
  | true =>
    obtain ⟨hword, hpending, hwritten, hreading⟩ := dropWrite_fields a r
    exact ⟨dropWrite a r, rfl, hword, nofun, hpending, hwritten, hreading⟩

/-- A store to a data byte races with the running command's writes of that byte, in the engine's view of its finished
iterations and in the view of all it has written (20_memory.md R76). -/
theorem storeByte_busy (a : Nat) (v : Byte) (hostWins : Bool) (s : State) (r : Running) (hq : s.seq = .busy r) :
    ∃ r', (storeByte a v hostWins s).seq = .busy r' ∧ r'.word = r.word ∧ (hostWins = false → r' = r) ∧
      (∀ l p todo got, r.phase = .looping l (.reading p todo got) → r'.phase = r.phase) ∧
      engineView (storeByte a v hostWins s) = (s.mem.write a v).writeAll (writesKept a hostWins r.pending) ∧
      (storeByte a v hostWins s).mem.writeAll (writtenSoFar (storeByte a v hostWins s)) =
        (s.mem.write a v).writeAll (writesKept a hostWins (writtenSoFar s)) := by
  obtain ⟨r', hr', hword, hsame, hpending, hwritten, hreading⟩ := seqAfterStore_busy a hostWins r
  have hseq : (storeByte a v hostWins s).seq = .busy r' := by rw [storeByte_seq, hq, hr']
  refine ⟨r', hseq, hword, hsame, hreading, ?_, ?_⟩
  · rw [engineView, pendingWrites_busy _ r' hseq, hpending, storeByte_mem]
  · rw [writtenSoFar_busy _ r' hseq, writtenSoFar_busy s r hq, hpending, hwritten, writesKept_append, storeByte_mem]

/-- The engine's own move, scheduled or not. -/
theorem step_engine (s : State) (h : s.schedule = [] ∨ ∃ rest, s.schedule = .engine :: rest) :
    ∃ rest, step s = .next (engineStep { s with schedule := rest }) := by
  rcases h with h | ⟨rest, h⟩
  · refine ⟨[], ?_⟩
    rw [step_nil s h, ← h]
  · exact ⟨rest, step_cons s .engine rest h⟩

theorem engineStep_looping (s : State) (r : Running) (l : Loop) (stage : Stage) (hq : s.seq = .busy r)
    (hp : r.phase = .looping l stage) : engineStep s = loopStep r l stage s := by
  simp [engineStep, hq, hp]

theorem phaseWrites_of_not_writing (phase : Phase)
    (h : ∀ l p c todo written, phase ≠ .looping l (.writing p (c :: todo) written)) : phaseWrites phase = [] := by
  match phase with
  | .accepted => rfl
  | .looping l (.head c) => rfl
  | .looping l (.reading p todo got) => rfl
  | .looping l (.writing p [] written) => rfl
  | .looping l (.writing p (c :: todo) written) => exact absurd rfl (h l p c todo written)

/-- Settles O59: a load, a store, acceptance and the engine's own move, one after the other. -/
theorem hostRacesWithABusyCommand : Obligations.HostRacesWithABusyCommand := by
  refine ⟨fun s r a rest hq hw => ⟨fun e h => ?_, fun v hostWins h => ?_⟩, writtenSoFar_idle,
    fun s w rest hidle h => ?_, fun s r hq h => ?_⟩
  · refine ⟨_, step_load s a e rest hw h, fun he => if_neg (by simp [he]), fun he => if_pos he, fun hnone => ?_⟩
    split
    · exact Memory.read_writeAll_other _ _ _ hnone
    · rfl
  · obtain ⟨r', hseq, hword, hsame, hreading, hview, hall⟩ :=
      storeByte_busy a.toNat v hostWins { s with schedule := rest } r hq
    obtain ⟨viewHost, viewEngine, viewUnnamed, viewOther⟩ := read_store_race s.mem a.toNat v hostWins r.pending
    obtain ⟨allHost, allEngine, allUnnamed, allOther⟩ := read_store_race s.mem a.toNat v hostWins (writtenSoFar s)
    have hs : engineView s = s.mem.writeAll r.pending := by rw [engineView, pendingWrites_busy s r hq]
    refine ⟨_, r', step_store s a v hostWins rest hw h, hseq, hword, Memory.read_write_same _ _ _, ?_⟩
    rw [hview, hall, hs]
    exact ⟨fun hh => ⟨viewHost hh, allHost hh⟩, fun hh => ⟨hsame hh, viewEngine hh, allEngine hh⟩, viewUnnamed,
      allUnnamed, hreading, fun b hb => ⟨Memory.read_write_other _ _ _ _ hb, viewOther b hb, allOther b hb⟩⟩
  · exact ⟨_, step_writeReg_idle s .cmd w rest hidle h, rfl, rfl⟩
  · obtain ⟨rest, hstep⟩ := step_engine s h
    have hmove := fun l stage => engineStep_looping { s with schedule := rest } r l stage hq
    have goesOn := engineStep_goes_on { s with schedule := rest } r hq
    refine ⟨_, hstep, fun hbusy => (goesOn hbusy).left, fun hidle b => ?_, fun l p a todo got hp => ?_,
      fun l p c todo written hp => ?_, fun hp hbusy => ?_⟩
    · rw [engineStep_completes { s with schedule := rest } r hq hidle]
      rfl
    · rw [hmove l _ hp]
      exact ⟨_, rfl, rfl⟩
    · refine ⟨?_, ?_⟩
      · obtain ⟨_, hwritten⟩ := goesOn (by rw [hmove l _ hp]; rfl)
        rw [hwritten, hp, phaseWrites]
        rfl
      · rw [hmove l _ hp]
        exact ⟨_, rfl, rfl⟩
    · obtain ⟨_, hwritten⟩ := goesOn hbusy
      rw [hwritten, phaseWrites_of_not_writing r.phase hp, List.append_nil]
      rfl

end Sys2Proof.Machine

/-! SUPPORT. Stream commands on an IDLE engine: which logical byte they reach, how they end there, and which bytes they
write (spec/20_memory.md R64 to R66, spec/43_stream_transform.md R194 to R207). -/

namespace Sys2Proof.Machine

/-! ### The command as a whole -/

/-- On an IDLE engine completion shows no trace of the acceptance before it. -/
theorem complete_streamState (o : Completion) (result phys w : Nat) (m : Memory) (s : State) (h : s.seq = .idle) :
    complete o result phys (streamState s w m) =
      endedWith o result phys { s with ctr := counterAfter s w, mem := m } :=
  complete_eq_endedWith o result phys (streamState s w m) (by rw [pendingWrites, streamState, h])

/-- Acceptance changes nothing that the end of a stream command depends on. -/
theorem streamEnd_of_accept (l : Loop) (w : Word) (s : State) (hidle : isBusy s = false) (m : Memory) (n : Nat)
    (t : State) (h : StreamEnd l (accept w s) m n t) : StreamEnd l s m n t := by
  have hseq := seq_of_not_busy s hidle
  have state : ∀ o result phys ctr, complete o result phys { accept w s with ctr := ctr, mem := m } =
      complete o result phys { s with ctr := ctr, mem := m } := by
    intro o result phys ctr
    rw [complete_eq_endedWith o result phys { s with ctr := ctr, mem := m } (by rw [pendingWrites, hseq])]
    rfl
  cases h with
  | ok hw hi ht => exact .ok hw hi (ht.trans (state _ _ _ _))
  | shortRead hl hw ha hi ht => exact .shortRead hl hw ha hi (ht.trans (state _ _ _ _))
  | busRead hw hst hi hr ht => exact .busRead hw hst hi hr (ht.trans (state _ _ _ _))
  | busWrite hw hst hi hr hd ht => exact .busWrite hw hst hi hr hd (ht.trans (state _ _ _ _))
  | overflow hm hi ht => exact .overflow hm hi (ht.trans (state _ _ _ _))

/-- All a stream command can do on an IDLE engine once its argument checks pass. -/
theorem exec_stream_cases (l : Loop) (hl : l ≠ .batch) (s : State) (hidle : isBusy s = false) (h : passesChecks s) :
    ∃ w m t, exec (loopInstr l) s = .next t ∧ BytesMoved l s m w ∧ StreamEnd l s m w t := by
  obtain ⟨w, m, hb, he⟩ := streamCommand_cases l hl (accept (encode (loopInstr l)) s) h
  refine ⟨w, m, _, ?_, ⟨hb.le, hb.admitted, hb.available, hb.moved, hb.kept, hb.ordered⟩,
    streamEnd_of_accept l _ s hidle m w _ he⟩
  rw [exec_idle _ s hidle, commandBody_loopInstr]

/-- The argument checks of a stream command raise an error or leave the geometry as R191 asks (43_stream_transform.md
R191). -/
theorem streamStart_error_or_passesChecks (s : State) : (∃ o, streamStart s = .error o) ∨ passesChecks s := by
  unfold streamStart
  split
  · exact .inl ⟨_, rfl⟩
  · rename_i hvalid
    split
    · exact .inl ⟨_, rfl⟩
    · split
      · exact .inl ⟨_, rfl⟩
      · split
        · exact .inl ⟨_, rfl⟩
        · split
          · exact .inl ⟨_, rfl⟩
          · exact .inr ⟨by simpa using hvalid, by omega, by omega, fun hchunks => ⟨by omega, by omega⟩⟩

/-- A command whose argument checks fail writes nothing but its outcome (43_stream_transform.md R191). -/
theorem exec_stream_unstarted (l : Loop) (hl : l ≠ .batch) (s : State) (hidle : isBusy s = false)
    (h : ¬ passesChecks s) : ∃ o, exec (loopInstr l) s = .next (endedWith o 0 0 s) := by
  have hstart : ∃ o, loopStart l (accept (encode (loopInstr l)) s) = .error o := by
    have fails := (streamStart_error_or_passesChecks (accept (encode (loopInstr l)) s)).resolve_right h
    cases l with
    | batch => exact absurd rfl hl
    | enc => exact fails
    | dec => exact fails
  obtain ⟨o, ho⟩ := hstart
  refine ⟨o, ?_⟩
  rw [exec_idle _ s hidle, commandBody_loopInstr, runLoopCommand, ho]
  exact congrArg _ (complete_accept o 0 0 _ s)

/-! ### Which logical byte it reaches -/

theorem blockIndexAt_mono (s : State) (p q : Nat) (h : p ≤ q) : blockIndexAt s p ≤ blockIndexAt s q :=
  Nat.add_le_add_left (Nat.div_le_div_right h) _

theorem streamLength_le (l : Loop) (s : State) (w : Nat) : streamLength l s w ≤ iterationLength s w := by
  cases l with
  | batch => exact Nat.zero_le _
  | enc => exact Nat.le_refl _
  | dec => exact Nat.min_le_left _ _

/-- No iteration reaches past COUNT or past the start of another iteration (43_stream_transform.md R196). -/
theorem iterationLength_within (s : State) (w n : Nat) (hlt : w < n) (hn : n = s.count.toNat ∨ iterationStart s n) :
    w + iterationLength s w ≤ n := by
  rw [iterationLength]
  rcases hn with rfl | rfl | hn <;> omega

/-- A stream command comes to logical byte `n`, where all bytes before it are admitted and available and the Counter
lasts. -/
theorem StreamEnd.reaches {l : Loop} {s : State} {m : Memory} {w : Nat} {t : State} (h : StreamEnd l s m w t) (n : Nat)
    (hle : n ≤ s.count.toNat) (hn : n = s.count.toNat ∨ iterationStart s n)
    (hidx : blockIndexAt s (s.blkOff.toNat + n) < 2 ^ 64)
    (hadm : bytesAdmitted s.platform (streamSource l s) (streamDestination l s) n)
    (havail : l = .dec → ∀ v < n, physOffset s v < s.avail.toNat) : n ≤ w := by
  by_contra hlt
  have inside : ∀ k < streamLength l s w, w + k < n := by
    intro k hk
    have := streamLength_le l s w
    have := iterationLength_within s w n (by omega) hn
    omega
  cases h with
  | ok hw => omega
  | shortRead hl _ ha => have := havail hl w (by omega); omega
  | busRead _ _ _ hr =>
    obtain ⟨k, hk, hno⟩ := hr
    obtain ⟨hyes, _⟩ := hadm (w + k) (inside k hk)
    rw [hno] at hyes; cases hyes
  | busWrite _ _ _ _ hd =>
    obtain ⟨k, hk, hno⟩ := hd
    obtain ⟨_, hyes⟩ := hadm (w + k) (inside k hk)
    rw [hno] at hyes; cases hyes
  | overflow _ hi => have := blockIndexAt_mono s (s.blkOff.toNat + w) (s.blkOff.toNat + n) (by omega); omega

/-- A stream command does not end inside an iteration: it ends before it, at its start, or after its last byte
(20_memory.md R66). -/
theorem StreamEnd.not_inside {l : Loop} {s : State} {m : Memory} {w : Nat} {t : State} (h : StreamEnd l s m w t)
    (hg : Geometry s) (n k : Nat) (hk : k < streamLength l s n) (hle : w ≤ n + k) : w ≤ n := by
  have hlen := streamLength_le l s n
  rw [iterationLength] at hlen
  have noStart : iterationStart s w → w ≤ n := by
    rintro (rfl | hw) <;> omega
  cases h with
  | ok hw => omega
  | shortRead hl _ ha =>
    subst hl
    rw [streamLength, iterationLength] at hk
    by_contra hlt
    have := physOffset_add s hg n (w - n) (by omega)
    rw [show n + (w - n) = w by omega] at this
    omega
  | busRead _ hw => exact noStart hw
  | busWrite _ hw => exact noStart hw
  | overflow hm => exact noStart (.inr hm)

/-! ### All COUNT bytes -/

/-- Where AVAIL covers the physical length of the first `n` bytes, every one of them lies below it. -/
theorem available_of_physLength_le (s : State) (n : Nat) (h : physLength s n ≤ s.avail.toNat) :
    ∀ v < n, physOffset s v < s.avail.toNat := by
  intro v hv
  rw [physLength, if_neg (by omega)] at h
  rcases Nat.lt_or_ge v (n - 1) with hlt | hge
  · have := physOffset_lt s v (n - 1) hlt
    omega
  · rw [show v = n - 1 by omega]
    omega

/-- AVAIL cuts no iteration whose bytes all lie below it. -/
theorem streamLength_of_available (l : Loop) (hl : l ≠ .batch) (s : State) (hg : Geometry s) (n : Nat)
    (hlt : n < s.count.toNat) (h : l = .dec → ∀ v < s.count.toNat, physOffset s v < s.avail.toNat) :
    streamLength l s n = iterationLength s n := by
  cases l with
  | batch => exact absurd rfl hl
  | enc => rfl
  | dec =>
    have hpos : 0 < iterationLength s n := by rw [iterationLength]; omega
    have hcut : iterationLength s n ≤ 16 - (s.blkOff.toNat + n) % 16 := Nat.min_le_left _ _
    have hcount : iterationLength s n ≤ s.count.toNat - n := Nat.min_le_right _ _
    have hlast := h rfl (n + (iterationLength s n - 1)) (by omega)
    rw [physOffset_add s hg n _ (by omega)] at hlast
    rw [streamLength]
    omega

/-- A stream command whose COUNT bytes are all admitted, available and covered by the Counter does them all, iteration
by iteration in order, overlapping ranges included (20_memory.md R65). -/
theorem exec_stream_in_order (l : Loop) (hl : l ≠ .batch) (s : State) (hidle : isBusy s = false) (h : passesChecks s)
    (hidx : blockIndexAt s (s.blkOff.toNat + s.count.toNat) < 2 ^ 64)
    (havail : l = .dec → physLength s s.count.toNat ≤ s.avail.toNat)
    (hadm : bytesAdmitted s.platform (streamSource l s) (streamDestination l s) s.count.toNat) :
    ∃ trace : Nat → Memory, iterationsInOrder s (streamSource l s) (streamDestination l s) trace ∧
      exec (loopInstr l) s = .next
        (endedWith .ok s.count.toNat (physLength s s.count.toNat)
          { s with ctr := counterAfter s s.count.toNat, mem := trace s.count.toNat }) := by
  obtain ⟨w, m, t, hexec, hb, he⟩ := exec_stream_cases l hl s hidle h
  have available := fun hdec => available_of_physLength_le s s.count.toNat (havail hdec)
  obtain rfl : w = s.count.toNat :=
    Nat.le_antisymm hb.le (he.reaches s.count.toNat (Nat.le_refl _) (.inl rfl) hidx hadm available)
  obtain ⟨trace, hfirst, hlast, hmoves⟩ := hb.ordered
  refine ⟨trace, ⟨hfirst, fun n hn hst => ?_⟩, ?_⟩
  · have := hmoves n hn hst
    rwa [streamLength_of_available l hl s (geometry_of_passesChecks s h) n hn available] at this
  · rw [hexec, hlast]
    cases he with
    | ok _ _ ht => rw [ht, complete_streamState _ _ _ _ _ _ (seq_of_not_busy s hidle)]
    | shortRead _ hlt => omega
    | busRead hlt => omega
    | busWrite hlt => omega
    | overflow _ hi => omega

/-- Settles O34: both stream commands by the same argument. -/
theorem streamFollowsTheAccessOrder : Obligations.StreamFollowsTheAccessOrder := fun s hidle h hidx =>
  ⟨exec_stream_in_order .enc nofun s hidle h hidx nofun, fun havail =>
    exec_stream_in_order .dec nofun s hidle h hidx fun _ => havail⟩

/-! ### Bus errors -/

/-- An iteration with an unadmitted byte ends the stream command before any access of it (20_memory.md R66,
60_exceptions.md R243, R244). -/
theorem exec_stream_busError (l : Loop) (hl : l ≠ .batch) (s : State) (n : Nat) (kind : AccessKind)
    (hidle : isBusy s = false) (h : passesChecks s) (hlt : n < s.count.toNat) (hst : iterationStart s n)
    (havail : l = .dec → physOffset s n < s.avail.toNat) (hidx : blockIndexAt s (s.blkOff.toNat + n) < 2 ^ 64)
    (hadm : bytesAdmitted s.platform (streamSource l s) (streamDestination l s) n)
    (hno : noOverwrite (streamSource l s) (streamDestination l s) n)
    (hread : kind = .read → ∃ k < streamLength l s n, admits s.platform (streamSource l s (n + k)) .read = false)
    (hwrite : kind = .write →
      (∀ k < streamLength l s n, admits s.platform (streamSource l s (n + k)) .read = true) ∧
      ∃ k < streamLength l s n, admits s.platform (streamDestination l s (n + k)) .write = false) :
    ∃ m, exec (loopInstr l) s = .next
        (endedWith (.busError kind) n (physOffset s n) { s with ctr := counterAfter s n, mem := m }) ∧
      bytesTransformed s m (streamSource l s) (streamDestination l s) n := by
  obtain ⟨w, m, t, hexec, hb, he⟩ := exec_stream_cases l hl s hidle h
  have available : l = .dec → ∀ v < n, physOffset s v < s.avail.toNat :=
    fun hdec v hv => (physOffset_lt s v n hv).trans (havail hdec)
  obtain ⟨k, hk, hbad⟩ : ∃ k < streamLength l s n, ¬ (admits s.platform (streamSource l s (n + k)) .read = true ∧
      admits s.platform (streamDestination l s (n + k)) .write = true) := by
    cases kind with
    | read => obtain ⟨k, hk, hr⟩ := hread rfl; exact ⟨k, hk, by simp [hr]⟩
    | write => obtain ⟨_, k, hk, hd⟩ := hwrite rfl; exact ⟨k, hk, by simp [hd]⟩
  have notPast : w ≤ n + k := by
    by_contra hpast
    exact hbad (hb.admitted (n + k) (by omega))
  obtain rfl : w = n := Nat.le_antisymm (he.not_inside (geometry_of_passesChecks s h) n k hk notPast)
    (he.reaches n (by omega) (.inr hst) hidx hadm available)
  refine ⟨m, ?_, bytesTransformed_of_moved l s m w hb hno⟩
  have hseq := seq_of_not_busy s hidle
  rw [hexec]
  cases he with
  | ok hw => omega
  | shortRead hdec _ ha => have := havail hdec; omega
  | busRead _ _ _ hr ht =>
    cases kind with
    | read => rw [ht, complete_streamState _ _ _ _ _ _ hseq]
    | write =>
      obtain ⟨hall, _⟩ := hwrite rfl
      obtain ⟨j, hj, hnot⟩ := hr
      rw [hall j hj] at hnot; cases hnot
  | busWrite _ _ _ hall _ ht =>
    cases kind with
    | read =>
      obtain ⟨j, hj, hnot⟩ := hread rfl
      rw [hall j hj] at hnot; cases hnot
    | write => rw [ht, complete_streamState _ _ _ _ _ _ hseq]
  | overflow _ hi => omega

/-- Settles O37: the bus error of a stream command, for STREAM_ENC. -/
theorem streamEncBusError : Obligations.StreamEncBusError := fun s n kind hidle h hlt hst =>
  exec_stream_busError .enc nofun s n kind hidle h hlt hst nofun

/-- Settles O38: the bus error of a stream command, for STREAM_DEC. -/
theorem streamDecBusError : Obligations.StreamDecBusError := fun s n kind hidle h hlt hst havail =>
  exec_stream_busError .dec nofun s n kind hidle h hlt hst fun _ => havail

/-! ### Which bytes it writes -/

/-- A stream command reports the number of bytes it has moved. -/
theorem StreamEnd.result_mem {l : Loop} {s : State} {m : Memory} {w : Nat} {t : State} (h : StreamEnd l s m w t)
    (hidle : isBusy s = false) : t.result = BitVec.ofNat 32 w ∧ t.mem = m := by
  have ends : ∀ o phys ctr, (complete o w phys { s with ctr := ctr, mem := m }).result = BitVec.ofNat 32 w ∧
      (complete o w phys { s with ctr := ctr, mem := m }).mem = m := by
    intro o phys ctr
    refine ⟨rfl, ?_⟩
    rw [complete_mem, engineView_of_no_pending _ (by rw [pendingWrites, seq_of_not_busy s hidle])]
  cases h with
  | ok _ _ ht => exact ht ▸ ends _ _ _
  | shortRead _ _ _ _ ht => exact ht ▸ ends _ _ _
  | busRead _ _ _ _ ht => exact ht ▸ ends _ _ _
  | busWrite _ _ _ _ _ ht => exact ht ▸ ends _ _ _
  | overflow _ _ ht => exact ht ▸ ends _ _ _

/-- A stream command changes no byte but the destination bytes of the logical bytes it reports. -/
theorem exec_stream_frame (l : Loop) (hl : l ≠ .batch) (s t : State) (a : Nat) (hidle : isBusy s = false)
    (hexec : exec (loopInstr l) s = .next t) (ha : ∀ w < t.result.toNat, a ≠ streamDestination l s w) :
    t.mem.read a = s.mem.read a := by
  by_cases h : passesChecks s
  · obtain ⟨w, m, t', hexec', hb, he⟩ := exec_stream_cases l hl s hidle h
    obtain rfl : t' = t := Host.Outcome.next.inj (hexec'.symm.trans hexec)
    obtain ⟨hresult, hmem⟩ := he.result_mem hidle
    have hlt : w < 2 ^ 32 := Nat.lt_of_le_of_lt hb.le s.count.isLt
    rw [hresult, BitVec.toNat_ofNat, Nat.mod_eq_of_lt hlt] at ha
    rw [hmem]
    exact hb.kept a ha
  · obtain ⟨o, hexec'⟩ := exec_stream_unstarted l hl s hidle h
    obtain rfl := Host.Outcome.next.inj (hexec'.symm.trans hexec)
    rfl

/-- Settles O40: both stream commands by the same argument. -/
theorem streamWritesOnlyItsBytes : Obligations.StreamWritesOnlyItsBytes := fun s t a hidle =>
  ⟨exec_stream_frame .enc nofun s t a hidle, exec_stream_frame .dec nofun s t a hidle⟩

end Sys2Proof.Machine

/-! SUPPORT. The command word: its three fields, what the decoder answers by them (`decode_cases`), decoding and encoding
as inverses, and a CMD write as a step (spec/30_encoding.md R90 to R96). -/

namespace Sys2Proof.Machine

/-! ### The fields of a command word -/

theorem opcodeField_commandWord (opcode arg : Byte) : opcodeField (commandWord opcode arg) = opcode := by
  rw [opcodeField, commandWord, extractLsb'_append_low _ _ _ _ _ _ (by decide)]
  exact BitVec.extractLsb'_eq_self

theorem argField_commandWord (opcode arg : Byte) : argField (commandWord opcode arg) = arg := by
  rw [argField, commandWord, extractLsb'_append_high _ _ _ _ _ _ (by decide),
    extractLsb'_append_low _ _ _ _ _ _ (by decide)]
  exact BitVec.extractLsb'_eq_self

theorem reservedField_commandWord (opcode arg : Byte) : reservedField (commandWord opcode arg) = 0 := by
  rw [reservedField, commandWord, extractLsb'_append_high _ _ _ _ _ _ (by decide),
    extractLsb'_append_high _ _ _ _ _ _ (by decide)]
  exact BitVec.extractLsb'_eq_self

/-- A word whose RSVD is 0 is made of its OPCODE and its ARG (30_encoding.md R91). -/
theorem commandWord_of_reservedField (w : Word) (h : reservedField w = 0) :
    commandWord (opcodeField w) (argField w) = w := by
  have parts : (w.extractLsb' 16 16 ++ w.extractLsb' 8 8) ++ w.extractLsb' 0 8 = w := by
    apply BitVec.eq_of_getLsbD_eq
    intro i hi
    simp only [BitVec.getLsbD_append, BitVec.getLsbD_extractLsb']
    split
    · simp [*]
    · split
      · simp [*, show 8 + (i - 8) = i by omega]
      · simp [show i - 8 - 8 < 16 by omega, show 16 + (i - 8 - 8) = i by omega]
  rw [reservedField] at h
  rw [h] at parts
  exact parts

/-! ### What the decoder answers -/

/-- What the decoder can answer for a word, by the word's fields (30_encoding.md R92, R93). -/
inductive Decoded (w : Word) : Except DecodeError Instr → Prop
  | reservedBits (hrsvd : reservedField w ≠ 0) : Decoded w (.error .reservedBits)
  | reservedOpcode (hrsvd : reservedField w = 0) (hop : opcodeField w = 0 ∨ 8 ≤ (opcodeField w).toNat) :
      Decoded w (.error .reservedOpcode)
  | argumentNotZero (hrsvd : reservedField w = 0) (hop : opcodeField w ≠ 1) (harg : argField w ≠ 0) :
      Decoded w (.error .argumentNotZero)
  | selectBackend (hrsvd : reservedField w = 0) (hop : opcodeField w = 1) :
      Decoded w (.ok (.selectBackend ((argField w).setWidth 32)))
  | withoutArgument (i : Instr) (hrsvd : reservedField w = 0) (hlow : opcodeField w ≠ 0)
      (hhigh : (opcodeField w).toNat < 8) (harg : argField w = 0) (hwf : i.wellFormed = true)
      (hword : encode i = commandWord (opcodeField w) 0) : Decoded w (.ok i)

/-- The words of one command other than SELECT_BACKEND: its ARG decides (30_encoding.md R93). -/
theorem decoded_withoutArgument (w : Word) (opcode : Byte) (i : Instr) (hrsvd : reservedField w = 0)
    (hop : opcodeField w = opcode) (hrange : opcode ≠ 0 ∧ opcode ≠ 1 ∧ opcode.toNat < 8) (hwf : i.wellFormed = true)
    (hword : encode i = commandWord opcode 0) : Decoded w (withoutArgument (argField w) i) := by
  subst hop
  obtain ⟨hzero, hone, hhigh⟩ := hrange
  rw [withoutArgument]
  split
  · next harg => exact .withoutArgument i hrsvd hzero hhigh harg hwf hword
  · next harg => exact .argumentNotZero hrsvd hone harg

/-- Every word falls under one of these answers, illegal ones included (30_encoding.md R95). -/
theorem decode_cases (w : Word) : Decoded w (decode w) := by
  by_cases hrsvd : reservedField w = 0
  · rw [decode, if_neg (not_not_intro hrsvd)]
    have named : ∀ opcode : Byte, (opcodeField w).toNat = opcode.toNat → opcodeField w = opcode :=
      fun opcode => BitVec.eq_of_toNat_eq
    split
    · next hop => exact .selectBackend hrsvd (named 1 hop)
    · next hop => exact decoded_withoutArgument w 2 .keyExpand hrsvd (named 2 hop) (by decide) rfl rfl
    · next hop => exact decoded_withoutArgument w 3 .encBlock hrsvd (named 3 hop) (by decide) rfl rfl
    · next hop => exact decoded_withoutArgument w 4 .encBatch hrsvd (named 4 hop) (by decide) rfl rfl
    · next hop => exact decoded_withoutArgument w 5 .ctrInc hrsvd (named 5 hop) (by decide) rfl rfl
    · next hop => exact decoded_withoutArgument w 6 .streamEnc hrsvd (named 6 hop) (by decide) rfl rfl
    · next hop => exact decoded_withoutArgument w 7 .streamDec hrsvd (named 7 hop) (by decide) rfl rfl
    · rename_i h1 h2 h3 h4 h5 h6 h7
      rw [imp_false] at h1 h2 h3 h4 h5 h6 h7
      refine .reservedOpcode hrsvd ?_
      by_cases hzero : (opcodeField w).toNat = 0
      · exact .inl (named 0 hzero)
      · exact .inr (by omega)
  · rw [decode_of_reservedField w hrsvd]
    exact .reservedBits hrsvd

/-- A word of opcode 0x01 selects the backend its ARG names (30_encoding.md R91, R92). -/
theorem decode_commandWord_selectBackend (arg : Byte) :
    decode (commandWord 0x01 arg) = .ok (.selectBackend (arg.setWidth 32)) := by
  simp [decode, reservedField_commandWord, opcodeField_commandWord, argField_commandWord]

/-- The argument of a well-formed SELECT_BACKEND is its low byte, zero-extended (30_encoding.md R91). -/
theorem setWidth_arg_of_wellFormed (arg : Word) (h : (Instr.selectBackend arg).wellFormed = true) :
    (arg.setWidth 8).setWidth 32 = arg := by
  have hlt : arg.toNat < 256 := of_decide_eq_true h
  apply BitVec.eq_of_toNat_eq
  simp only [BitVec.toNat_setWidth]
  omega

/-- Settles O1: ARG is the one operand to recover, and every other command is one fixed word. -/
theorem decodeOfEncodeIsTheCommand : Obligations.DecodeOfEncodeIsTheCommand := by
  intro i hwf
  cases i with
  | selectBackend arg => rw [encode, decode_commandWord_selectBackend, setWidth_arg_of_wellFormed arg hwf]
  | keyExpand | encBlock | encBatch | ctrInc | streamEnc | streamDec => rfl

/-- Settles O2: a legal word has RSVD = 0, so it is made of the OPCODE and the ARG that its command keeps. -/
theorem encodeOfDecodeIsTheWord : Obligations.EncodeOfDecodeIsTheWord := by
  intro w i h
  have hcases := decode_cases w
  rw [h] at hcases
  cases hcases with
  | selectBackend hrsvd hop =>
    have harg : ((argField w).setWidth 32).setWidth 8 = argField w := by simp
    have hlt : ((argField w).setWidth 32).toNat < 256 := by
      rw [BitVec.toNat_setWidth_of_le (by decide)]
      exact (argField w).isLt
    refine ⟨decide_eq_true hlt, ?_⟩
    rw [encode, harg, ← hop, commandWord_of_reservedField w hrsvd]
  | withoutArgument _ hrsvd _ _ harg hwf hword =>
    exact ⟨hwf, by rw [hword, ← harg, commandWord_of_reservedField w hrsvd]⟩

/-- The illegal words, by their fields (30_encoding.md R93). -/
theorem decode_error_iff (w : Word) :
    (∃ e, decode w = .error e) ↔ reservedField w ≠ 0 ∨ opcodeField w = 0 ∨ 8 ≤ (opcodeField w).toNat ∨
      (opcodeField w ≠ 1 ∧ argField w ≠ 0) := by
  have hcases := decode_cases w
  generalize decode w = answer at hcases
  cases hcases with
  | reservedBits hrsvd => exact iff_of_true ⟨_, rfl⟩ (.inl hrsvd)
  | reservedOpcode _ hop => exact iff_of_true ⟨_, rfl⟩ (.inr (hop.imp_right .inl))
  | argumentNotZero _ hop harg => exact iff_of_true ⟨_, rfl⟩ (.inr (.inr (.inr ⟨hop, harg⟩)))
  | selectBackend hrsvd hop => exact iff_of_false nofun (by simp [hrsvd, hop])
  | withoutArgument i hrsvd hlow hhigh harg =>
    refine iff_of_false nofun ?_
    rintro (hr | hz | hge | ⟨_, ha⟩)
    exacts [hr hrsvd, hlow hz, Nat.not_le_of_lt hhigh hge, ha harg]

/-- Settles O4: the legal words are the words of their commands, the others break one condition of R93 each. -/
theorem sampleWordsDecode : Obligations.SampleWordsDecode :=
  have legal := decodeOfEncodeIsTheCommand
  ⟨legal (.selectBackend 1) rfl, legal (.selectBackend 3) rfl, legal .keyExpand rfl, legal .encBlock rfl,
    legal .encBatch rfl, legal .ctrInc rfl, legal .streamEnc rfl, legal .streamDec rfl, rfl, rfl, rfl⟩

/-! ### A CMD write as a step -/

/-- The atomic CMD write of a legal word runs the command it decodes to (30_encoding.md R96). -/
theorem step_command_of_decode_ok (s : State) (w : Word) (i : Instr) (rest : List Move)
    (h : s.schedule = .command w :: rest) (hw : decode w = .ok i) : step s = exec i { s with schedule := rest } := by
  rw [step_command s w rest h, runWord, hw]

/-- The atomic CMD write of an illegal word, on an IDLE engine, writes nothing but its outcome (30_encoding.md R93). -/
theorem step_command_of_decode_error (s : State) (w : Word) (e : DecodeError) (rest : List Move)
    (hidle : isBusy s = false) (h : s.schedule = .command w :: rest) (hw : decode w = .error e) :
    step s = .next (endedWith .illegalCommand 0 0 { s with schedule := rest }) := by
  rw [step_command s w rest h, runWord, hw]
  dsimp only
  rw [runCommand_idle w illegalCommand { s with schedule := rest } hidle, illegalCommand, complete_accept]

/-- `withFetchWord` puts the atomic CMD write of a word at the head of the schedule of an IDLE engine (log entry 1). -/
theorem withFetchWord_toNat (s : State) (w : Word) :
    s.withFetchWord 32 w.toNat = { s with seq := .idle, schedule := .command w :: s.schedule } := by
  rw [State.withFetchWord, Nat.mod_eq_of_lt w.isLt, BitVec.ofNat_toNat, BitVec.setWidth_eq]

/-- Settles O3: the conditions of R93 by fields, and the completion of a word that meets one. -/
theorem illegalWordsCompleteWithIllegalCommand : Obligations.IllegalWordsCompleteWithIllegalCommand :=
  ⟨decode_error_iff, fun s w rest hidle h ⟨e, hw⟩ => step_command_of_decode_error s w e rest hidle h hw⟩

/-- Settles O5: the step of the CMD write, and the state whose oldest move is that of a command's own word. -/
theorem stepRunsTheDecodedCommand : Obligations.StepRunsTheDecodedCommand := by
  refine ⟨fun s w i rest h hw _ => step_command_of_decode_ok s w i rest h hw, fun s i hwf => ?_⟩
  rw [withFetchWord_toNat]
  exact step_command_of_decode_ok _ _ i s.schedule rfl (decodeOfEncodeIsTheCommand i hwf)

/-- Settles O16: the host's write of CMD while IDLE is acceptance. -/
theorem cmdWriteAcceptsTheCommand : Obligations.CmdWriteAcceptsTheCommand :=
  fun s w rest hidle h => step_writeReg_idle s .cmd w rest hidle h

end Sys2Proof.Machine

/-! SUPPORT. The Counter: what CTR_INC makes of its operand, and which moves can change the Nonce (spec/40_counter.md
R120 to R127). -/

namespace Sys2Proof.Machine

/-! ### The increment operand and CTR_INC -/

/-- The operand's sign bit is bit 31 of INC_HI (10_state.md R34, 40_counter.md R127). -/
theorem msb_incOperand (s : State) : (s.incHi ++ s.incLo : BitVec 64).msb = s.incHi.getLsbD 31 := by
  rw [BitVec.msb_append, if_neg (by decide), BitVec.msb_eq_getLsbD_last]

/-- The operand is negative exactly when its sign bit is set (40_counter.md R127). -/
theorem incOperand_neg_iff (s : State) : incOperand s < 0 ↔ s.incHi.getLsbD 31 = true := by
  rw [incOperand, ← msb_incOperand, BitVec.msb_eq_toInt, decide_eq_true_iff]

/-- An operand whose sign bit is clear is the number its two words spell (10_state.md R34). -/
theorem incOperand_of_nonneg (s : State) (h : s.incHi.getLsbD 31 = false) :
    incOperand s = (s.incHi.toNat * 2 ^ 32 + s.incLo.toNat : Nat) := by
  have hsign : (s.incHi ++ s.incLo : BitVec 64).msb = false := (msb_incOperand s).trans h
  rw [incOperand, BitVec.toInt_eq_toNat_of_msb hsign, BitVec.toNat_append,
    ← Nat.shiftLeft_add_eq_or_of_lt s.incLo.isLt, Nat.shiftLeft_eq]

/-- On an IDLE engine a refused increment leaves the Counter as it is (40_counter.md R125, R127). -/
theorem exec_ctrInc_of_error (s : State) (o : Completion) (hidle : isBusy s = false)
    (h : increment (blockIndex s) (incOperand s) = .error o) : exec .ctrInc s = .next (endedWith o 0 0 s) := by
  rw [exec_idle _ _ hidle, commandBody, ctrIncBody, blockIndex_accept, incOperand_accept, h]
  rfl

/-- On an IDLE engine an increment that fits is written back to the BlockIndex (40_counter.md R123, R127). -/
theorem exec_ctrInc_of_ok (s : State) (b : BitVec 64) (hidle : isBusy s = false)
    (h : increment (blockIndex s) (incOperand s) = .ok b) :
    exec .ctrInc s = .next (endedWith .ok 0 0 (setBlockIndex s b)) := by
  rw [exec_idle _ _ hidle, commandBody, ctrIncBody, blockIndex_accept, incOperand_accept, h]
  rfl

/-- Settles O22: the three answers of `increment`, told apart by the sign of the operand and by the full sum. -/
theorem ctrIncEffect : Obligations.CtrIncEffect := by
  refine ⟨rfl, fun s hidle => ⟨fun hneg => ?_, fun hpos hover => ?_, fun hpos hfits => ?_⟩⟩
  · exact exec_ctrInc_of_error s _ hidle (increment_of_neg _ _ ((incOperand_neg_iff s).mpr hneg))
  · have hn := incOperand_of_nonneg s hpos
    exact exec_ctrInc_of_error s _ hidle (increment_of_overflow _ _ (by omega) (by omega))
  · have hn := incOperand_of_nonneg s hpos
    have hinc := increment_of_fits (blockIndex s) (incOperand s) (by omega) (by omega)
    refine ⟨_, exec_ctrInc_of_ok s _ hidle hinc, rfl, rfl, ?_⟩
    calc (blockIndex (setBlockIndex s (BitVec.ofNat 64 ((blockIndex s).toNat + (incOperand s).toNat)))).toNat
        = (BitVec.ofNat 64 ((blockIndex s).toNat + (incOperand s).toNat)).toNat := by rw [blockIndex_setBlockIndex]
      _ = (blockIndex s).toNat + (s.incHi.toNat * 2 ^ 32 + s.incLo.toNat) := by
        rw [hn, Int.toNat_natCast, BitVec.toNat_ofNat, Nat.mod_eq_of_lt hfits]

/-! ### Which moves change the Nonce -/

/-- The Nonce is the first two words of the Counter (40_counter.md R120). -/
theorem nonce_congr {s t : State} (h0 : t.ctr[0] = s.ctr[0]) (h1 : t.ctr[1] = s.ctr[1]) : nonce t = nonce s := by
  rw [nonce, nonce, h0, h1]

theorem loopFrame.nonce_eq {s t : State} (h : loopFrame s t) : nonce t = nonce s := by
  obtain ⟨_, h0, h1⟩ := h
  exact nonce_congr h0 h1

/-- No command changes the Nonce (40_counter.md R122). -/
theorem nonce_commandBody (i : Instr) (s : State) : nonce (commandBody i s) = nonce s := by
  obtain ⟨o, result, phys, u, h, _, h0, h1⟩ := commandBody_completes i s
  rw [h, nonce_complete]
  exact nonce_congr h0 h1

theorem nonce_runCommand (w : Word) (body : State → State) (s : State) (h : ∀ u, nonce (body u) = nonce u) :
    nonce (runCommand w body s) = nonce s := by
  cases hbusy : isBusy s with
  | true => rw [runCommand_busy w body s hbusy]
  | false => rw [runCommand_idle w body s hbusy, h, nonce_accept]

/-- No micro-step of the engine changes the Nonce (40_counter.md R122). -/
theorem nonce_engineStep (s : State) : nonce (engineStep s) = nonce s := by
  rcases engineStep_cases s with ⟨_, he⟩ | ⟨r, _, _, he⟩ | ⟨r, l, stage, _, _, he⟩
  · rw [he]
  · rcases beginCommand_cases r s with ⟨e, _, hb⟩ | ⟨l, _, hb⟩ | ⟨i, _, _, hb⟩
    · rw [he, hb, nonce_complete]
    · rw [he, hb, (beginLoop_frame r l s).nonce_eq]
    · rw [he, hb, nonce_commandBody]
  · rw [he, (loopStep_frame r l stage s).nonce_eq]

/-- Of the host's register writes only those of CTR0 and CTR1 reach the Nonce (10_state.md R32). -/
theorem nonce_writeRegisterIdle (r : Reg) (v : Word) (s : State) (h0 : r ≠ .ctr 0) (h1 : r ≠ .ctr 1) :
    nonce (writeRegisterIdle r v s) = nonce s := by
  cases r with
  | ctr i =>
    have hi0 : i.val ≠ 0 := fun h => h0 (congrArg Reg.ctr (Fin.ext h))
    have hi1 : i.val ≠ 1 := fun h => h1 (congrArg Reg.ctr (Fin.ext h))
    exact nonce_congr (Vector.getElem_set_ne i.isLt _ hi0) (Vector.getElem_set_ne i.isLt _ hi1)
  | status => rw [writeRegisterIdle]; split <;> rfl
  | _ => rfl

/-- A host write of the window keeps the Nonce, unless it writes CTR0 or CTR1 of an IDLE engine (10_state.md R32,
R39). -/
theorem nonce_writeWindow_cases (offset : BitVec 8) (v : Word) (s : State) :
    nonce (writeWindow offset v s) = nonce s ∨ (offset = 0x40 ∨ offset = 0x44) ∧ isBusy s = false := by
  rw [writeWindow]
  split
  · exact .inl rfl
  · next r hr =>
    have hoff := regOffset_of_regAt offset r hr
    by_cases hnonce : r = .ctr 0 ∨ r = .ctr 1
    · have hctrl : r ≠ .ctrl := by rcases hnonce with rfl | rfl <;> nofun
      cases hbusy : isBusy s with
      | true => exact .inl (by rw [writeRegister_busy r v s hbusy hctrl])
      | false => exact .inr ⟨hnonce.imp (fun h => (h ▸ hoff).symm) (fun h => (h ▸ hoff).symm), rfl⟩
    · obtain ⟨h0, h1⟩ := not_or.mp hnonce
      rw [writeRegister]
      split
      · exact .inl rfl
      · exact .inl (nonce_writeRegisterIdle r v s h0 h1)

/-- Every move keeps the Nonce, but a host write of CTR0 or CTR1 of an IDLE engine and a reset. -/
theorem perform_nonce_cases (m : Move) (s t : State) (hm : perform m s = .next t) :
    nonce t = nonce s ∨
    (∃ offset v, m = .writeReg offset .word v ∧ (offset = 0x40 ∨ offset = 0x44) ∧ isBusy s = false) ∨
    ∃ landed, m = .reset landed := by
  rcases perform_next_cases m s t hm with ⟨_, rfl⟩ | ⟨w, i, _, _, rfl⟩ | ⟨w, e, _, _, rfl⟩ |
    ⟨offset, v, hwrite, _, rfl⟩ | ⟨offset, _, _, rfl⟩ | ⟨a, v, hostWins, _, _, rfl⟩ |
    ⟨a, engineValue, _, _, rfl⟩ | ⟨landed, hreset, _⟩
  · exact .inl (nonce_engineStep s)
  · exact .inl (nonce_runCommand _ _ s (nonce_commandBody i))
  · exact .inl (nonce_runCommand _ _ s fun _ => rfl)
  · exact (nonce_writeWindow_cases offset v s).imp_right fun h => .inl ⟨offset, v, hwrite, h⟩
  · rw [readWindow_frame]; exact .inl rfl
  · exact .inl rfl
  · exact .inl rfl
  · exact .inr (.inr ⟨landed, hreset⟩)

/-- Settles O52: the engine's own step keeps the Nonce, and so does every scheduled move but the two named. -/
theorem nonceChangesOnlyByHostOrReset : Obligations.NonceChangesOnlyByHostOrReset := by
  intro s t h hchange
  rcases step_next_cases s t h with ⟨_, rfl⟩ | ⟨m, rest, hs, hm⟩
  · exact absurd (nonce_engineStep s) hchange
  · rcases perform_nonce_cases m _ t hm with hkept | ⟨offset, v, rfl, hoff, hidle⟩ | ⟨landed, rfl⟩
    · exact absurd hkept hchange
    · exact .inl ⟨offset, v, rest, hoff, hidle, hs⟩
    · exact .inr ⟨landed, rest, hs⟩

end Sys2Proof.Machine

/-! SUPPORT. The field GF(2^8): multiplication by x is linear, and from it the laws of the product; the inverse is
unique, and the S-box table is its affine image (spec/41_key_schedule.md R140 to R145). -/

namespace Sys2Proof.Machine

/-! ### Multiplication by x -/

/-- A carry out of bit 7 is reduced by 0x1B, the low byte of 0x11B (41_key_schedule.md R140, R141). -/
theorem xtime_eq (b : Byte) : xtime b = if b.getLsbD 7 then (b <<< 1) ^^^ 0x1b else b <<< 1 := by
  have hcarry : (b ++ 0#1).getLsbD 8 = b.getLsbD 7 := BitVec.getLsbD_append
  have hshift : (b ++ 0#1).setWidth 8 = b <<< 1 := BitVec.eq_of_getLsbD_eq fun i hi => by
    rw [BitVec.getLsbD_setWidth, BitVec.getLsbD_append, BitVec.getLsbD_shiftLeft, decide_eq_true hi]
    cases i <;> rfl
  rw [xtime, hcarry, apply_ite (BitVec.setWidth 8), BitVec.setWidth_xor, hshift]
  rfl

/-- A summand that both sides hold cancels. -/
theorem xor_xor_xor_cancel (a b c : Byte) : a ^^^ c ^^^ (b ^^^ c) = a ^^^ b := by
  rw [BitVec.xor_comm b, ← BitVec.xor_assoc, BitVec.xor_assoc a, BitVec.xor_self, BitVec.xor_zero]

theorem xtime_xor (a b : Byte) : xtime (a ^^^ b) = xtime a ^^^ xtime b := by
  simp only [xtime_eq, BitVec.getLsbD_xor, BitVec.shiftLeft_xor_distrib]
  cases a.getLsbD 7 <;> cases b.getLsbD 7
  · rfl
  · exact BitVec.xor_assoc _ _ _
  · show a <<< 1 ^^^ b <<< 1 ^^^ 0x1b = a <<< 1 ^^^ 0x1b ^^^ b <<< 1
    ac_rfl
  · exact (xor_xor_xor_cancel _ _ _).symm

/-- A property of 0 and of every power of two that sums keep holds of every byte: a byte is the sum of its bits
(41_key_schedule.md R140). -/
theorem byte_induction_on_bits {P : Byte → Prop} (zero : P 0) (xor : ∀ a b, P a → P b → P (a ^^^ b))
    (bit : ∀ i < 8, P (BitVec.twoPow 8 i)) (b : Byte) : P b := by
  suffices h : ∀ n ≤ 8, ∀ b : Byte, (∀ i, n ≤ i → b.getLsbD i = false) → P b from
    h 8 le_rfl b fun i hi => BitVec.getLsbD_of_ge b i hi
  intro n
  induction n with
  | zero =>
    intro _ b hb
    rwa [show b = 0 from BitVec.eq_of_getLsbD_eq fun i _ => by simp [hb i]]
  | succ n ih =>
    intro hn b hb
    by_cases hbit : b.getLsbD n = true
    · have hrest : P (b ^^^ BitVec.twoPow 8 n) := by
        refine ih (by omega) _ fun i hi => ?_
        rcases Nat.eq_or_lt_of_le hi with rfl | hlt
        · simp [hbit, show n < 8 by omega]
        · simp [hb i hlt, show n ≠ i by omega]
      have hsum := xor _ _ hrest (bit n (by omega))
      rwa [BitVec.xor_assoc, BitVec.xor_self, BitVec.xor_zero] at hsum
    · refine ih (by omega) b fun i hi => ?_
      rcases Nat.eq_or_lt_of_le hi with rfl | hlt
      · simpa using hbit
      · exact hb i hlt

/-- A property of 0 and 1 that sums and multiplication by x keep holds of every byte: the powers of two are the powers
of x (41_key_schedule.md R140). -/
theorem byte_induction_on_xtime {P : Byte → Prop} (zero : P 0) (one : P 1) (xor : ∀ a b, P a → P b → P (a ^^^ b))
    (mulX : ∀ a, P a → P (xtime a)) (b : Byte) : P b := by
  refine byte_induction_on_bits zero xor (fun i hi => ?_) b
  induction i with
  | zero => exact one
  | succ i ih =>
    have hpower : ∀ i < 7, BitVec.twoPow 8 (i + 1) = xtime (BitVec.twoPow 8 i) := by decide
    rw [hpower i (by omega)]
    exact mulX _ (ih (by omega))

/-! ### The product -/

theorem gmulLoop_xor_left (n : Nat) (a a' b r r' : Byte) :
    gmulLoop n (a ^^^ a') b (r ^^^ r') = gmulLoop n a b r ^^^ gmulLoop n a' b r' := by
  induction n generalizing a a' b r r' with
  | zero => rfl
  | succ n ih =>
    simp only [gmulLoop, xtime_xor]
    rw [← ih]
    cases b.getLsbD 0
    · rfl
    · show gmulLoop n _ _ (r ^^^ r' ^^^ (a ^^^ a')) = gmulLoop n _ _ (r ^^^ a ^^^ (r' ^^^ a'))
      congr 1
      ac_rfl

theorem gmulLoop_xor_right (n : Nat) (a b b' r r' : Byte) :
    gmulLoop n a (b ^^^ b') (r ^^^ r') = gmulLoop n a b r ^^^ gmulLoop n a b' r' := by
  induction n generalizing a b b' r r' with
  | zero => rfl
  | succ n ih =>
    simp only [gmulLoop, BitVec.getLsbD_xor, BitVec.ushiftRight_xor_distrib]
    rw [← ih]
    congr 1
    cases b.getLsbD 0 <;> cases b'.getLsbD 0
    · rfl
    · exact BitVec.xor_assoc _ _ _
    · show r ^^^ r' ^^^ a = r ^^^ a ^^^ r'
      ac_rfl
    · exact (xor_xor_xor_cancel _ _ _).symm

theorem gmulLoop_xtime_left (n : Nat) (a b r : Byte) :
    gmulLoop n (xtime a) b (xtime r) = xtime (gmulLoop n a b r) := by
  induction n generalizing a b r with
  | zero => rfl
  | succ n ih =>
    simp only [gmulLoop]
    rw [← ih, apply_ite xtime, xtime_xor]

theorem gmul_xor_left (a a' b : Byte) : gmul (a ^^^ a') b = gmul a b ^^^ gmul a' b :=
  gmulLoop_xor_left 8 a a' b 0 0

theorem gmul_xor_right (a b b' : Byte) : gmul a (b ^^^ b') = gmul a b ^^^ gmul a b' :=
  gmulLoop_xor_right 8 a b b' 0 0

theorem gmul_xtime_left (a b : Byte) : gmul (xtime a) b = xtime (gmul a b) :=
  gmulLoop_xtime_left 8 a b 0

@[simp] theorem gmul_zero_left (b : Byte) : gmul 0 b = 0 := by
  have h := gmul_xor_left 0 0 b
  rwa [BitVec.xor_self, BitVec.xor_self] at h

@[simp] theorem gmul_zero_right (a : Byte) : gmul a 0 = 0 := rfl

@[simp] theorem gmul_one_left (b : Byte) : gmul 1 b = b := by
  refine byte_induction_on_bits (P := fun b => gmul 1 b = b) rfl (fun a b ha hb => ?_) (by decide) b
  rw [gmul_xor_right, ha, hb]

@[simp] theorem gmul_one_right (a : Byte) : gmul a 1 = a := BitVec.zero_xor

theorem gmul_two_right (a : Byte) : gmul a 2 = xtime a := BitVec.zero_xor

theorem gmul_three_right (a : Byte) : gmul a 3 = xtime a ^^^ a := by
  rw [show (3 : Byte) = 2 ^^^ 1 from rfl, gmul_xor_right, gmul_two_right, gmul_one_right]

theorem gmul_xtime_right (a b : Byte) : gmul a (xtime b) = xtime (gmul a b) := by
  refine byte_induction_on_xtime (P := fun a => gmul a (xtime b) = xtime (gmul a b)) ?_ ?_ (fun a a' ha ha' => ?_)
    (fun a ha => ?_) a
  · rw [gmul_zero_left, gmul_zero_left]; rfl
  · rw [gmul_one_left, gmul_one_left]
  · rw [gmul_xor_left, gmul_xor_left, ha, ha', xtime_xor]
  · rw [gmul_xtime_left, gmul_xtime_left, ha]

theorem gmul_comm (a b : Byte) : gmul a b = gmul b a := by
  refine byte_induction_on_xtime (P := fun a => gmul a b = gmul b a) ?_ ?_ (fun a a' ha ha' => ?_) (fun a ha => ?_) a
  · rw [gmul_zero_left, gmul_zero_right]
  · rw [gmul_one_left, gmul_one_right]
  · rw [gmul_xor_left, gmul_xor_right, ha, ha']
  · rw [gmul_xtime_left, gmul_xtime_right, ha]

theorem gmul_assoc (a b c : Byte) : gmul (gmul a b) c = gmul a (gmul b c) := by
  refine byte_induction_on_xtime (P := fun a => gmul (gmul a b) c = gmul a (gmul b c)) ?_ ?_ (fun a a' ha ha' => ?_)
    (fun a ha => ?_) a
  · rw [gmul_zero_left, gmul_zero_left, gmul_zero_left]
  · rw [gmul_one_left, gmul_one_left]
  · rw [gmul_xor_left, gmul_xor_left, gmul_xor_left, ha, ha']
  · rw [gmul_xtime_left, gmul_xtime_left, gmul_xtime_left, ha]

/-- Settles O24: linearity is an induction on the loop of `gmul`; commutativity follows on sums of powers of x. -/
theorem fieldProductIsMultiplication : Obligations.FieldProductIsMultiplication :=
  ⟨xtime_eq, fun a b c => ⟨gmul_xor_left a b c, gmul_xor_right a b c, gmul_comm a b, gmul_xtime_left a b,
    gmul_one_right a, gmul_two_right a, gmul_three_right a⟩⟩

/-! ### The inverse -/

/-- Two inverses of a byte are equal (41_key_schedule.md R143). -/
theorem gmul_inverse_unique (b c d : Byte) (hc : gmul b c = 1) (hd : gmul b d = 1) : c = d :=
  calc c = gmul c (gmul b d) := by rw [hd, gmul_one_right]
    _ = gmul (gmul b c) d := by rw [← gmul_assoc, gmul_comm c b]
    _ = d := by rw [hc, gmul_one_left]

/-- A byte with an inverse has `gfInverse` as one: the search finds it (41_key_schedule.md R143). -/
theorem gmul_gfInverse_of_gmul_eq_one (b c : Byte) (h : gmul b c = 1) : gmul b (gfInverse b) = 1 := by
  have hfound : (((List.range 256).map (BitVec.ofNat 8)).find? fun c => gmul b c == 1).isSome := by
    refine List.find?_isSome.mpr ⟨c, List.mem_map.mpr ⟨c.toNat, List.mem_range.mpr c.isLt, ?_⟩, by simp [h]⟩
    rw [BitVec.ofNat_toNat, BitVec.setWidth_eq]
  obtain ⟨d, hd⟩ := Option.isSome_iff_exists.mp hfound
  rw [gfInverse, hd]
  simpa using List.find?_some hd

theorem gfInverse_eq (b c : Byte) (h : gmul b c = 1) : gfInverse b = c :=
  gmul_inverse_unique b _ _ (gmul_gfInverse_of_gmul_eq_one b c h) h

theorem gfInverse_zero : gfInverse 0 = 0 := by
  rw [gfInverse, List.find?_eq_none.mpr fun c _ => by rw [gmul_zero_left]; decide]
  rfl

/-! ### The S-box -/

theorem getLsbD_rotateRight_byte (b : Byte) (k i : Nat) (hk : k < 8) (hi : i < 8) :
    (b.rotateRight k).getLsbD i = b.getLsbD ((i + k) % 8) := by
  rw [BitVec.getLsbD_rotateRight, Nat.mod_eq_of_lt hk]
  by_cases h : i < 8 - k
  · rw [decide_eq_true h, cond_true, Nat.mod_eq_of_lt (by omega), Nat.add_comm]
  · rw [decide_eq_false h, cond_false, decide_eq_true hi, Bool.true_and]
    congr 1
    omega

/-- The affine map bit by bit (41_key_schedule.md R144). -/
theorem getLsbD_sboxAffine (b : Byte) (i : Nat) (hi : i < 8) :
    (sboxAffine b).getLsbD i =
      (b.getLsbD i ^^ b.getLsbD ((i + 4) % 8) ^^ b.getLsbD ((i + 5) % 8) ^^ b.getLsbD ((i + 6) % 8) ^^
        b.getLsbD ((i + 7) % 8) ^^ (0x63#8).getLsbD i) := by
  simp only [sboxAffine, BitVec.getLsbD_xor]
  rw [getLsbD_rotateRight_byte b 4 i (by omega) hi, getLsbD_rotateRight_byte b 5 i (by omega) hi,
    getLsbD_rotateRight_byte b 6 i (by omega) hi, getLsbD_rotateRight_byte b 7 i (by omega) hi]
  rfl

/-- The affine map undone: bit `i` is the sum of bits `i+2`, `i+5` and `i+7` modulo 8 and of bit `i` of 0x05. -/
def sboxAffineUndo (y : Byte) : Byte := y.rotateRight 2 ^^^ y.rotateRight 5 ^^^ y.rotateRight 7 ^^^ 0x05

theorem sboxAffine_sboxAffineUndo : ∀ y : Byte, sboxAffine (sboxAffineUndo y) = y := by decide +kernel

/-- Each entry of the table but the first, taken back through the affine map, is the inverse of its index: one product
per entry of the table of 41_key_schedule.md R145. -/
theorem gmul_sboxAffineUndo_sbox : ∀ x : Byte, x ≠ 0 → gmul x (sboxAffineUndo (sbox x)) = 1 := by decide +kernel

theorem gfInverse_eq_sboxAffineUndo (x : Byte) (hx : x ≠ 0) : gfInverse x = sboxAffineUndo (sbox x) :=
  gfInverse_eq x _ (gmul_sboxAffineUndo_sbox x hx)

theorem sbox_eq_sboxAffine_gfInverse (x : Byte) : sbox x = sboxAffine (gfInverse x) := by
  by_cases hx : x = 0
  · rw [hx, gfInverse_zero]
    decide
  · rw [gfInverse_eq_sboxAffineUndo x hx, sboxAffine_sboxAffineUndo]

theorem gmul_eq_one_iff (b : Byte) (hb : b ≠ 0) (c : Byte) : gmul b c = 1 ↔ c = gfInverse b := by
  constructor
  · exact fun h => (gfInverse_eq b c h).symm
  · rintro rfl
    exact gmul_gfInverse_of_gmul_eq_one b _ (gmul_sboxAffineUndo_sbox b hb)

/-- Settles O23: the inverse is unique because the product is associative and commutative, so one product per entry of
the table identifies it. -/
theorem sboxIsAffineOfInverse : Obligations.SboxIsAffineOfInverse :=
  ⟨sbox_eq_sboxAffine_gfInverse, getLsbD_sboxAffine, gfInverse_zero, gmul_eq_one_iff⟩

end Sys2Proof.Machine

/-! SUPPORT. The word operations of the key expansion byte by byte, its recurrence, and KEY_EXPAND
(spec/41_key_schedule.md R146 to R152). -/

namespace Sys2Proof.Machine

/-! ### Word operations -/

/-- RotWord moves every byte one place to the front (41_key_schedule.md R146). -/
theorem wordByte_rotWord (a : Word) (j : Nat) (hj : j < 4) :
    wordByte (rotWord a) j = wordByte a ((j + 1) % 4) := by
  obtain ⟨h0, h1, h2, h3⟩ := wordByte_wordOf (wordByte a 1) (wordByte a 2) (wordByte a 3) (wordByte a 0)
  interval_cases j
  · exact h0
  · exact h1
  · exact h2
  · exact h3

/-- SubWord substitutes every byte in its place (41_key_schedule.md R146). -/
theorem wordByte_subWord (a : Word) (j : Nat) (hj : j < 4) : wordByte (subWord a) j = sbox (wordByte a j) := by
  obtain ⟨h0, h1, h2, h3⟩ :=
    wordByte_wordOf (sbox (wordByte a 0)) (sbox (wordByte a 1)) (sbox (wordByte a 2)) (sbox (wordByte a 3))
  interval_cases j
  · exact h0
  · exact h1
  · exact h2
  · exact h3

theorem wordByte_xor (a b : Word) (j : Nat) : wordByte (a ^^^ b) j = wordByte a j ^^^ wordByte b j :=
  BitVec.extractLsb'_xor

/-- `Rcon[j]` is `rc_j` followed by zeros (41_key_schedule.md R147). -/
theorem wordByte_rcon_zero (j : Nat) : wordByte (rcon j) 0 = roundConstant j :=
  (wordByte_wordOf (roundConstant j) 0 0 0).1

theorem wordByte_rcon_pos (j k : Nat) (hk : 0 < k) (hk4 : k < 4) : wordByte (rcon j) k = 0 := by
  obtain ⟨_, h1, h2, h3⟩ := wordByte_wordOf (roundConstant j) 0 0 0
  interval_cases k
  · exact h1
  · exact h2
  · exact h3

/-- The round constants double from the second on (41_key_schedule.md R147). -/
theorem roundConstant_of_two_le (j : Nat) (hj : 2 ≤ j) : roundConstant j = xtime (roundConstant (j - 1)) := by
  obtain ⟨k, rfl⟩ := Nat.exists_eq_add_of_le' hj
  rfl

/-- Settles O25: each word operation gives its word by its bytes, and `wordByte` reads them back. -/
theorem wordOperationsOnBytes : Obligations.WordOperationsOnBytes := by
  refine ⟨fun a b j hj => ⟨wordByte_rotWord a j hj, wordByte_subWord a j hj, wordByte_xor a b j⟩, ⟨?_, ?_⟩, ?_,
    wordByte_rcon_pos⟩
  · exact wordByte_rcon_zero 1
  · intro j hj
    rw [wordByte_rcon_zero, wordByte_rcon_zero, roundConstant_of_two_le j hj]
  · simp only [wordByte_rcon_zero]
    decide

/-! ### The key expansion -/

/-- The first 8 words of the expansion are the key (41_key_schedule.md R148). -/
theorem expandKey_getElem_of_lt (key : Vector Word 8) (i : Nat) (hi : i < 8) : (expandKey key)[i] = key[i] := by
  rw [expandKey_getElem, expandLoop_getElem_of_lt 52 _ i (by simpa using hi), Vector.getElem_toList]

/-- The recurrence read at the end of the first `i` words of a list (41_key_schedule.md R149). -/
theorem nextScheduleWord_take (ws : List Word) (i : Nat) (h8 : 8 ≤ i) (hi : i < ws.length) :
    nextScheduleWord (ws.take i) = ws[i - 8] ^^^ scheduleTemp i ws[i - 1] := by
  have hread : ∀ k (hk : k < i), (ws.take i).getD k 0 = ws[k] := fun k hk => by
    rw [List.getD_eq_getElem _ _ (by rw [List.length_take]; omega), List.getElem_take]
  rw [nextScheduleWord, List.length_take_of_le hi.le, hread _ (by omega), hread _ (by omega)]

/-- Every later word of the expansion, from the words one and eight before it (41_key_schedule.md R149). -/
theorem expandKey_getElem_of_le (key : Vector Word 8) (i : Nat) (h8 : 8 ≤ i) (h : i < 60) :
    (expandKey key)[i] = (expandKey key)[i - 8] ^^^ scheduleTemp i (expandKey key)[i - 1] := by
  have hlen := expandLoop_length_of_key key
  simp only [expandKey_getElem]
  rw [expandLoop_getElem_of_le 52 _ i (by simpa using h8), nextScheduleWord_take _ i h8 (by omega)]

/-- Settles O26: `scheduleTemp` is the case split of the recurrence. -/
theorem keyExpansionRecurrence : Obligations.KeyExpansionRecurrence := fun key i h =>
  ⟨fun h8 => expandKey_getElem_of_lt key i h8, fun h8 => expandKey_getElem_of_le key i h8 h⟩

/-! ### KEY_EXPAND -/

/-- On an IDLE engine KEY_EXPAND expands the key store and clears it (41_key_schedule.md R152). -/
theorem exec_keyExpand (s : State) (hidle : isBusy s = false) :
    exec .keyExpand s = .next
      (endedWith .ok 0 0 { s with rk := expandKey s.key, key := Vector.replicate 8 0, rkValid := true }) := by
  rw [exec_idle _ _ hidle]
  rfl

/-- Settles O20: the second expansion finds the zeros the first one left in the key store. -/
theorem keyExpandEffect : Obligations.KeyExpandEffect := by
  refine ⟨rfl, fun s hidle => ⟨exec_keyExpand s hidle, fun t u ht hu => ?_⟩⟩
  rw [exec_keyExpand s hidle] at ht
  cases ht
  rw [exec_keyExpand _ (isBusy_of_idle _ (endedWith_seq _ _ _ _))] at hu
  cases hu
  rfl

end Sys2Proof.Machine

/-! SUPPORT. The cipher on its cells and round by round, ENC_BLOCK, and ENC_BATCH on an IDLE engine
(spec/42_block_cipher.md R170 to R180). -/

namespace Sys2Proof.Machine

/-! ### The four transformations on cells -/

theorem stateCell_subBytes (b : Block) (r c : Nat) (hr : r < 4) (hc : c < 4) :
    stateCell (subBytes b) r c = sbox (stateCell b r c) :=
  stateCell_blockOfCells _ r c hr hc

theorem stateCell_shiftRows (b : Block) (r c : Nat) (hr : r < 4) (hc : c < 4) :
    stateCell (shiftRows b) r c = stateCell b r ((c + r) % 4) :=
  stateCell_blockOfCells _ r c hr hc

/-- Column `c` after MixColumns, row by row (42_block_cipher.md R173). -/
theorem stateCell_mixColumns (b : Block) (c : Nat) (hc : c < 4) :
    stateCell (mixColumns b) 0 c =
      gmul (stateCell b 0 c) 2 ^^^ gmul (stateCell b 1 c) 3 ^^^ stateCell b 2 c ^^^ stateCell b 3 c ∧
    stateCell (mixColumns b) 1 c =
      stateCell b 0 c ^^^ gmul (stateCell b 1 c) 2 ^^^ gmul (stateCell b 2 c) 3 ^^^ stateCell b 3 c ∧
    stateCell (mixColumns b) 2 c =
      stateCell b 0 c ^^^ stateCell b 1 c ^^^ gmul (stateCell b 2 c) 2 ^^^ gmul (stateCell b 3 c) 3 ∧
    stateCell (mixColumns b) 3 c =
      gmul (stateCell b 0 c) 3 ^^^ stateCell b 1 c ^^^ stateCell b 2 c ^^^ gmul (stateCell b 3 c) 2 :=
  ⟨stateCell_blockOfCells _ 0 c (by omega) hc, stateCell_blockOfCells _ 1 c (by omega) hc,
    stateCell_blockOfCells _ 2 c (by omega) hc, stateCell_blockOfCells _ 3 c (by omega) hc⟩

/-- A round key is four words of the expanded key, packed as a datum in four registers is (41_key_schedule.md R150). -/
theorem roundKey_eq_blockOfRegs (rk : Vector Word 60) (k : Fin 15) :
    roundKey rk k = blockOfRegs (Vector.ofFn fun c : Fin 4 => rk[4 * k.val + c.val]) := by
  simp only [blockOfRegs, Vector.getElem_ofFn]
  rfl

/-- Word `c` of a round key is its column `c` (42_block_cipher.md R174). -/
theorem stateCell_roundKey (rk : Vector Word 60) (k : Fin 15) (r c : Nat) (hr : r < 4) (hc : c < 4) :
    stateCell (roundKey rk k) r c = wordByte (rk[4 * k.val + c]'(by omega)) r := by
  rw [stateCell, roundKey_eq_blockOfRegs, Nat.add_comm r, blockByte_blockOfRegs _ c r hc hr, Vector.getElem_ofFn]

theorem stateCell_addRoundKey (rk : Vector Word 60) (k : Fin 15) (b : Block) (r c : Nat) (hr : r < 4) (hc : c < 4) :
    stateCell (addRoundKey rk k b) r c = stateCell b r c ^^^ wordByte (rk[4 * k.val + c]'(by omega)) r := by
  rw [← stateCell_roundKey rk k r c hr hc]
  exact blockByte_xor _ _ _

/-- Settles O27: each transformation gives its block by its cells, and `stateCell` reads them back. -/
theorem roundTransformationsOnCells : Obligations.RoundTransformationsOnCells := by
  intro b r c hr hc
  obtain ⟨hrow0, hrow1, hrow2, hrow3⟩ := stateCell_mixColumns b c hc
  exact ⟨rfl, stateCell_subBytes b r c hr hc, stateCell_shiftRows b r c hr hc, hrow0, hrow1, hrow2, hrow3,
    fun rk k => stateCell_addRoundKey rk k b r c hr hc⟩

/-! ### The rounds -/

/-- The cipher state after the initial AddRoundKey and rounds 1 to `n`, for `n` up to 13 (42_block_cipher.md R175). -/
def stateAfterRound (rk : Vector Word 60) (input : Block) : Nat → Block
  | 0 => addRoundKey rk 0 input
  | n + 1 => cipherRound rk (stateAfterRound rk input n) (Fin.ofNat 15 (n + 1))

theorem stateAfterRound_of_pos (rk : Vector Word 60) (input : Block) (r : Fin 15) (hr : 1 ≤ r.val) :
    stateAfterRound rk input r.val = cipherRound rk (stateAfterRound rk input (r.val - 1)) r := by
  have hround : Fin.ofNat 15 (r.val - 1 + 1) = r := Fin.ext (by simp only [Fin.val_ofNat]; omega)
  conv_lhs => rw [← Nat.sub_add_cancel hr, stateAfterRound, hround]

/-- The cipher is its first 13 rounds, then the final one (42_block_cipher.md R175). -/
theorem aes_eq_finalRound (rk : Vector Word 60) (input : Block) :
    aes rk input = addRoundKey rk 14 (shiftRows (subBytes (stateAfterRound rk input 13))) := rfl

/-- Settles O28: the cipher states are those after each round. -/
theorem cipherIsFourteenRounds : Obligations.CipherIsFourteenRounds := fun rk input =>
  ⟨stateAfterRound rk input, rfl, fun r hr _ => stateAfterRound_of_pos rk input r hr, aes_eq_finalRound rk input⟩

/-! ### ENC_BLOCK -/

/-- On an IDLE engine with a key, ENC_BLOCK enciphers DIN into DOUT (42_block_cipher.md R178). -/
theorem exec_encBlock_of_key (s : State) (hidle : isBusy s = false) (hkey : s.rkValid = true) :
    exec .encBlock s =
      .next (endedWith .ok 0 0 { s with dout := regsOfBlock (aes s.rk (blockOfRegs s.din)) }) := by
  rw [exec_idle _ _ hidle, commandBody, encBlockBody, accept_rkValid, if_pos hkey]
  rfl

/-- On an IDLE engine without a key, ENC_BLOCK writes its outcome alone (42_block_cipher.md R178). -/
theorem exec_encBlock_of_no_key (s : State) (hidle : isBusy s = false) (hkey : s.rkValid = false) :
    exec .encBlock s = .next (endedWith (.invalidArgument .keyNotExpanded) 0 0 s) := by
  rw [exec_idle _ _ hidle, commandBody, encBlockBody, accept_rkValid, if_neg (by rw [hkey]; decide), complete_accept]

/-- Settles O21: the registers of DOUT hold the block that is written to them. -/
theorem encBlockEffect : Obligations.EncBlockEffect :=
  ⟨rfl, fun s hidle =>
    ⟨fun hkey => ⟨_, blockOfRegs_regsOfBlock _, exec_encBlock_of_key s hidle hkey⟩,
      exec_encBlock_of_no_key s hidle⟩⟩

/-! ### ENC_BATCH -/

/-- On an IDLE engine a batch whose argument checks fail writes its outcome alone (42_block_cipher.md R179). -/
theorem exec_encBatch_of_error (s : State) (o : Completion) (hidle : isBusy s = false)
    (h : encBatchStart s = .error o) : exec .encBatch s = .next (endedWith o 0 0 s) := by
  have hstart : encBatchStart (accept (encode .encBatch) s) = .error o := h
  rw [exec_idle _ _ hidle, commandBody, runLoopCommand, hstart]
  exact congrArg _ (complete_accept o 0 0 _ s)

theorem encBatchStart_of_no_key (s : State) (hkey : s.rkValid = false) :
    encBatchStart s = .error (.invalidArgument .keyNotExpanded) := by
  rw [encBatchStart, if_pos hkey]

theorem encBatchStart_of_overflow (s : State) (hkey : s.rkValid = true) (hcount : 1 ≤ s.count.toNat)
    (hover : 2 ^ 64 ≤ (blockIndex s).toNat + (s.count.toNat - 1)) : encBatchStart s = .error .overflow := by
  rw [encBatchStart, if_neg (by rw [hkey]; decide), if_pos ⟨hcount, hover⟩]

/-- All a batch can do on an IDLE engine once its argument checks pass: it writes `i` blocks, which are all of them or
those before a block with an unadmitted byte (42_block_cipher.md R179, 20_memory.md R66). -/
theorem exec_encBatch_cases (s : State) (hidle : isBusy s = false) (hkey : s.rkValid = true)
    (hfits : (blockIndex s).toNat + s.count.toNat ≤ 2 ^ 64) :
    ∃ i m, BlocksWritten s m i ∧
      ((i = s.count.toNat ∧ exec .encBatch s = .next (endedWith .ok i 0 { s with mem := m })) ∨
        (i < s.count.toNat ∧ (∃ k < 16, admits s.platform (dstBase s + 16 * i + k) .write = false) ∧
          exec .encBatch s = .next (endedWith (.busError .write) i 0 { s with mem := m }))) := by
  obtain ⟨i, m, hb, he⟩ := batchCommand_cases (accept (encode .encBatch) s) hkey hfits
  refine ⟨i, m, ⟨hb.le, hb.admitted, hb.written, hb.kept⟩, ?_⟩
  rw [exec_idle _ _ hidle, commandBody]
  cases he with
  | ok hi ht => exact .inl ⟨hi, congrArg _ ht⟩
  | busWrite hi hno ht => exact .inr ⟨hi, hno, congrArg _ ht⟩

/-- The blocks a batch wrote, by their counter values (42_block_cipher.md R180). -/
theorem BlocksWritten.keystream {s : State} {m : Memory} {i : Nat} (h : BlocksWritten s m i) :
    ∀ j < i, ∀ k < 16, m.read (dstBase s + 16 * j + k) =
      blockByte (aes s.rk (counterBlock (nonce s) (BitVec.ofNat 64 ((blockIndex s).toNat + j)))) k := by
  intro j hj k hk
  rw [← batchBlock_eq, h.written j hj k hk]

/-- A block with an unadmitted byte lies past the blocks whose bytes are admitted (20_memory.md R66). -/
theorem le_of_unadmitted_block {s : State} {i n : Nat}
    (hall : ∀ k < 16 * n, admits s.platform (dstBase s + k) .write = true)
    (hno : ∃ k < 16, admits s.platform (dstBase s + 16 * i + k) .write = false) : n ≤ i := by
  obtain ⟨k, hk, hk'⟩ := hno
  by_contra hlt
  have hadmitted := hall (16 * i + k) (by omega)
  rw [← Nat.add_assoc, hk'] at hadmitted
  cases hadmitted

/-- Settles O29: with every destination byte admitted no block can stop the batch. -/
theorem encBatchWritesKeystream : Obligations.EncBatchWritesKeystream := by
  intro s hidle hkey hfits hall
  obtain ⟨i, m, hb, ⟨rfl, hexec⟩ | ⟨hi, hno, _⟩⟩ := exec_encBatch_cases s hidle hkey hfits
  · exact ⟨m, hexec, hb.keystream, hb.kept⟩
  · exact absurd (le_of_unadmitted_block hall hno) (by omega)

/-- A batch stops at its first block with an unadmitted byte, with the blocks before it written (42_block_cipher.md
R179). -/
theorem exec_encBatch_of_unadmitted (s : State) (i : Nat) (hidle : isBusy s = false) (hkey : s.rkValid = true)
    (hfits : (blockIndex s).toNat + s.count.toNat ≤ 2 ^ 64) (hi : i < s.count.toNat)
    (hbefore : ∀ k < 16 * i, admits s.platform (dstBase s + k) .write = true)
    (hno : ∃ k < 16, admits s.platform (dstBase s + 16 * i + k) .write = false) :
    ∃ m, BlocksWritten s m i ∧ exec .encBatch s = .next (endedWith (.busError .write) i 0 { s with mem := m }) := by
  obtain ⟨n, m, hb, hend⟩ := exec_encBatch_cases s hidle hkey hfits
  have hle : n ≤ i := le_of_unadmitted_block hb.admitted hno
  obtain ⟨rfl, _⟩ | ⟨_, hstop, hexec⟩ := hend
  · omega
  · obtain rfl : n = i := Nat.le_antisymm hle (le_of_unadmitted_block hbefore hstop)
    exact ⟨m, hb, hexec⟩

/-- Settles O30: the two argument checks, then the first block with an unadmitted byte. -/
theorem encBatchStops : Obligations.EncBatchStops := by
  intro s hidle
  refine ⟨fun hkey => ?_, fun hkey hcount hover => ?_, fun i hkey hfits hi hbefore hno => ?_⟩
  · exact exec_encBatch_of_error s _ hidle (encBatchStart_of_no_key s hkey)
  · exact exec_encBatch_of_error s _ hidle (encBatchStart_of_overflow s hkey hcount hover)
  · obtain ⟨m, hb, hexec⟩ := exec_encBatch_of_unadmitted s i hidle hkey hfits hi hbefore hno
    exact ⟨m, hexec, hb.keystream, hb.kept⟩

end Sys2Proof.Machine

/-! SUPPORT. How a stream command ends on an IDLE engine, outcome by outcome: the argument checks, all COUNT bytes, a
source that ends early, an exhausted Counter, and the Counter it leaves (spec/43_stream_transform.md R191 to R207). -/

namespace Sys2Proof.Machine

/-! ### The argument checks -/

/-- The stream commands are those whose loop is `enc` or `dec`. -/
theorem exists_loop_of_streamInstr {i : Instr} (h : i = .streamEnc ∨ i = .streamDec) :
    ∃ l : Loop, l ≠ .batch ∧ i = loopInstr l := by
  rcases h with rfl | rfl
  · exact ⟨.enc, nofun, rfl⟩
  · exact ⟨.dec, nofun, rfl⟩

/-- Both stream commands make the same argument checks (43_stream_transform.md R191). -/
theorem loopStart_of_stream (l : Loop) (hl : l ≠ .batch) (s : State) : loopStart l s = streamStart s := by
  cases l with
  | batch => exact absurd rfl hl
  | enc => rfl
  | dec => rfl

/-- The argument checks raise no outcome but INVALID_ARGUMENT (43_stream_transform.md R191). -/
theorem streamStart_error (s : State) (o : Completion) (h : streamStart s = .error o) :
    ∃ c, o = .invalidArgument c := by
  unfold streamStart at h
  split at h
  · cases h; exact ⟨_, rfl⟩
  · split at h
    · cases h; exact ⟨_, rfl⟩
    · split at h
      · cases h; exact ⟨_, rfl⟩
      · split at h
        · cases h; exact ⟨_, rfl⟩
        · split at h
          · cases h; exact ⟨_, rfl⟩
          · cases h

/-- The working copies of a stream command whose argument checks pass (43_stream_transform.md R193). -/
theorem streamStart_of_passesChecks (s : State) (h : passesChecks s) :
    streamStart s = .ok { bo := s.blkOff.toNat, first := true, written := 0, pos := 0 } := by
  obtain ⟨hkey, hblk, halign, hchunks⟩ := h
  rw [streamStart, if_neg (by simp [hkey]), if_neg (by omega), if_neg (by omega), if_neg (by omega), if_neg (by omega)]

/-- An argument error ends a stream command with nothing changed but the outcome. -/
theorem exec_stream_of_error (l : Loop) (hl : l ≠ .batch) (s : State) (hidle : isBusy s = false) (o : Completion)
    (h : streamStart s = .error o) : exec (loopInstr l) s = .next (endedWith o 0 0 s) := by
  have hstart : loopStart l (accept (encode (loopInstr l)) s) = .error o := (loopStart_of_stream l hl _).trans h
  rw [exec_idle _ s hidle, commandBody_loopInstr, runLoopCommand, hstart]
  exact congrArg _ (complete_accept o 0 0 _ s)

/-- With COUNT = 0 the loop is left before its first iteration (43_stream_transform.md R191). -/
theorem exec_stream_of_count_zero (l : Loop) (hl : l ≠ .batch) (s : State) (hidle : isBusy s = false)
    (h : passesChecks s) (hcount : s.count = 0) : exec (loopInstr l) s = .next (endedWith .ok 0 0 s) := by
  have hstart := (loopStart_of_stream l hl _).trans (streamStart_of_passesChecks (accept (encode (loopInstr l)) s) h)
  rw [exec_idle _ s hidle, commandBody_loopInstr, runLoopCommand, hstart]
  have hfuel : (accept (encode (loopInstr l)) s).count.toNat = 0 := congrArg BitVec.toNat hcount
  simp only [hfuel, runLoop]
  exact congrArg _ (complete_accept .ok 0 0 _ s)

/-- Settles O31: each clause picks out one branch of the checks, the last one the loop with nothing to do. -/
theorem streamArgumentChecks : Obligations.StreamArgumentChecks := by
  intro s i hi hidle
  obtain ⟨l, hl, rfl⟩ := exists_loop_of_streamInstr hi
  have raises := exec_stream_of_error l hl s hidle
  refine ⟨fun hkey => raises _ ?_, fun hkey hblk => raises _ ?_, fun hkey hblk halign => raises _ ?_,
    fun hkey hblk halign hchunks hc2b => raises _ ?_, fun hkey hblk halign hchunks hc2b hmatch => raises _ ?_,
    exec_stream_of_count_zero l hl s hidle⟩
  · rw [streamStart, if_pos hkey]
  · rw [streamStart, if_neg (by simp [hkey]), if_pos hblk]
  · rw [streamStart, if_neg (by simp [hkey]), if_neg (by omega), if_pos halign]
  · rw [streamStart, if_neg (by simp [hkey]), if_neg (by omega), if_neg (by omega), if_pos ⟨hchunks, hc2b⟩]
  · rw [streamStart, if_neg (by simp [hkey]), if_neg (by omega), if_neg (by omega), if_neg (by omega),
      if_pos ⟨hchunks, hmatch⟩]

/-! ### The layout -/

/-- A logical byte stands past the tag of its chunk (43_stream_transform.md R207). -/
theorem tagBytes_le_physOffset_mod (s : State) (w : Nat) (h : 0 < chunkBytes s) :
    tagBytes s ≤ physOffset s w % (chunkBytes s + tagBytes s) := by
  have hlt := Nat.mod_lt (chunkSkip s + w) h
  rw [physOffset, if_neg (by omega), Nat.add_assoc, Nat.mul_comm, Nat.mul_add_mod, Nat.mod_eq_of_lt (by omega)]
  omega

/-- Settles O41: the next place, the place in its chunk, and the bytes of one cipher block. -/
theorem layoutSkipsTagSlots : Obligations.LayoutSkipsTagSlots := fun s w h =>
  ⟨physOffset_lt_next s w, tagBytes_le_physOffset_mod s w,
    fun hblock => physOffset_add s (geometry_of_passesChecks s h) w 1 (by omega)⟩

/-! ### All COUNT bytes -/

/-- A stream command reports exactly how many bytes it has moved. -/
theorem StreamEnd.result_toNat {l : Loop} {s : State} {m : Memory} {w : Nat} {t : State} (h : StreamEnd l s m w t)
    (hb : BytesMoved l s m w) (hidle : isBusy s = false) : t.result.toNat = w := by
  obtain ⟨hresult, _⟩ := h.result_mem hidle
  rw [hresult, BitVec.toNat_ofNat, Nat.mod_eq_of_lt (Nat.lt_of_le_of_lt hb.le s.count.isLt)]

/-- A stream command whose COUNT bytes are all admitted, available and covered by the Counter transforms them all, where
no byte is written before it is read. -/
theorem exec_stream_transforms (l : Loop) (hl : l ≠ .batch) (s : State) (hidle : isBusy s = false) (h : passesChecks s)
    (hidx : blockIndexAt s (s.blkOff.toNat + s.count.toNat) < 2 ^ 64)
    (havail : l = .dec → physLength s s.count.toNat ≤ s.avail.toNat)
    (hadm : bytesAdmitted s.platform (streamSource l s) (streamDestination l s) s.count.toNat)
    (hno : noOverwrite (streamSource l s) (streamDestination l s) s.count.toNat) :
    ∃ m, exec (loopInstr l) s = .next
        (endedWith .ok s.count.toNat (physLength s s.count.toNat)
          { s with ctr := counterAfter s s.count.toNat, mem := m }) ∧
      bytesTransformed s m (streamSource l s) (streamDestination l s) s.count.toNat := by
  obtain ⟨trace, _, hexec⟩ := exec_stream_in_order l hl s hidle h hidx havail hadm
  obtain ⟨w, m, t, hexec', hb, he⟩ := exec_stream_cases l hl s hidle h
  obtain rfl := Host.Outcome.next.inj (hexec'.symm.trans hexec)
  obtain ⟨_, rfl⟩ := he.result_mem hidle
  have hw : w = s.count.toNat := by
    rw [← he.result_toNat hb hidle, endedWith_result, BitVec.toNat_ofNat, Nat.mod_eq_of_lt s.count.isLt]
  subst hw
  exact ⟨trace s.count.toNat, hexec, bytesTransformed_of_moved l s _ _ hb hno⟩

/-- Settles O32: all COUNT bytes, for STREAM_ENC. -/
theorem streamEncTransforms : Obligations.StreamEncTransforms := fun s hidle h hidx =>
  exec_stream_transforms .enc nofun s hidle h hidx nofun

/-- Settles O33: all COUNT bytes, for STREAM_DEC. -/
theorem streamDecTransforms : Obligations.StreamDecTransforms := fun s hidle h hidx havail =>
  exec_stream_transforms .dec nofun s hidle h hidx fun _ => havail

/-! ### A source that ends early, and an exhausted Counter -/

/-- A stream command comes to logical byte `n`, where all bytes before it are admitted and available and no iteration
reaches past it, unless the Counter is exhausted first. -/
theorem StreamEnd.reaches_or_overflows {l : Loop} {s : State} {m : Memory} {w : Nat} {t : State}
    (h : StreamEnd l s m w t) (n : Nat) (hle : n ≤ s.count.toNat)
    (inside : w < n → ∀ k < streamLength l s w, w + k < n)
    (hadm : bytesAdmitted s.platform (streamSource l s) (streamDestination l s) n)
    (havail : l = .dec → ∀ v < n, physOffset s v < s.avail.toNat) :
    n ≤ w ∨ (s.blkOff.toNat + w) % 16 = 0 ∧ blockIndexAt s (s.blkOff.toNat + w) = 2 ^ 64 := by
  by_contra! hno
  obtain ⟨hlt, hindex⟩ := hno
  cases h with
  | ok hw => omega
  | shortRead hl _ ha => have := havail hl w hlt; omega
  | busRead _ _ _ hr =>
    obtain ⟨k, hk, hbad⟩ := hr
    obtain ⟨hgood, _⟩ := hadm (w + k) (inside hlt k hk)
    rw [hbad] at hgood; cases hgood
  | busWrite _ _ _ _ hd =>
    obtain ⟨k, hk, hbad⟩ := hd
    obtain ⟨_, hgood⟩ := hadm (w + k) (inside hlt k hk)
    rw [hbad] at hgood; cases hgood
  | overflow hm hi => exact hindex hm hi

/-- No iteration of STREAM_DEC reaches a logical byte that lies at AVAIL or beyond (43_stream_transform.md R199). -/
theorem streamLength_dec_within (s : State) (hg : Geometry s) (w n : Nat) (h : s.avail.toNat ≤ physOffset s n) :
    ∀ k < streamLength .dec s w, w + k < n := by
  intro k hk
  rw [streamLength, iterationLength] at hk
  apply lt_of_physOffset_lt s
  rw [physOffset_add s hg w k (by omega)]
  omega

/-- Settles O35: STREAM_DEC comes to logical byte `n`, since all before it can be done, and not past it, since it is not
there. -/
theorem streamDecShortRead : Obligations.StreamDecShortRead := by
  intro s n hidle h hlt havail hend hidx hadm hno
  obtain ⟨w, m, t, hexec, hb, he⟩ := exec_stream_cases .dec nofun s hidle h
  have hlen := streamLength_dec_within s (geometry_of_passesChecks s h) w n hend
  have notPast : w ≤ n := by
    by_contra hpast
    have := hb.available rfl n (by omega)
    omega
  have reached : n ≤ w := by
    rcases he.reaches_or_overflows n (by omega) (fun _ => hlen) hadm fun _ => havail with hreach | ⟨_, hover⟩
    · exact hreach
    · have := blockIndexAt_mono s (s.blkOff.toNat + w) (s.blkOff.toNat + n) (by omega)
      omega
  obtain rfl : w = n := Nat.le_antisymm notPast reached
  refine ⟨m, hexec.trans ?_, bytesTransformed_of_moved .dec s m w hb hno⟩
  cases he with
  | ok hw => omega
  | shortRead _ _ _ _ ht => rw [ht, complete_streamState _ _ _ _ _ _ (seq_of_not_busy s hidle)]
  | busRead _ _ _ hr => obtain ⟨k, hk, _⟩ := hr; have := hlen k hk; omega
  | busWrite _ _ _ _ hd => obtain ⟨k, hk, _⟩ := hd; have := hlen k hk; omega
  | overflow _ hover => omega

/-- The BlockIndex a stream command stands at is at most one past the last (43_stream_transform.md R206). -/
theorem StreamEnd.blockIndexAt_le {l : Loop} {s : State} {m : Memory} {w : Nat} {t : State} (h : StreamEnd l s m w t) :
    blockIndexAt s (s.blkOff.toNat + w) ≤ 2 ^ 64 := by
  cases h with
  | ok _ hi => exact hi.le
  | shortRead _ _ _ hi => exact hi.le
  | busRead _ _ hi => exact hi.le
  | busWrite _ _ hi => exact hi.le
  | overflow _ hi => exact hi.le

/-- A stream command that completes the cipher block of BlockIndex `2^64 - 1` at logical byte `n` ends there with
OVERFLOW, the block kept (43_stream_transform.md R206). -/
theorem exec_stream_overflow (l : Loop) (hl : l ≠ .batch) (s : State) (n : Nat) (hidle : isBusy s = false)
    (h : passesChecks s) (hle : n ≤ s.count.toNat) (hlast : s.blkOff.toNat + n = 16 * (2 ^ 64 - (blockIndex s).toNat))
    (havail : l = .dec → physLength s n ≤ s.avail.toNat)
    (hadm : bytesAdmitted s.platform (streamSource l s) (streamDestination l s) n)
    (hno : noOverwrite (streamSource l s) (streamDestination l s) n) :
    ∃ m, exec (loopInstr l) s = .next
        (endedWith .overflow n (physLength s n)
          { s with ctr := #v[s.ctr[0], s.ctr[1], 0xFFFFFFFF, 0xFFFFFFFF], mem := m }) ∧
      bytesTransformed s m (streamSource l s) (streamDestination l s) n := by
  obtain ⟨w, m, t, hexec, hb, he⟩ := exec_stream_cases l hl s hidle h
  have hlt := (blockIndex s).isLt
  have hindex : blockIndexAt s (s.blkOff.toNat + n) = 2 ^ 64 := by rw [blockIndexAt]; omega
  have hmax := he.blockIndexAt_le
  have inside : w < n → ∀ k < streamLength l s w, w + k < n := by
    intro hwn k hk
    have := streamLength_le l s w
    have := iterationLength_within s w n hwn (.inr (.inr (by omega)))
    omega
  have available := fun hdec => available_of_physLength_le s n (havail hdec)
  have reached : n ≤ w := by
    rcases he.reaches_or_overflows n hle inside hadm available with hreach | ⟨_, hover⟩
    · exact hreach
    · rw [blockIndexAt] at hover; omega
  have hover : blockIndexAt s (s.blkOff.toNat + w) = 2 ^ 64 :=
    Nat.le_antisymm hmax (hindex ▸ blockIndexAt_mono s _ _ (by omega))
  cases he with
  | ok _ hi => omega
  | shortRead _ _ _ hi => omega
  | busRead _ _ hi => omega
  | busWrite _ _ hi => omega
  | overflow hm _ ht =>
    obtain rfl : w = n := by rw [blockIndexAt] at hover; omega
    refine ⟨m, ?_, bytesTransformed_of_moved l s m w hb hno⟩
    rw [hexec, ht, complete_eq_endedWith _ _ _ _ (by rw [pendingWrites, seq_of_not_busy s hidle])]
    rfl

/-- Settles O36: both stream commands by the same argument. -/
theorem streamOverflowKeepsTheBlock : Obligations.StreamOverflowKeepsTheBlock := fun s n hidle h hle hlast =>
  ⟨exec_stream_overflow .enc nofun s n hidle h hle hlast nofun, fun havail =>
    exec_stream_overflow .dec nofun s n hidle h hle hlast fun _ => havail⟩

/-! ### The Counter -/

theorem toNat_blockIndex_exhausted (s : State) (m : Memory) :
    (blockIndex { s with ctr := exhaustedCounter s, mem := m }).toNat = 2 ^ 64 - 1 := by
  show (0xFFFFFFFF#32 ++ 0xFFFFFFFF#32 : BitVec 64).toNat = 2 ^ 64 - 1
  decide

/-- The BlockIndex a stream command leaves, by its outcome: the floor formula, or the last BlockIndex after OVERFLOW
(43_stream_transform.md R205, R206). -/
theorem StreamEnd.blockIndex_cases {l : Loop} {s : State} {m : Memory} {w : Nat} {t : State}
    (h : StreamEnd l s m w t) :
    (t.err ≠ 1 ∧ (blockIndex t).toNat = blockIndexAt s (s.blkOff.toNat + w)) ∨
      (t.err = 1 ∧ (blockIndex t).toNat = 2 ^ 64 - 1 ∧ blockIndexAt s (s.blkOff.toNat + w) = 2 ^ 64) := by
  have ends : ∀ o phys, errCode o ≠ 1 → blockIndexAt s (s.blkOff.toNat + w) < 2 ^ 64 →
      t = complete o w phys (streamState s w m) →
      t.err ≠ 1 ∧ (blockIndex t).toNat = blockIndexAt s (s.blkOff.toNat + w) := by
    rintro o phys herr hi rfl
    exact ⟨herr, blockIndex_streamState s w m hi⟩
  cases h with
  | ok _ hi ht => exact .inl (ends _ _ (by decide) hi ht)
  | shortRead _ _ _ hi ht => exact .inl (ends _ _ (by decide) hi ht)
  | busRead _ _ hi _ ht => exact .inl (ends _ _ (by decide) hi ht)
  | busWrite _ _ hi _ _ ht => exact .inl (ends _ _ (by decide) hi ht)
  | overflow _ hi ht => exact .inr ⟨by rw [ht]; rfl, by rw [ht]; exact toNat_blockIndex_exhausted s m, hi⟩

/-- Settles O39: no command changes the Nonce; an argument error is none of the outcomes named; else the BlockIndex is
that of the stream position reached. -/
theorem streamCounterFollowsFloor : Obligations.StreamCounterFollowsFloor := by
  intro s t i hi hidle hexec
  obtain ⟨l, hl, rfl⟩ := exists_loop_of_streamInstr hi
  have hnonce : nonce t = nonce s := by
    obtain rfl := Host.Outcome.next.inj ((exec_idle _ s hidle).symm.trans hexec)
    exact (nonce_commandBody _ _).trans (nonce_accept _ s)
  rcases streamStart_error_or_passesChecks s with ⟨o, ho⟩ | h
  · obtain ⟨c, rfl⟩ := streamStart_error s o ho
    obtain rfl := Host.Outcome.next.inj ((exec_stream_of_error l hl s hidle _ ho).symm.trans hexec)
    rw [endedWith_err, errCode]
    exact ⟨fun herr => absurd herr (by decide), fun herr => absurd herr (by decide), hnonce⟩
  · obtain ⟨w, m, t', hexec', hb, he⟩ := exec_stream_cases l hl s hidle h
    obtain rfl : t' = t := Host.Outcome.next.inj (hexec'.symm.trans hexec)
    rw [he.result_toNat hb hidle]
    rcases he.blockIndex_cases with ⟨hne, hindex⟩ | ⟨herr, hindex, hover⟩
    · exact ⟨fun _ => hindex, fun herr => absurd herr hne, hnonce⟩
    · refine ⟨fun hother => absurd hother (by rw [herr]; decide), fun _ => ⟨hindex, ?_⟩, hnonce⟩
      rw [blockIndexAt] at hover
      omega

end Sys2Proof.Machine

/-! SUPPORT. Two stream calls in a row: a decryption after the encryption, and a call resumed where the one before it ended
(spec/43_stream_transform.md R208, R209). -/

namespace Sys2Proof.Machine

/-! ### A call that ends with OK or SHORT_READ -/

/-- The outcome of a stream command that did `w` bytes and met neither an error nor an overflow. -/
def finishOutcome (s : State) (w : Nat) : Completion := if w = s.count.toNat then .ok else .shortRead

/-- Its physical cursor (43_stream_transform.md R195, R200, R203). -/
def finishPos (s : State) (w : Nat) : Nat := if w = s.count.toNat then physLength s w else physOffset s w

/-- The state it leaves, with data space `m`. -/
def streamFinish (s : State) (w : Nat) (m : Memory) : State :=
  endedWith (finishOutcome s w) w (finishPos s w) { s with ctr := counterAfter s w, mem := m }

/-- A stream command on `s` does `w` bytes, leaving data space `m`: all COUNT of them, or all that lie below AVAIL. -/
structure StreamFinishes (l : Loop) (s : State) (w : Nat) (m : Memory) : Prop where
  bytes : BytesMoved l s m w
  index : blockIndexAt s (s.blkOff.toNat + w) < 2 ^ 64
  exit : w = s.count.toNat ∨ (l = .dec ∧ s.avail.toNat ≤ physOffset s w)

/-- A stream command that ends with OK or SHORT_READ finishes. -/
theorem exec_stream_finishes (l : Loop) (hl : l ≠ .batch) {s t : State} (hidle : isBusy s = false) (h : passesChecks s)
    (hexec : exec (loopInstr l) s = .next t) (herr : t.err = 0 ∨ t.err = 3) :
    ∃ w m, t = streamFinish s w m ∧ StreamFinishes l s w m := by
  obtain ⟨w, m, t', hexec', hb, he⟩ := exec_stream_cases l hl s hidle h
  obtain rfl : t' = t := Host.Outcome.next.inj (hexec'.symm.trans hexec)
  have hseq := seq_of_not_busy s hidle
  cases he with
  | ok hw hi ht =>
    refine ⟨w, m, ?_, hb, hi, .inl hw⟩
    rw [ht, complete_streamState _ _ _ _ _ _ hseq, streamFinish, finishOutcome, finishPos, if_pos hw, if_pos hw]
  | shortRead hdec hlt ha hi ht =>
    refine ⟨w, m, ?_, hb, hi, .inr ⟨hdec, ha⟩⟩
    rw [ht, complete_streamState _ _ _ _ _ _ hseq, streamFinish, finishOutcome, finishPos, if_neg (by omega),
      if_neg (by omega)]
  | busRead _ _ _ _ ht => rw [ht, complete_err] at herr; exact absurd herr (by decide)
  | busWrite _ _ _ _ _ ht => rw [ht, complete_err] at herr; exact absurd herr (by decide)
  | overflow _ _ ht => rw [ht, complete_err] at herr; exact absurd herr (by decide)

/-- OK and SHORT_READ are all that is left of a stream command without OVERFLOW and BUS_ERROR. -/
theorem exec_stream_err_of_no_error (l : Loop) (hl : l ≠ .batch) {s t : State} (hidle : isBusy s = false)
    (h : passesChecks s) (hexec : exec (loopInstr l) s = .next t) (hoverflow : t.err ≠ 1) (hbus : t.err ≠ 5) :
    t.err = 0 ∨ t.err = 3 := by
  obtain ⟨w, m, t', hexec', _, he⟩ := exec_stream_cases l hl s hidle h
  obtain rfl : t' = t := Host.Outcome.next.inj (hexec'.symm.trans hexec)
  cases he with
  | ok _ _ ht => exact .inl (ht ▸ rfl)
  | shortRead _ _ _ _ ht => exact .inr (ht ▸ rfl)
  | busRead _ _ _ _ ht => exact absurd (ht ▸ rfl) hbus
  | busWrite _ _ _ _ _ ht => exact absurd (ht ▸ rfl) hbus
  | overflow _ _ ht => exact absurd (ht ▸ rfl) hoverflow

theorem StreamFinishes.lt {l : Loop} {s : State} {w : Nat} {m : Memory} (h : StreamFinishes l s w m) : w < 2 ^ 32 :=
  Nat.lt_of_le_of_lt h.bytes.le s.count.isLt

theorem StreamFinishes.result_toNat {l : Loop} {s : State} {w : Nat} {m : Memory} (h : StreamFinishes l s w m) :
    (streamFinish s w m).result.toNat = w := by
  rw [streamFinish, endedWith_result, BitVec.toNat_ofNat, Nat.mod_eq_of_lt h.lt]

/-- The error code tells whether all COUNT bytes are done. -/
theorem streamFinish_err_eq_zero_iff (s : State) (w : Nat) (m : Memory) :
    (streamFinish s w m).err = 0 ↔ w = s.count.toNat := by
  rw [streamFinish, endedWith_err, finishOutcome]
  split
  · exact iff_of_true rfl ‹_›
  · exact iff_of_false (by decide) ‹_›

/-- A stream command does every byte up to COUNT that is available. -/
theorem StreamFinishes.le_of_available {l : Loop} {s : State} {w : Nat} {m : Memory} (h : StreamFinishes l s w m)
    (n : Nat) (hle : n ≤ s.count.toNat) (havail : l = .dec → ∀ v < n, physOffset s v < s.avail.toNat) : n ≤ w := by
  by_contra hlt
  rcases h.exit with hw | ⟨hdec, hend⟩
  · omega
  · have := havail hdec w (by omega)
    omega

/-- STREAM_ENC has no other place to stop than COUNT. -/
theorem StreamFinishes.eq_count_of_enc {s : State} {w : Nat} {m : Memory} (h : StreamFinishes .enc s w m) :
    w = s.count.toNat :=
  Nat.le_antisymm h.bytes.le (h.le_of_available _ (Nat.le_refl _) nofun)

theorem StreamFinishes.result_eq_count {l : Loop} {s : State} {w : Nat} {m : Memory} (h : StreamFinishes l s w m)
    (hw : w = s.count.toNat) : (streamFinish s w m).result = s.count :=
  BitVec.eq_of_toNat_eq (h.result_toNat.trans hw)

/-! ### Round trip -/

/-- Settles O42: the decryption finds every byte the encryption wrote, at the same place and with the same keystream. -/
theorem streamRoundTrip : Obligations.StreamRoundTrip := by
  rintro s t d u hidle h hno hfits hexec herr ⟨address, offset, hd⟩ hno' hexec' hoverflow hbus
  obtain ⟨w, m, rfl, hf⟩ := exec_stream_finishes .enc nofun hidle h hexec (.inl herr)
  obtain rfl := hf.eq_count_of_enc
  have hidle' : isBusy d = false := by rw [hd]; rfl
  have h' : passesChecks d := by rw [hd]; exact h
  obtain ⟨w', m', rfl, hf'⟩ := exec_stream_finishes .dec nofun hidle' h' hexec'
    (exec_stream_err_of_no_error .dec nofun hidle' h' hexec' hoverflow hbus)
  have hcount : d.count = s.count := by rw [hd]; rfl
  have havail : physLength d s.count.toNat ≤ d.avail.toNat := by
    have hphys : d.avail = BitVec.ofNat 32 (physLength s s.count.toNat) := by
      rw [hd]
      exact congrArg (BitVec.ofNat 32) (if_pos rfl)
    rw [hphys, BitVec.toNat_ofNat, Nat.mod_eq_of_lt hfits, hd]
    exact Nat.le_refl _
  obtain rfl : w' = s.count.toNat := Nat.le_antisymm (hcount ▸ hf'.bytes.le)
    (hf'.le_of_available _ (by rw [hcount]) fun _ => available_of_physLength_le d _ havail)
  have hctr : counterAfter d s.count.toNat = counterAfter s s.count.toNat := by rw [hd]; rfl
  refine ⟨?_, ?_, hctr, fun w hw => ?_⟩
  · rw [streamFinish_err_eq_zero_iff, hcount]
  · rw [hf'.result_eq_count (by rw [hcount]), hcount]
  · have hcipher : m.read (encDestination s w) = s.mem.read (encSource s w) ^^^ logicalKeystream s w :=
      hf.bytes.moved hno w hw
    have hplain : m'.read (decDestination d w) = m.read (encDestination s w) ^^^ logicalKeystream s w := by
      have := hf'.bytes.moved hno' w hw
      rwa [hd] at this ⊢
    exact hplain.trans (by rw [hcipher, BitVec.xor_assoc, BitVec.xor_self, BitVec.xor_zero])

/-! ### The layout and the keystream of a resumed call -/

/-- How far a resumed call that has `r` bytes behind it advances the physical-side offset (43_stream_transform.md R209). -/
def layoutAdvance (s : State) (r : Nat) : Nat :=
  if chunkBytes s = 0 then r else (chunkSkip s + r) / chunkBytes s * (chunkBytes s + tagBytes s)

/-- `s₂` is set up to go on where `r` bytes of the stream of `s` are done: the same key and geometry, with block offset,
chunk offset and Counter at the next byte (43_stream_transform.md R209). -/
structure Resumes (s s₂ : State) (r : Nat) : Prop where
  rkValid : s₂.rkValid = s.rkValid
  rk : s₂.rk = s.rk
  chunkSize : s₂.chunkSize = s.chunkSize
  tagLen : s₂.tagLen = s.tagLen
  blkOff : s₂.blkOff.toNat = (s.blkOff.toNat + r) % 16
  c2bOff : 0 < chunkBytes s → s₂.c2bOff.toNat = (chunkSkip s + r) % chunkBytes s
  ctr : s₂.ctr = counterAfter s r
  index : blockIndexAt s (s.blkOff.toNat + r) < 2 ^ 64

theorem Resumes.chunkBytes_eq {s s₂ : State} {r : Nat} (h : Resumes s s₂ r) : chunkBytes s₂ = chunkBytes s := by
  rw [chunkBytes, chunkBytes, h.chunkSize]

theorem Resumes.tagBytes_eq {s s₂ : State} {r : Nat} (h : Resumes s s₂ r) : tagBytes s₂ = tagBytes s := by
  rw [tagBytes, tagBytes, h.chunkSize, h.tagLen]

theorem Resumes.chunkSkip_eq {s s₂ : State} {r : Nat} (h : Resumes s s₂ r) (hc : 0 < chunkBytes s) :
    chunkSkip s₂ = (chunkSkip s + r) % chunkBytes s := by
  rw [chunkSkip_of_chunks s₂ (h.chunkBytes_eq ▸ hc), h.c2bOff hc]

/-- The resumed call passes the argument checks (43_stream_transform.md R209). -/
theorem Resumes.passesChecks {s s₂ : State} {r : Nat} (h : Resumes s s₂ r) (hs : passesChecks s) :
    Machine.passesChecks s₂ := by
  have hg := geometry_of_passesChecks s hs
  obtain ⟨hkey, _, halign, _⟩ := hs
  refine ⟨h.rkValid.trans hkey, ?_, by rw [h.chunkSize]; exact halign, fun hc => ?_⟩
  · have := h.blkOff
    omega
  · rw [h.chunkSize] at hc ⊢
    refine ⟨?_, ?_⟩
    · rw [h.c2bOff hc]
      exact Nat.mod_lt _ hc
    · have hdvd : 16 ∣ chunkBytes s := Nat.dvd_of_mod_eq_zero hg.chunk_mod
      have hskip := hg.skip_mod hc
      rw [h.c2bOff hc, Nat.mod_mod_of_dvd _ hdvd, h.blkOff]
      omega

/-- The places of the resumed call are those of the whole stream, counted from its own start (43_stream_transform.md
R207, R209). -/
theorem Resumes.physOffset_add {s s₂ : State} {r : Nat} (h : Resumes s s₂ r) (v : Nat) :
    physOffset s (r + v) = layoutAdvance s r + physOffset s₂ v := by
  rcases Nat.eq_zero_or_pos (chunkBytes s) with hc | hc
  · rw [physOffset_of_no_chunks s _ hc, physOffset_of_no_chunks s₂ _ (h.chunkBytes_eq.trans hc), layoutAdvance, if_pos hc]
  · rw [physOffset, physOffset, layoutAdvance, h.chunkBytes_eq, h.tagBytes_eq, h.chunkSkip_eq hc, if_neg (by omega),
      if_neg (by omega), if_neg (by omega)]
    have hsplit : chunkSkip s + (r + v) = chunkBytes s * ((chunkSkip s + r) / chunkBytes s) +
        ((chunkSkip s + r) % chunkBytes s + v) := by
      have := Nat.div_add_mod (chunkSkip s + r) (chunkBytes s)
      omega
    rw [hsplit, Nat.mul_add_div hc, Nat.mul_add_mod, Nat.add_mul]
    omega

/-- The resumed call stands in the stream's own cipher block. -/
theorem Resumes.blockIndexAt_eq {s s₂ : State} {r : Nat} (h : Resumes s s₂ r) (v : Nat) :
    blockIndexAt s₂ (s₂.blkOff.toNat + v) = blockIndexAt s (s.blkOff.toNat + (r + v)) := by
  have hindex : blockIndex s₂ = blockIndex (streamState s r s.mem) := by rw [blockIndex, h.ctr]; rfl
  rw [blockIndexAt, hindex, blockIndex_streamState s r s.mem h.index, h.blkOff, blockIndexAt, blockIndexAt]
  omega

theorem Resumes.nonce_eq {s s₂ : State} {r : Nat} (h : Resumes s s₂ r) : nonce s₂ = nonce s := by
  rw [nonce, h.ctr]; rfl

/-- The keystream goes on where it stopped (43_stream_transform.md R194, R209). -/
theorem Resumes.logicalKeystream_eq {s s₂ : State} {r : Nat} (h : Resumes s s₂ r) (v : Nat) :
    logicalKeystream s₂ v = logicalKeystream s (r + v) := by
  have hbyte : (s₂.blkOff.toNat + v) % 16 = (s.blkOff.toNat + (r + v)) % 16 := by rw [h.blkOff]; omega
  rw [logicalKeystream, logicalKeystream, keystreamByte, keystreamByte, h.rk, h.nonce_eq, h.blockIndexAt_eq, hbyte]

theorem Resumes.counterAfter_eq {s s₂ : State} {r : Nat} (h : Resumes s s₂ r) (v : Nat) :
    counterAfter s₂ v = counterAfter s (r + v) := by
  rw [counterAfter, counterAfter, h.blockIndexAt_eq, setBlockIndex_ctr, setBlockIndex_ctr, h.ctr]
  rfl

/-- PHYS_POS without chunks is the number of bytes done, however the call ended. -/
theorem finishPos_of_no_chunks (s : State) (w : Nat) (h : chunkBytes s = 0) : finishPos s w = w := by
  rw [finishPos, physLength, physOffset_of_no_chunks s _ h, physOffset_of_no_chunks s _ h]
  split
  · split <;> omega
  · rfl

section Resumed

variable {l : Loop} {s : State} {n a : Word} {r : Nat} {m : Memory}

/-- What the host reads off a first call that differs from `s` in COUNT and AVAIL is the advance of the layout. -/
theorem resumeAdvance_streamFinish (h : StreamFinishes l { s with count := n, avail := a } r m) :
    resumeAdvance s (streamFinish { s with count := n, avail := a } r m) = layoutAdvance s r := by
  rw [resumeAdvance, layoutAdvance, h.result_toNat]
  split
  · rename_i hc
    have hpos : finishPos { s with count := n, avail := a } r = r := finishPos_of_no_chunks _ r hc
    rw [streamFinish, endedWith_physPos, hpos, BitVec.toNat_ofNat, Nat.mod_eq_of_lt h.lt]
  · rfl

/-- What the host sets makes the second call go on from the first. -/
theorem resumes_resumed (h : StreamFinishes l { s with count := n, avail := a } r m) (source destination : Nat)
    (n₂ a₂ : Word) :
    Resumes s
      { resumed s (streamFinish { s with count := n, avail := a } r m) source destination with
        count := n₂, avail := a₂ } r where
  rkValid := rfl
  rk := rfl
  chunkSize := rfl
  tagLen := rfl
  blkOff := by
    simp only [resumed, h.result_toNat, BitVec.toNat_ofNat]
    omega
  c2bOff := fun hc => by
    have hlt := Nat.mod_lt (chunkSkip s + r) hc
    have hsize : chunkBytes s < 2 ^ 32 := s.chunkSize.isLt
    simp only [resumed, h.result_toNat, if_neg (show ¬ chunkBytes s = 0 by omega), BitVec.toNat_ofNat]
    exact Nat.mod_eq_of_lt (by omega)
  ctr := rfl
  index := h.index

end Resumed

/-! ### The bytes of two calls -/

/-- The bytes of two calls, the second going on from the first, are those of one (43_stream_transform.md R209). -/
theorem bytesTransformed_append {s s₂ : State} {m : Memory} {source destination : Nat → Nat} {r n : Nat}
    (h : bytesTransformed s s₂.mem source destination r)
    (h₂ : bytesTransformed s₂ m (fun v => source (r + v)) (fun v => destination (r + v)) n)
    (hkey : ∀ v, logicalKeystream s₂ v = logicalKeystream s (r + v))
    (hno : noOverwrite source destination (r + n)) (hne : ∀ w v, w ≠ v → destination w ≠ destination v) :
    bytesTransformed s m source destination (r + n) := by
  obtain ⟨hmoved, hkept⟩ := h
  obtain ⟨hmoved₂, hkept₂⟩ := h₂
  refine ⟨fun w hw => ?_, fun a ha => ?_⟩
  · rcases Nat.lt_or_ge w r with hlt | hge
    · rw [hkept₂ _ fun v _ => hne w (r + v) (by omega), hmoved w hlt]
    · obtain ⟨v, rfl⟩ : ∃ v, w = r + v := ⟨w - r, by omega⟩
      rw [hmoved₂ v (by omega), hkey, hkept _ fun x hx => (hno x (r + v) (by omega) hw).symm]
  · rw [hkept₂ a fun v hv => ha (r + v) (by omega), hkept a fun w hw => ha w (by omega)]

/-- The data space after a transform is determined by what it transforms. -/
theorem bytesTransformed_unique {s : State} {m m' : Memory} {source destination : Nat → Nat} {n : Nat}
    (h : bytesTransformed s m source destination n) (h' : bytesTransformed s m' source destination n) (a : Nat) :
    m.read a = m'.read a := by
  obtain ⟨hmoved, hkept⟩ := h
  obtain ⟨hmoved', hkept'⟩ := h'
  by_cases ha : ∃ w < n, a = destination w
  · obtain ⟨w, hw, rfl⟩ := ha
    rw [hmoved w hw, hmoved' w hw]
  · push Not at ha
    rw [hkept a ha, hkept' a ha]

/-! ### Resuming -/

/-- How far resuming advances the source offset: on the logical side by RESULT, on the physical side by the layout
(43_stream_transform.md R209). -/
def sourceAdvance (l : Loop) (s t : State) : Nat :=
  match l with
  | .enc => t.result.toNat
  | .dec => resumeAdvance s t
  | .batch => 0

/-- How far resuming advances the destination offset (43_stream_transform.md R209). -/
def destinationAdvance (l : Loop) (s t : State) : Nat :=
  match l with
  | .enc => resumeAdvance s t
  | .dec => t.result.toNat
  | .batch => 0

/-- A second call set up as R209 says finds its bytes where the one call finds them. -/
theorem streamSource_resumed {l : Loop} (hl : l ≠ .batch) {s s₂ t : State} {r : Nat} (h : Resumes s s₂ r)
    (hresult : t.result.toNat = r) (hadvance : resumeAdvance s t = layoutAdvance s r)
    (hbase : srcBase s₂ = srcBase s + sourceAdvance l s t) (v : Nat) :
    streamSource l s₂ v = streamSource l s (r + v) := by
  cases l with
  | batch => exact absurd rfl hl
  | enc =>
    simp only [sourceAdvance, hresult] at hbase
    simp only [streamSource, encSource, hbase, Nat.add_assoc]
  | dec =>
    simp only [sourceAdvance, hadvance] at hbase
    simp only [streamSource, decSource, hbase, h.physOffset_add, Nat.add_assoc]

/-- A second call set up as R209 says writes its bytes where the one call writes them. -/
theorem streamDestination_resumed {l : Loop} (hl : l ≠ .batch) {s s₂ t : State} {r : Nat} (h : Resumes s s₂ r)
    (hresult : t.result.toNat = r) (hadvance : resumeAdvance s t = layoutAdvance s r)
    (hbase : dstBase s₂ = dstBase s + destinationAdvance l s t) (v : Nat) :
    streamDestination l s₂ v = streamDestination l s (r + v) := by
  cases l with
  | batch => exact absurd rfl hl
  | enc =>
    simp only [destinationAdvance, hadvance] at hbase
    simp only [streamDestination, encDestination, hbase, h.physOffset_add, Nat.add_assoc]
  | dec =>
    simp only [destinationAdvance, hresult] at hbase
    simp only [streamDestination, decDestination, hbase, Nat.add_assoc]

/-- One call does as many bytes as the two calls together. -/
theorem StreamFinishes.eq_add {l : Loop} {s s₁ s₂ : State} {r w w₂ : Nat} {m m₁ m₂ : Memory}
    (h : StreamFinishes l s w m) (h₁ : StreamFinishes l s₁ r m₁) (h₂ : StreamFinishes l s₂ w₂ m₂)
    (hr : Resumes s s₂ r) (hcount : s.count.toNat = r + s₂.count.toNat) (hplace : physOffset s₁ = physOffset s)
    (havail : l = .dec → s₁.avail.toNat ≤ s.avail.toNat ∧ s.avail.toNat = layoutAdvance s r + s₂.avail.toNat) :
    w = r + w₂ := by
  have hle := h.bytes.le
  have hle₂ := h₂.bytes.le
  have reached : r + w₂ ≤ w := by
    refine h.le_of_available _ (by omega) fun hdec v hv => ?_
    obtain ⟨hcut, hsum⟩ := havail hdec
    rcases Nat.lt_or_ge v r with hlt | hge
    · have := h₁.bytes.available hdec v hlt
      rw [hplace] at this
      omega
    · have := h₂.bytes.available hdec (v - r) (by omega)
      have := hr.physOffset_add (v - r)
      rw [Nat.add_sub_cancel' hge] at this
      omega
  have notPast : w - r ≤ w₂ := by
    refine h₂.le_of_available _ (by omega) fun hdec v hv => ?_
    obtain ⟨_, hsum⟩ := havail hdec
    have := h.bytes.available hdec (r + v) (by omega)
    rw [hr.physOffset_add] at this
    omega
  omega

/-- Two calls, the second on the data space the first one left, and one call over both ranges leave the same bytes. -/
theorem read_after_two_calls {l : Loop} (hl : l ≠ .batch) {s s₂ : State} {r w₂ : Nat} {m₂ m : Memory}
    (hr : Resumes s s₂ r) (hsource : ∀ v, streamSource l s₂ v = streamSource l s (r + v))
    (hdestination : ∀ v, streamDestination l s₂ v = streamDestination l s (r + v))
    (hno : noOverwrite (streamSource l s) (streamDestination l s) (r + w₂))
    (first : bytesTransformed s s₂.mem (streamSource l s) (streamDestination l s) r) (second : BytesMoved l s₂ m₂ w₂)
    (whole : BytesMoved l s m (r + w₂)) (a : Nat) : m₂.read a = m.read a := by
  have hsource' := funext hsource
  have hdestination' := funext hdestination
  have hno₂ : noOverwrite (streamSource l s₂) (streamDestination l s₂) w₂ := fun x y hxy hy => by
    rw [hsource, hdestination]
    exact hno (r + x) (r + y) (by omega) (by omega)
  have hsecond := bytesTransformed_of_moved l s₂ m₂ w₂ second hno₂
  rw [hsource', hdestination'] at hsecond
  have hboth := bytesTransformed_append first hsecond hr.logicalKeystream_eq hno
    fun x y hxy => streamDestination_ne l s x y hxy hl
  exact bytesTransformed_unique hboth (bytesTransformed_of_moved l s m _ whole hno) a

theorem offset_advanced (base offset : Word) (x : Nat) (h : offset.toNat + x < 2 ^ 32) :
    base.toNat + (BitVec.ofNat 32 (offset.toNat + x)).toNat = base.toNat + offset.toNat + x := by
  rw [BitVec.toNat_ofNat, Nat.mod_eq_of_lt h, Nat.add_assoc]

/-- Resuming a stream command after OK or SHORT_READ: two calls leave what one call leaves (43_stream_transform.md
R209). -/
theorem exec_stream_resumes (l : Loop) (hl : l ≠ .batch) {s t₁ s₂ t₂ t : State} {n₁ a₁ n₂ a₂ : Word}
    (hidle : isBusy s = false) (h : passesChecks s)
    (hno : noOverwrite (streamSource l s) (streamDestination l s) s.count.toNat)
    (hexec₁ : exec (loopInstr l) { s with count := n₁, avail := a₁ } = .next t₁) (herr₁ : t₁.err = 0 ∨ t₁.err = 3)
    (hcount : s.count.toNat = t₁.result.toNat + n₂.toNat)
    (havail : l = .dec → a₁.toNat ≤ s.avail.toNat ∧ s.avail.toNat = resumeAdvance s t₁ + a₂.toNat)
    (hsource : s.srcOff.toNat + sourceAdvance l s t₁ < 2 ^ 32)
    (hdestination : s.dstOff.toNat + destinationAdvance l s t₁ < 2 ^ 32)
    (hs₂ : s₂ = { resumed s t₁ (sourceAdvance l s t₁) (destinationAdvance l s t₁) with count := n₂, avail := a₂ })
    (hexec₂ : exec (loopInstr l) s₂ = .next t₂) (herr₂ : t₂.err = 0 ∨ t₂.err = 3)
    (hexec : exec (loopInstr l) s = .next t) (herr : t.err = 0 ∨ t.err = 3) :
    t₂.err = t.err ∧ t₁.result.toNat + t₂.result.toNat = t.result.toNat ∧ t₂.ctr = t.ctr ∧
      ∀ a, t₂.mem.read a = t.mem.read a := by
  obtain ⟨r, m₁, rfl, hf₁⟩ :=
    exec_stream_finishes l hl (s := { s with count := n₁, avail := a₁ }) hidle h hexec₁ herr₁
  have hr : Resumes s s₂ r := hs₂ ▸ resumes_resumed hf₁ _ _ n₂ a₂
  obtain ⟨w₂, m₂, rfl, hf₂⟩ := exec_stream_finishes l hl (by rw [hs₂]; rfl) (hr.passesChecks h) hexec₂ herr₂
  obtain ⟨w, m, rfl, hf⟩ := exec_stream_finishes l hl hidle h hexec herr
  have hadvance := resumeAdvance_streamFinish hf₁
  rw [hf₁.result_toNat] at hcount
  rw [hadvance] at havail
  have hcount₂ : s₂.count = n₂ := by rw [hs₂]
  have havail₂ : s₂.avail = a₂ := by rw [hs₂]
  obtain rfl : w = r + w₂ := hf.eq_add hf₁ hf₂ hr (by rw [hcount₂, hcount]) rfl (by rw [havail₂]; exact havail)
  refine ⟨?_, by rw [hf₁.result_toNat, hf₂.result_toNat, hf.result_toNat], hr.counterAfter_eq w₂,
    read_after_two_calls hl hr ?_ ?_ ?_ ?_ hf₂.bytes hf.bytes⟩
  · have houtcome : finishOutcome s₂ w₂ = finishOutcome s (r + w₂) := by
      simp only [finishOutcome, hcount₂, hcount, Nat.add_left_cancel_iff]
    exact congrArg errCode houtcome
  · exact streamSource_resumed hl hr hf₁.result_toNat hadvance (hs₂ ▸ offset_advanced s.srcAddr s.srcOff _ hsource)
  · exact streamDestination_resumed hl hr hf₁.result_toNat hadvance
      (hs₂ ▸ offset_advanced s.dstAddr s.dstOff _ hdestination)
  · have hle := hf.bytes.le
    exact fun x y hxy hy => hno x y hxy (by omega)
  · rw [hs₂]
    exact bytesTransformed_of_moved l { s with count := n₁, avail := a₁ } m₁ r hf₁.bytes
      fun x y hxy hy => hno x y hxy (by omega)

/-- A stream command that completes with OK reports COUNT bytes (43_stream_transform.md R198). -/
theorem result_of_exec_stream_ok (l : Loop) (hl : l ≠ .batch) {s t : State} (hidle : isBusy s = false)
    (h : passesChecks s) (hexec : exec (loopInstr l) s = .next t) (herr : t.err = 0) : t.result = s.count := by
  obtain ⟨w, m, rfl, hf⟩ := exec_stream_finishes l hl hidle h hexec (.inl herr)
  exact hf.result_eq_count ((streamFinish_err_eq_zero_iff s w m).mp herr)

/-- Settles O43: `exec_stream_resumes` for both commands; STREAM_ENC does not look at AVAIL, and its calls end with OK
only. -/
theorem streamEncResumes : Obligations.StreamEncResumes := by
  refine ⟨?_, ?_⟩
  · intro s t₁ s₂ t₂ t n₁ n₂ hidle h hfits hcount hno hexec₁ herr₁ hsource hdestination hs₂ hexec₂ herr₂ hexec herr
    have hresult₁ : t₁.result = n₁ :=
      result_of_exec_stream_ok .enc nofun (s := { s with count := n₁ }) hidle h hexec₁ herr₁
    have hresult : t.result = s.count := result_of_exec_stream_ok .enc nofun hidle h hexec herr
    have hsum : s.count.toNat = n₁.toNat + n₂.toNat := by
      rw [hcount, BitVec.toNat_add, Nat.mod_eq_of_lt hfits]
    obtain ⟨_, hadds, hctr, hmem⟩ := exec_stream_resumes .enc nofun (n₁ := n₁) (a₁ := s.avail) (n₂ := n₂)
      (a₂ := t₁.avail) hidle h hno hexec₁ (.inl herr₁) (by rw [hresult₁, hsum]) nofun hsource hdestination hs₂ hexec₂
      (.inl herr₂) hexec (.inl herr)
    refine ⟨hresult₁, BitVec.eq_of_toNat_eq ?_, hctr, hmem⟩
    rw [hresult₁, hresult, hsum] at hadds
    exact Nat.add_left_cancel hadds
  · intro s t₁ s₂ t₂ t n₁ n₂ a₁ a₂ hidle h hno hexec₁ herr₁ hfits hcount hcut hsum hsource hdestination hs₂ hexec₂
      herr₂ hexec herr
    exact exec_stream_resumes .dec nofun hidle h hno hexec₁ herr₁
      (by rw [hcount, BitVec.toNat_add, Nat.mod_eq_of_lt hfits]) (fun _ => ⟨hcut, hsum⟩) hsource hdestination hs₂
      hexec₂ herr₂ hexec herr

end Sys2Proof.Machine

/-! SUPPORT. SELECT_BACKEND outcome by outcome, and what the other commands make of the selection (spec/44_backend_select.md
R230 to R233). -/

namespace Sys2Proof.Machine

/-! ### SELECT_BACKEND -/

/-- A command word as its fields stand in it: ARG from bit 8 on, OPCODE below (30_encoding.md R91). -/
theorem commandWord_eq_or (opcode arg : Byte) :
    commandWord opcode arg = opcode.setWidth 32 ||| (arg.setWidth 32 <<< 8) := by
  apply BitVec.eq_of_getLsbD_eq
  intro i hi
  simp only [commandWord, BitVec.getLsbD_append, BitVec.getLsbD_or, BitVec.getLsbD_setWidth, BitVec.getLsbD_shiftLeft]
  by_cases hlow : i < 8
  · simp [hlow, hi]
  · have hhigh : opcode.getLsbD i = false := BitVec.getLsbD_of_ge _ _ (by omega)
    by_cases harg : i - 8 < 8
    · simp [hlow, hhigh, harg, hi, show i - 8 < 32 by omega]
    · simp [hlow, hhigh, harg, BitVec.getLsbD_of_ge arg (i - 8) (by omega)]

theorem encode_selectBackend (id : Byte) :
    encode (.selectBackend (id.setWidth 32)) = 0x00000001 ||| (id.setWidth 32 <<< 8) := by
  have harg : (id.setWidth 32).setWidth 8 = id := by simp
  rw [encode, harg, commandWord_eq_or]
  rfl

/-- Every id below 3 names a backend (44_backend_select.md R230). -/
theorem exists_backendOfId (n : Nat) (h : n < 3) : ∃ b, backendOfId n = some b :=
  Option.ne_none_iff_exists'.mp fun hnone => Nat.not_le_of_lt h ((backendOfId_eq_none n).mp hnone)

/-- The CAP bit of an id that names a backend says whether that backend is present (44_backend_select.md R230). -/
theorem backendPresent_of_backendOfId {n : Nat} {b : Backend} (p : Platform) (h : backendOfId n = some b) :
    backendPresent p b = (capWord p).getLsbD n := by
  rw [backendPresent_eq_capBit, (backendOfId_eq_some n b).mp h]

/-- On an IDLE engine an id that names no backend writes its outcome alone (44_backend_select.md R231). -/
theorem exec_selectBackend_of_bad_id (arg : Word) (s : State) (hidle : isBusy s = false)
    (h : backendOfId arg.toNat = none) :
    exec (.selectBackend arg) s = .next (endedWith (.invalidArgument .badBackendId) 0 0 s) := by
  rw [exec_idle _ _ hidle, commandBody, selectBackendBody, h]
  exact congrArg _ (complete_accept _ 0 0 _ s)

/-- On an IDLE engine an absent backend writes its outcome alone (44_backend_select.md R231). -/
theorem exec_selectBackend_of_absent (arg : Word) (s : State) (b : Backend) (hidle : isBusy s = false)
    (h : backendOfId arg.toNat = some b) (habsent : backendPresent s.platform b = false) :
    exec (.selectBackend arg) s = .next (endedWith .backendUnavailable 0 0 s) := by
  rw [exec_idle _ _ hidle, commandBody, selectBackendBody, h]
  exact congrArg _ (if_neg (ne_true_of_eq_false habsent))

/-- On an IDLE engine a present backend is selected, and the key has to be expanded again (44_backend_select.md R231). -/
theorem exec_selectBackend_of_present (arg : Word) (s : State) (b : Backend) (hidle : isBusy s = false)
    (h : backendOfId arg.toNat = some b) (hpresent : backendPresent s.platform b = true) :
    exec (.selectBackend arg) s = .next (endedWith .ok 0 0 { s with backend := b, rkValid := false }) := by
  rw [exec_idle _ _ hidle, commandBody, selectBackendBody, h]
  exact congrArg _ (if_pos hpresent)

/-- Settles O19: the id decides first, then the CAP bit of the backend it names. -/
theorem selectBackendEffect : Obligations.SelectBackendEffect := by
  refine ⟨encode_selectBackend, fun p => (backendPresent_eq_capBit p .software).symm, fun arg s hidle => ⟨?_, ?_, ?_⟩⟩
  · exact fun hbad => exec_selectBackend_of_bad_id arg s hidle ((backendOfId_eq_none _).mpr hbad)
  · intro hlt hbit
    obtain ⟨b, hb⟩ := exists_backendOfId _ hlt
    exact exec_selectBackend_of_absent arg s b hidle hb ((backendPresent_of_backendOfId _ hb).trans hbit)
  · intro hlt hbit
    obtain ⟨b, hb⟩ := exists_backendOfId _ hlt
    exact ⟨b, ((backendOfId_eq_some _ b).mp hb).symm,
      exec_selectBackend_of_present arg s b hidle hb ((backendPresent_of_backendOfId _ hb).trans hbit)⟩

/-! ### The selection under the other commands

No command but SELECT_BACKEND reads or writes the selection, so it passes through every operation a command is made of. -/

/-- The same engine with another backend selected. -/
def withBackend (b : Backend) (s : State) : State := { s with backend := b }

theorem withBackend_self (s : State) : withBackend s.backend s = s := rfl

theorem withBackend_withBackend (a b : Backend) (s : State) : withBackend a (withBackend b s) = withBackend a s := rfl

theorem isBusy_withBackend (b : Backend) (s : State) : isBusy (withBackend b s) = isBusy s := rfl

theorem accept_withBackend (w : Word) (b : Backend) (s : State) :
    accept w (withBackend b s) = withBackend b (accept w s) := rfl

theorem complete_withBackend (o : Completion) (result phys : Nat) (b : Backend) (s : State) :
    complete o result phys (withBackend b s) = withBackend b (complete o result phys s) := rfl

theorem performPlan_withBackend (p : Plan) (b : Backend) (s : State) :
    performPlan p (withBackend b s) = withBackend b (performPlan p s) := rfl

theorem advanceBlock_withBackend (p : Plan) (b : Backend) (s : State) :
    advanceBlock p (withBackend b s) = (advanceBlock p s).map (withBackend b) := by
  have hindex : blockIndex (withBackend b s) = blockIndex s := rfl
  rw [advanceBlock, advanceBlock, hindex]
  split
  · split <;> rfl
  · rfl

theorem loopStart_withBackend (l : Loop) (b : Backend) (s : State) : loopStart l (withBackend b s) = loopStart l s := by
  cases l <;> rfl

theorem loopHead_withBackend (l : Loop) (b : Backend) (s : State) (c : Cursors) :
    loopHead l (withBackend b s) c = loopHead l s c := by
  cases l <;> rfl

theorem runLoop_withBackend (l : Loop) (n : Nat) (c : Cursors) (b : Backend) (s : State) :
    runLoop (loopHead l) n c (withBackend b s) = withBackend b (runLoop (loopHead l) n c s) := by
  induction n generalizing c s with
  | zero => rfl
  | succ n ih =>
    rw [runLoop, runLoop, loopHead_withBackend]
    split
    · rfl
    · rw [performPlan_withBackend, advanceBlock_withBackend]
      cases advanceBlock _ (performPlan _ s) with
      | error o => rfl
      | ok t => exact ih _ t

theorem runLoopCommand_withBackend (l : Loop) (b : Backend) (s : State) :
    runLoopCommand (loopStart l) (loopHead l) (withBackend b s) =
      withBackend b (runLoopCommand (loopStart l) (loopHead l) s) := by
  rw [runLoopCommand, runLoopCommand, loopStart_withBackend]
  split
  · rfl
  · exact runLoop_withBackend l _ _ b s

/-- A SELECT_BACKEND that succeeds forgets the backend before it; one that fails keeps it (44_backend_select.md R231). -/
theorem selectBackendBody_withBackend (arg : Word) (b : Backend) (s : State) :
    ∃ a, selectBackendBody arg (withBackend b s) = withBackend a (selectBackendBody arg s) := by
  have hplatform : (withBackend b s).platform = s.platform := rfl
  rw [selectBackendBody, selectBackendBody, hplatform]
  split
  · exact ⟨b, rfl⟩
  · rename_i selected _
    split
    · exact ⟨selected, rfl⟩
    · exact ⟨b, rfl⟩

/-- What a command does is the same under every backend, but for the selection it leaves (44_backend_select.md R233). -/
theorem commandBody_withBackend (i : Instr) (b : Backend) (s : State) :
    ∃ a, commandBody i (withBackend b s) = withBackend a (commandBody i s) := by
  cases i with
  | selectBackend arg => exact selectBackendBody_withBackend arg b s
  | keyExpand => exact ⟨b, rfl⟩
  | encBlock =>
    have hkey : (withBackend b s).rkValid = s.rkValid := rfl
    rw [commandBody, encBlockBody, encBlockBody, hkey]
    split <;> exact ⟨b, rfl⟩
  | ctrInc =>
    have hindex : blockIndex (withBackend b s) = blockIndex s := rfl
    have hinc : incOperand (withBackend b s) = incOperand s := rfl
    rw [commandBody, ctrIncBody, ctrIncBody, hindex, hinc]
    split <;> exact ⟨b, rfl⟩
  | encBatch => exact ⟨b, runLoopCommand_withBackend .batch b s⟩
  | streamEnc => exact ⟨b, runLoopCommand_withBackend .enc b s⟩
  | streamDec => exact ⟨b, runLoopCommand_withBackend .dec b s⟩

theorem runCommand_withBackend (w : Word) (i : Instr) (b : Backend) (s : State) :
    ∃ a, runCommand w (commandBody i) (withBackend b s) = withBackend a (runCommand w (commandBody i) s) := by
  rw [runCommand, runCommand, isBusy_withBackend, accept_withBackend]
  split
  · exact ⟨b, rfl⟩
  · exact commandBody_withBackend i b (accept w s)

/-- Settles O48: the two runs end in states that are equal once the second is given the selection of the first. -/
theorem backendChoiceIsUnobservable : Obligations.BackendChoiceIsUnobservable := by
  intro i s b
  obtain ⟨a, ha⟩ := runCommand_withBackend (encode i) i b s
  refine ⟨_, _, exec_eq i s, (exec_eq i (withBackend b s)).trans (congrArg _ ha), ?_⟩
  exact (withBackend_withBackend _ a _).trans (withBackend_self _)

end Sys2Proof.Machine

/-! SUPPORT. Completion: the outcome codes, the outcomes of each command, that every accepted command comes to its
end, and what stops the machine and what moves an IDLE engine (spec/60_exceptions.md R240 to R257). -/

namespace Sys2Proof.Machine

/-! ### Outcomes -/

/-- Settles O17: the codes are read off their tables. -/
theorem outcomeCodes : Obligations.OutcomeCodes := by
  refine ⟨⟨rfl, rfl, fun _ => rfl, rfl, rfl, fun _ => rfl, rfl⟩, fun o => ?_,
    ⟨rfl, rfl, rfl, rfl, rfl, rfl, rfl, rfl, rfl⟩, fun o harg hbus => ?_⟩
  · cases o <;> simp only [errCode] <;> decide
  · cases o with
    | invalidArgument c => exact absurd rfl (harg c)
    | busError k => exact absurd rfl (hbus k)
    | _ => rfl

/-- The (ERR, CAUSE) pair of an outcome (60_exceptions.md R240, R241). -/
def outcomePair (o : Completion) : Nat × Nat := ((errCode o).toNat, (causeCode o).toNat)

/-- The command has ended, with an outcome listed for it (60_exceptions.md R242, R245). -/
def endedListed (i : Instr) (t : State) : Prop := recordedOutcome t ∈ outcomesOf i ∧ t.seq = .idle ∧ t.done = true

/-- Completion ends a command with the outcome it is given (60_exceptions.md R245). -/
theorem endedListed_complete {i : Instr} {o : Completion} (h : outcomePair o ∈ outcomesOf i) (result phys : Nat)
    (s : State) : endedListed i (complete o result phys s) :=
  ⟨h, rfl, rfl⟩

theorem ok_listed (i : Instr) : outcomePair .ok ∈ outcomesOf i := by
  cases i <;> exact List.mem_cons_self

/-- An iteration's Counter advance may raise OVERFLOW in every loop command. -/
theorem advanceBlock_error_listed (l : Loop) {p : Plan} {s : State} {o : Completion}
    (h : advanceBlock p s = .error o) : outcomePair o ∈ outcomesOf (loopInstr l) := by
  rw [advanceBlock_error p s o h]
  cases l <;> decide

/-- The argument checks of a loop command raise outcomes listed for it (42_block_cipher.md R179, 43_stream_transform.md
R191). -/
theorem loopStart_error_listed (l : Loop) {s : State} {o : Completion} (h : loopStart l s = .error o) :
    outcomePair o ∈ outcomesOf (loopInstr l) := by
  cases l with
  | batch =>
    simp only [loopStart, encBatchStart] at h
    split_ifs at h <;> cases h <;> decide
  | enc | dec =>
    simp only [loopStart, streamStart] at h
    split_ifs at h <;> cases h <;> decide

/-- A bus error of either kind is listed for both stream commands (43_stream_transform.md R195, R200). -/
theorem busError_listed (l : Loop) (hl : l ≠ .batch) (k : AccessKind) :
    outcomePair (.busError k) ∈ outcomesOf (loopInstr l) := by
  cases l with
  | batch => exact absurd rfl hl
  | enc | dec => cases k <;> decide

/-- What the head of a loop may decide at cursors `c`: to end the command, with an outcome listed for it; or, before
COUNT is reached, an iteration, which moves on if the cursor `bo` lies in a block (43_stream_transform.md R196). -/
def headSound (l : Loop) (s : State) (c : Cursors) : Head → Prop
  | .done o _ => outcomePair o ∈ outcomesOf (loopInstr l)
  | .go p => c.written < s.count.toNat ∧ (c.bo < 16 → c.written < p.next.written)

theorem headSound_streamIteration (l : Loop) (hl : l ≠ .batch) (s : State) (c : Cursors)
    (pos len source destination : Nat) (hlt : c.written < s.count.toNat) (hlen : c.bo < 16 → 0 < len) :
    headSound l s c (streamIteration s c pos len source destination) := by
  rcases streamIteration_cases s c pos len source destination with ⟨_, h⟩ | ⟨_, _, h⟩ | ⟨_, _, h⟩ <;> rw [h]
  · exact busError_listed l hl .read
  · exact busError_listed l hl .write
  · exact ⟨hlt, fun hbo => Nat.lt_add_of_pos_right (hlen hbo)⟩

theorem loopHead_sound (l : Loop) (s : State) (c : Cursors) : headSound l s c (loopHead l s c) := by
  cases l with
  | batch =>
    simp only [loopHead, encBatchHead]
    split_ifs with hlt
    · exact (by decide : outcomePair (.busError .write) ∈ outcomesOf (loopInstr .batch))
    · exact ⟨hlt, fun _ => Nat.lt_succ_self _⟩
    · exact ok_listed _
  | enc =>
    simp only [loopHead, streamEncHead]
    split_ifs with hlt
    · exact headSound_streamIteration .enc nofun s c _ _ _ _ hlt (by omega)
    · exact ok_listed _
  | dec =>
    simp only [loopHead, streamDecHead]
    split_ifs with hlt hlen
    · exact (by decide : outcomePair .shortRead ∈ outcomesOf (loopInstr .dec))
    · exact headSound_streamIteration .dec nofun s c _ _ _ _ hlt (fun _ => Nat.pos_of_ne_zero hlen)
    · exact ok_listed _

theorem endedListed_runLoop (l : Loop) (n : Nat) (c : Cursors) (s : State) :
    endedListed (loopInstr l) (runLoop (loopHead l) n c s) := by
  obtain ⟨m, u, d, _, hfuel, hexit⟩ := runLoop_exit (loopHead l) (fun _ _ _ => True) (fun _ _ _ _ _ _ _ _ => trivial)
    n c s trivial
  by_cases hm : m = 0
  · rw [hfuel hm]
    exact endedListed_complete (ok_listed _) _ _ _
  · rcases hexit hm with ⟨o, phys, hdone, h⟩ | ⟨p, o, _, herror, h⟩
    · rw [h]
      have hlisted := loopHead_sound l u d
      rw [hdone] at hlisted
      exact endedListed_complete hlisted _ _ _
    · rw [h]
      exact endedListed_complete (advanceBlock_error_listed l herror) _ _ _

/-- A whole command ends with an outcome listed for it (60_exceptions.md R242). -/
theorem endedListed_commandBody (i : Instr) (s : State) : endedListed i (commandBody i s) := by
  have loop : ∀ l, endedListed (loopInstr l) (commandBody (loopInstr l) s) := by
    intro l
    rw [commandBody_loopInstr, runLoopCommand]
    split
    · rename_i o herror
      exact endedListed_complete (loopStart_error_listed l herror) _ _ _
    · exact endedListed_runLoop l _ _ _
  cases i with
  | encBatch => exact loop .batch
  | streamEnc => exact loop .enc
  | streamDec => exact loop .dec
  | keyExpand => exact endedListed_complete (ok_listed _) _ _ _
  | selectBackend arg =>
    rw [commandBody, selectBackendBody]
    split
    · exact endedListed_complete (by rw [outcomesOf]; decide) _ _ _
    · split
      · exact endedListed_complete (ok_listed _) _ _ _
      · exact endedListed_complete (by rw [outcomesOf]; decide) _ _ _
  | encBlock =>
    rw [commandBody, encBlockBody]
    split
    · exact endedListed_complete (ok_listed _) _ _ _
    · exact endedListed_complete (by decide) _ _ _
  | ctrInc =>
    rw [commandBody, ctrIncBody]
    rcases increment_cases (blockIndex s) (incOperand s) with ⟨_, h⟩ | ⟨_, _, h⟩ | ⟨_, _, h⟩ <;> rw [h]
    · exact endedListed_complete (by decide) _ _ _
    · exact endedListed_complete (by decide) _ _ _
    · exact endedListed_complete (ok_listed _) _ _ _

/-- Settles O50: a legal word runs its command whole, an illegal one writes nothing but its outcome. -/
theorem commandsCompleteWithListedOutcomes : Obligations.CommandsCompleteWithListedOutcomes :=
  ⟨fun i s hidle => ⟨_, exec_idle i s hidle, endedListed_commandBody i _⟩,
    fun s w e rest hidle hw hs => ⟨_, step_command_of_decode_error s w e rest hidle hs hw, rfl, rfl, rfl⟩⟩

/-! ### Every accepted command comes to its end -/

/-- The engine, left alone, ends the command in finitely many micro-steps. -/
def finishes (i : Instr) (s : State) : Prop := ∃ n, endedListed i (engineSteps n s)

theorem finishes_of_endedListed {i : Instr} {s : State} (h : endedListed i (engineStep s)) : finishes i s := ⟨1, h⟩

theorem finishes_of_engineStep {i : Instr} {s : State} (h : finishes i (engineStep s)) : finishes i s := by
  obtain ⟨n, h⟩ := h
  exact ⟨n + 1, h⟩

/-- From the loop head at cursors `c`, with `count` in COUNT, the loop comes to its end. -/
def headFinishes (l : Loop) (count : Word) (c : Cursors) : Prop :=
  ∀ (r : Running) (s : State), s.count = count → finishes (loopInstr l) (enterStage r l (.head c) s)

/-- After the last byte of an iteration the command ends with an outcome listed for it, or the engine is at the loop
head again (43_stream_transform.md R204, R206). -/
theorem endIteration_cases (r : Running) (l : Loop) (p : Plan) (written : List Host.Cell) (s : State) :
    endedListed (loopInstr l) (endIteration r l p written s) ∨
      ∃ r' t, endIteration r l p written s = enterStage r' l (.head p.next) t ∧ t.count = s.count := by
  rw [endIteration]
  split
  · rename_i o herror
    exact .inl (endedListed_complete (advanceBlock_error_listed l herror) _ _ _)
  · rename_i t hok
    obtain ⟨hframe, _⟩ := advanceBlock_frame _ _ _ hok
    exact .inr ⟨_, t, rfl, by rw [hframe]⟩

/-- An iteration that is writing comes to its end in as many micro-steps as there are bytes left to write, and one. -/
theorem finishes_of_writing (l : Loop) (p : Plan) (s : State) (h : headFinishes l s.count p.next) (r : Running)
    (todo written : List Host.Cell) : finishes (loopInstr l) (enterStage r l (.writing p todo written) s) := by
  induction todo generalizing written with
  | nil =>
    have hstep : engineStep (enterStage r l (.writing p [] written) s) =
        endIteration { r with phase := .looping l (.writing p [] written) } l p written
          (enterStage r l (.writing p [] written) s) := rfl
    rcases endIteration_cases { r with phase := .looping l (.writing p [] written) } l p written
        (enterStage r l (.writing p [] written) s) with hended | ⟨r', t, hhead, hcount⟩
    · exact finishes_of_endedListed (hstep ▸ hended)
    · exact finishes_of_engineStep ((hstep.trans hhead) ▸ h r' t hcount)
  | cons c todo ih => exact finishes_of_engineStep (ih (written ++ [c]))

/-- An iteration that is reading comes to write once its source bytes are read. -/
theorem finishes_of_reading (l : Loop) (p : Plan) (s : State) (h : headFinishes l s.count p.next) (r : Running)
    (todo : List Nat) (got : List Byte) : finishes (loopInstr l) (enterStage r l (.reading p todo got) s) := by
  induction todo generalizing got with
  | nil => exact finishes_of_engineStep (finishes_of_writing l p s h r (xorSource p.writes got) [])
  | cons a todo ih =>
    exact finishes_of_engineStep (ih (got ++ [(engineView (enterStage r l (.reading p (a :: todo) got) s)).read a]))

/-- The loop comes to its end: every iteration takes at least one byte or block of those left until COUNT. -/
theorem headFinishes_of_bo_lt (l : Loop) (count : Word) (c : Cursors) (hbo : c.bo < 16) : headFinishes l count c := by
  induction hleft : count.toNat - c.written using Nat.strong_induction_on generalizing c with
  | _ left ih =>
    intro r s hcount
    have hstep : engineStep (enterStage r l (.head c) s) =
        loopStep { r with phase := .looping l (.head c) } l (.head c) (enterStage r l (.head c) s) := rfl
    have hsound := loopHead_sound l (enterStage r l (.head c) s) c
    cases hhead : loopHead l (enterStage r l (.head c) s) c with
    | done o phys =>
      rw [hhead] at hsound
      simp only [loopStep, hhead] at hstep
      exact finishes_of_endedListed (hstep ▸ endedListed_complete hsound _ _ _)
    | go p =>
      rw [hhead] at hsound
      simp only [loopStep, hhead] at hstep
      obtain ⟨hlt, hmoves⟩ := hsound
      rw [enterStage_count, hcount] at hlt
      obtain ⟨hbo', _⟩ := loopHead_consistent l _ c p hhead
      have hnext : headFinishes l count p.next :=
        ih (count.toNat - p.next.written) (by have := hmoves hbo; omega) p.next hbo' rfl
      refine finishes_of_engineStep ?_
      rw [hstep]
      exact finishes_of_reading l p s (hcount ▸ hnext) r p.reads []

/-- A loop command comes to its end from every stage its own rules lead to. -/
theorem finishes_of_stageConsistent (p : Platform) (l : Loop) (stage : Stage) (h : stageConsistent p stage)
    (r : Running) (s : State) : finishes (loopInstr l) (enterStage r l stage s) := by
  cases stage with
  | head c => exact headFinishes_of_bo_lt l s.count c h r s rfl
  | reading pl todo got =>
    obtain ⟨hbo, _⟩ := h
    exact finishes_of_reading l pl s (headFinishes_of_bo_lt l _ _ hbo) r todo got
  | writing pl todo written =>
    obtain ⟨hbo, _⟩ := h
    exact finishes_of_writing l pl s (headFinishes_of_bo_lt l _ _ hbo) r todo written

theorem finishes_of_beginLoop (r : Running) (l : Loop) (s : State) (h : engineStep s = beginLoop r l s) :
    finishes (loopInstr l) s := by
  rw [beginLoop] at h
  cases hstart : loopStart l s with
  | error o =>
    simp only [hstart] at h
    exact finishes_of_endedListed (h ▸ endedListed_complete (loopStart_error_listed l hstart) _ _ _)
  | ok c =>
    simp only [hstart] at h
    obtain ⟨_, hbo, _⟩ := loopStart_ok l s c hstart
    exact finishes_of_engineStep (h ▸ headFinishes_of_bo_lt l s.count c hbo r s rfl)

/-- A BUSY engine ends the command it has latched, an illegal word in one micro-step (70_reset_and_hazards.md R283). -/
theorem Inv.busy_finishes {s : State} (h : Inv s) {r : Running} (hq : s.seq = .busy r) :
    (∃ i, decode r.word = .ok i ∧ finishes i s) ∨
      ∃ e, decode r.word = .error e ∧ engineStep s = complete .illegalCommand 0 0 s := by
  obtain ⟨_, _, _, _, hphase⟩ := h.running r hq
  cases hp : r.phase with
  | accepted =>
    have hbegin : engineStep s = beginCommand r s := by simp only [engineStep, hq, hp]
    rcases beginCommand_cases r s with ⟨e, hw, hb⟩ | ⟨l, hw, hb⟩ | ⟨i, hw, _, hb⟩
    · exact .inr ⟨e, hw, hbegin.trans hb⟩
    · exact .inl ⟨_, hw, finishes_of_beginLoop r l s (hbegin.trans hb)⟩
    · exact .inl ⟨i, hw, finishes_of_endedListed ((hbegin.trans hb) ▸ endedListed_commandBody i s)⟩
  | looping l stage =>
    rw [hp] at hphase
    obtain ⟨_, hw, hstage⟩ := hphase
    have hs : enterStage r l stage s = s := by rw [enterStage, ← hp, ← hq]
    exact .inl ⟨_, hw, hs ▸ finishes_of_stageConsistent s.platform l stage hstage r s⟩

/-- Settles O47: an IDLE engine is there already, a BUSY one ends the command it has latched. -/
theorem busyEngineReachesIdle : Obligations.BusyEngineReachesIdle := by
  intro s hinv hs
  cases hq : s.seq with
  | idle => exact ⟨0, s, rfl, hq, nofun⟩
  | busy r =>
    rcases hinv.busy_finishes hq with ⟨i, hw, n, houtcome, hidle, hdone⟩ | ⟨e, hw, hstep⟩
    · refine ⟨n, _, run_of_no_schedule n s hs, hidle, ?_⟩
      rintro r ⟨rfl⟩
      rw [hw]
      exact ⟨hdone, fun j hj => by cases hj; exact houtcome, nofun⟩
    · refine ⟨1, complete .illegalCommand 0 0 s, hstep ▸ run_of_no_schedule 1 s hs, rfl, ?_⟩
      rintro r ⟨rfl⟩
      rw [hw]
      exact ⟨rfl, nofun, fun _ _ => rfl⟩

/-! ### What stops the machine -/

/-- A host access that the register window does not answer (20_memory.md R71; log entry 11). -/
def irregularMove (p : Platform) (m : Move) : Prop :=
  (∃ offset size v, m = .writeReg offset size v ∧ (size ≠ .word ∨ offset.toNat % 4 ≠ 0)) ∨
    (∃ offset size, m = .readReg offset size ∧ (size ≠ .word ∨ offset.toNat % 4 ≠ 0)) ∨
    (∃ a v h, m = .store a v h ∧ inWindow p a.toNat = true) ∨
    ∃ a e, m = .load a e ∧ inWindow p a.toNat = true

theorem irregular_of_not_regularAccess {offset : BitVec 8} {size : AccessSize}
    (h : ¬ regularAccess offset size = true) :
    size ≠ .word ∨ offset.toNat % 4 ≠ 0 :=
  not_and_or.mp (mt (regularAccess_iff offset size).mpr h)

/-- No move stops the machine but an irregular access of the window. -/
theorem perform_next_or_irregular (m : Move) (s : State) :
    (∃ t, perform m s = .next t) ∨
      ∃ fault, perform m s = .fault (.irregularAccess fault) ∧ irregularMove s.platform m := by
  cases m with
  | engine => exact .inl ⟨_, rfl⟩
  | reset landed => exact .inl ⟨_, rfl⟩
  | command w =>
    rw [perform, runWord]
    split
    · exact .inl ⟨_, exec_eq _ s⟩
    · exact .inl ⟨_, rfl⟩
  | writeReg offset size v =>
    rw [perform]
    split_ifs with h
    · exact .inl ⟨_, rfl⟩
    · exact .inr ⟨_, rfl, .inl ⟨offset, size, v, rfl, irregular_of_not_regularAccess h⟩⟩
  | readReg offset size =>
    rw [perform]
    split_ifs with h
    · exact .inl ⟨_, rfl⟩
    · exact .inr ⟨_, rfl, .inr (.inl ⟨offset, size, rfl, irregular_of_not_regularAccess h⟩)⟩
  | store a v hostWins =>
    rw [perform]
    split_ifs with h
    · exact .inr ⟨_, rfl, .inr (.inr (.inl ⟨a, v, hostWins, rfl, h⟩))⟩
    · exact .inl ⟨_, rfl⟩
  | load a engineValue =>
    rw [perform]
    split_ifs with h
    · exact .inr ⟨_, rfl, .inr (.inr (.inr ⟨a, engineValue, rfl, h⟩))⟩
    · exact .inl ⟨_, rfl⟩

/-- Settles O55: the engine's own move always has a next state, and so has every scheduled one but an irregular
access. -/
theorem onlyIrregularHostAccessesStop : Obligations.OnlyIrregularHostAccessesStop := by
  refine ⟨fun i s => ⟨_, exec_eq i s⟩, fun s => ?_⟩
  cases hs : s.schedule with
  | nil => exact .inl ⟨_, step_nil s hs⟩
  | cons m rest =>
    rw [step_cons s m rest hs]
    rcases perform_next_or_irregular m { s with schedule := rest } with h | ⟨fault, h, hirr⟩
    · exact .inl h
    · exact .inr ⟨fault, m, rest, h, rfl, hirr⟩

/-! ### What moves an IDLE engine -/

theorem engineStep_of_idle (s : State) (h : s.seq = .idle) : engineStep s = s := by
  rw [engineStep, h]

/-- While IDLE a read of the window only reports a value. -/
theorem readWindow_of_idle (offset : BitVec 8) (s : State) (h : isBusy s = false) :
    ∃ v, readWindow offset s = report v s := by
  rw [readWindow]
  split
  · exact ⟨0, rfl⟩
  · exact ⟨_, readRegister_stable _ s (.inl h)⟩

/-- Of the moves of an IDLE engine that are neither a host write nor a reset, the engine's own changes nothing, a read
and a load report a value, and a store writes its byte. -/
theorem perform_of_idle (m : Move) (s t : State) (hidle : isBusy s = false) (hcommand : ∀ w, m ≠ .command w)
    (hwrite : ∀ o z v, m ≠ .writeReg o z v) (hreset : ∀ l, m ≠ .reset l) (h : perform m s = .next t) :
    t = { s with reported := t.reported, mem := t.mem } ∧ ((∀ a v h, m ≠ .store a v h) → t.mem = s.mem) := by
  have hseq := seq_of_not_busy s hidle
  rcases perform_next_cases m s t h with ⟨rfl, rfl⟩ | ⟨w, i, rfl, _⟩ | ⟨w, e, rfl, _⟩ | ⟨offset, v, rfl, _⟩ |
    ⟨offset, rfl, _, rfl⟩ | ⟨a, v, hostWins, rfl, _, rfl⟩ | ⟨a, engineValue, rfl, _, rfl⟩ | ⟨landed, rfl, _⟩
  · rw [engineStep_of_idle s hseq]
    exact ⟨rfl, fun _ => rfl⟩
  · exact absurd rfl (hcommand w)
  · exact absurd rfl (hcommand w)
  · exact absurd rfl (hwrite _ _ _)
  · obtain ⟨v, hread⟩ := readWindow_of_idle offset s hidle
    rw [hread]
    exact ⟨rfl, fun _ => rfl⟩
  · rw [storeByte_of_idle _ _ _ s hseq]
    exact ⟨rfl, fun hstore => absurd rfl (hstore a v hostWins)⟩
  · rw [loadByte_of_idle _ _ s hseq]
    exact ⟨rfl, fun _ => rfl⟩
  · exact absurd rfl (hreset landed)

/-- Settles O60: with nothing scheduled the engine moves, and does nothing; every other move is one of `perform`. -/
theorem idleEngineWaits : Obligations.IdleEngineWaits := by
  refine ⟨fun s hidle hs => ?_, fun s t m rest hidle hs hcommand hwrite hreset ht => ?_⟩
  · rw [step_nil s hs, engineStep_of_idle s (seq_of_not_busy s hidle)]
  · rw [step_cons s m rest hs] at ht
    exact perform_of_idle m { s with schedule := rest } t hidle hcommand hwrite hreset ht

end Sys2Proof.Machine

/-! SUPPORT. Reset: every register at its value of the table, the bytes of an interrupted iteration that land, and the
micro-steps by which the engine, left alone, ends an iteration (spec/70_reset_and_hazards.md R270, R271; spec/20_memory.md
R65). -/

namespace Sys2Proof.Machine

/-! ### Every register at its value of the table -/

/-- Settles O45: no register of the reset state asks for more than its value, and nothing is in progress. -/
theorem resetMeetsTheInvariant : Obligations.ResetMeetsTheInvariant where
  mem_wf := Memory.wf_reset
  outcome := List.mem_cons_self
  backend_present := rfl
  rk_expanded := nofun
  key_cleared := nofun
  running := nofun

theorem step_reset (s : State) (landed : List Bool) (rest : List Move) (h : s.schedule = .reset landed :: rest) :
    step s = .next (resetEngine landed { s with schedule := rest }) :=
  step_cons s _ rest h

theorem engineView_of_idle (s : State) (h : s.seq = .idle) : engineView s = s.mem :=
  engineView_of_no_pending s (by rw [pendingWrites, h])

theorem engineView_of_busy (s : State) (r : Running) (h : s.seq = .busy r) : engineView s = s.mem.writeAll r.pending := by
  rw [engineView, pendingWrites_busy s r h]

theorem iterationWrites_of_idle (s : State) (h : s.seq = .idle) : iterationWrites s = [] := by
  rw [iterationWrites, h]

/-- No iteration is in progress before the first loop head, and at a loop head (log entry 17). -/
theorem iterationWrites_of_no_iteration (s : State) (r : Running) (hq : s.seq = .busy r)
    (h : r.phase = .accepted ∨ ∃ l c, r.phase = .looping l (.head c)) : iterationWrites s = [] := by
  rcases h with hp | ⟨l, c, hp⟩ <;> simp only [iterationWrites, hq, hp]

/-- Where no byte is in progress, none lands. -/
theorem landedCells_nil (landed : List Bool) : landedCells [] landed = [] := by
  cases landed <;> rfl

/-- The reset of an IDLE engine leaves the data space alone. -/
theorem resetEngine_mem_of_idle (landed : List Bool) (s : State) (h : s.seq = .idle) :
    (resetEngine landed s).mem = s.mem := by
  rw [resetEngine, iterationWrites_of_idle s h, engineView_of_idle s h, landedCells_nil, Memory.writeAll_nil]

theorem ctrlWord_reset : ctrlWord State.reset = 0 := by decide

theorem statusWord_reset : statusWord State.reset = 0 := by decide

/-- Settles O56: reset takes its registers from the table whatever the engine was doing. -/
theorem resetLeavesTheTable : Obligations.ResetLeavesTheTable := by
  intro s landed rest h
  refine ⟨_, step_reset s landed rest h, rfl, ctrlWord_reset, statusWord_reset, rfl, rfl, rfl, rfl, rfl, rfl, rfl, rfl,
    rfl, rfl, rfl, rfl, rfl, rfl, rfl, rfl, rfl, rfl, rfl, rfl, rfl, rfl, fun hidle => ?_⟩
  exact resetEngine_mem_of_idle landed { s with schedule := rest } (seq_of_not_busy s hidle)

/-! ### The bytes that land -/

/-- After stores, a byte reads as before or as one of the stores wrote it. -/
theorem Memory.read_writeAll_old_or_new (m : Memory) (cs : List Host.Cell) (a : Nat) :
    (m.writeAll cs).read a = m.read a ∨ (a, (m.writeAll cs).read a) ∈ cs := by
  induction cs generalizing m with
  | nil => exact .inl rfl
  | cons c cs ih =>
    rw [Memory.writeAll_cons]
    rcases ih (m.write c.1 c.2) with hold | hnew
    · rw [hold, Memory.read_write]
      split_ifs with hac
      · exact .inr (hac ▸ List.mem_cons_self)
      · exact .inl rfl
    · exact .inr (List.mem_cons_of_mem c hnew)

/-- A choice by address is one of the choices a reset move can carry. -/
theorem landedCells_map (cs : List Host.Cell) (choice : Host.Cell → Bool) :
    landedCells cs (cs.map choice) = cs.filter choice := by
  induction cs with
  | nil => rfl
  | cons c cs ih => rw [List.map_cons, landedCells, ih, List.filter_cons]

/-- Of stores at distinct addresses of which some are made, a byte reads back where its store is made, and reads as
before where it is not. -/
theorem Memory.read_writeAll_chosen (m : Memory) (cs : List Host.Cell) (choice : Nat → Bool) (c : Host.Cell)
    (hc : c ∈ cs) (h : (cs.map Prod.fst).Nodup) :
    (m.writeAll (cs.filter fun d => choice d.1)).read c.1 = if choice c.1 then c.2 else m.read c.1 := by
  split_ifs with hchoice
  · exact Memory.read_writeAll_mem m _ c (List.mem_filter.mpr ⟨hc, hchoice⟩) (h.sublist (List.filter_sublist.map _))
  · refine Memory.read_writeAll_other m _ c.1 fun d hd hdc => hchoice ?_
    exact hdc ▸ (List.mem_filter.mp hd).2

/-! ### The iteration in progress, left alone -/

/-- Where the sequencer stands and what the data space holds play no part in the Counter's advance. -/
theorem advanceBlock_setSeqMem (p : Plan) (s : State) (q : Seq) (m : Memory) :
    advanceBlock p { s with seq := q, mem := m } = (advanceBlock p s).map fun t => { t with seq := q, mem := m } := by
  have hindex : blockIndex { s with seq := q, mem := m } = blockIndex s := rfl
  rw [advanceBlock, advanceBlock, hindex]
  split
  · split <;> rfl
  · rfl

theorem advanceBlock_setSeq_of_ok (p : Plan) (s t : State) (q : Seq) (h : advanceBlock p s = .ok t) :
    advanceBlock p { s with seq := q } = .ok { t with seq := q } := by
  have hmem := advanceBlock_mem p s t h
  exact (advanceBlock_setSeqMem p s q s.mem).trans (by rw [h, ← hmem]; rfl)

theorem advanceBlock_setSeq_of_error (p : Plan) (s : State) (q : Seq) (o : Completion) (h : advanceBlock p s = .error o) :
    advanceBlock p { s with seq := q } = .error o :=
  (advanceBlock_setSeqMem p s q s.mem).trans (by rw [h]; rfl)

/-- The running command once an iteration is over: its writes join those of the iterations before it (20_memory.md R77). -/
def joined (r : Running) (written : List Host.Cell) : Running := { r with pending := r.pending ++ written }

/-- An iteration whose Counter advance succeeds ends at the loop head. -/
theorem endIteration_of_ok (r : Running) (l : Loop) (p : Plan) (written : List Host.Cell) (s t : State)
    (h : advanceBlock p s = .ok t) :
    endIteration r l p written s = enterStage (joined r written) l (.head p.next) t := by
  rw [endIteration]
  rw [advanceBlock_setSeq_of_ok p s t _ h]
  rfl

/-- An iteration whose Counter advance raises ends the command, with its own writes kept (43_stream_transform.md R206). -/
theorem endIteration_of_error (r : Running) (l : Loop) (p : Plan) (written : List Host.Cell) (s : State) (o : Completion)
    (h : advanceBlock p s = .error o) :
    endIteration r l p written s =
      complete o p.next.written p.next.pos (enterStage (joined r written) l (.head p.next) s) := by
  rw [endIteration]
  rw [advanceBlock_setSeq_of_error p s _ o h]
  rfl

/-- The end of an iteration does not depend on the stage the sequencer stands at. -/
theorem endIteration_enterStage (r : Running) (l : Loop) (p : Plan) (written : List Host.Cell) (stage : Stage) (s : State) :
    endIteration { r with phase := .looping l stage } l p written (enterStage r l stage s) =
      endIteration r l p written s := by
  cases h : advanceBlock p s with
  | ok t =>
    rw [endIteration_of_ok r l p written s t h,
      endIteration_of_ok _ l p written (enterStage r l stage s) _ (advanceBlock_setSeq_of_ok p s t _ h)]
    rfl
  | error o =>
    rw [endIteration_of_error r l p written s o h,
      endIteration_of_error _ l p written (enterStage r l stage s) o (advanceBlock_setSeq_of_error p s _ o h)]
    rfl

/-- The engine, left alone, comes from one state to another. -/
def engineReaches (s t : State) : Prop := ∃ n, engineSteps n s = t

theorem engineReaches_refl (s : State) : engineReaches s s := ⟨0, rfl⟩

theorem engineReaches_of_engineStep {s t : State} (h : engineReaches (engineStep s) t) : engineReaches s t := by
  obtain ⟨n, h⟩ := h
  exact ⟨n + 1, h⟩

theorem engineReaches.trans {s t u : State} (h : engineReaches s t) (h' : engineReaches t u) : engineReaches s u := by
  obtain ⟨m, rfl⟩ := h
  obtain ⟨n, rfl⟩ := h'
  exact ⟨m + n, engineSteps_add m n s⟩

/-- An iteration writes its bytes one after the other, then ends (20_memory.md R65). -/
theorem engineReaches_endIteration_of_writing (r : Running) (l : Loop) (p : Plan) (todo written : List Host.Cell)
    (s : State) :
    engineReaches (enterStage r l (.writing p todo written) s) (endIteration r l p (written ++ todo) s) := by
  induction todo generalizing written with
  | nil =>
    refine ⟨1, ?_⟩
    rw [List.append_nil, ← endIteration_enterStage r l p written (.writing p [] written) s]
    rfl
  | cons c todo ih =>
    have hnext := ih (written ++ [c])
    rw [List.append_assoc, List.singleton_append] at hnext
    exact engineReaches_of_engineStep hnext

/-- An iteration reads its source bytes one after the other, all from the data space as the engine saw it when the
iteration began, and then comes to write (20_memory.md R65). -/
theorem engineReaches_writing_of_reading (r : Running) (l : Loop) (p : Plan) (todo : List Nat) (got : List Byte)
    (s : State) :
    engineReaches (enterStage r l (.reading p todo got) s)
      (enterStage r l (.writing p (xorSource p.writes (got ++ todo.map (s.mem.writeAll r.pending).read)) []) s) := by
  induction todo generalizing got with
  | nil =>
    refine ⟨1, ?_⟩
    rw [List.map_nil, List.append_nil]
    rfl
  | cons a todo ih =>
    have hnext := ih (got ++ [(s.mem.writeAll r.pending).read a])
    rw [List.append_assoc, List.singleton_append] at hnext
    exact engineReaches_of_engineStep hnext

/-- An iteration left alone writes the bytes `iterationWrites` names, and ends. -/
theorem engineReaches_endIteration (r : Running) (l : Loop) (stage : Stage) (s : State) (h : ∀ c, stage ≠ .head c) :
    ∃ p, engineReaches (enterStage r l stage s)
      (endIteration r l p (iterationWrites (enterStage r l stage s)) s) := by
  cases stage with
  | head c => exact absurd rfl (h c)
  | writing p todo written => exact ⟨p, engineReaches_endIteration_of_writing r l p todo written s⟩
  | reading p todo got =>
    exact ⟨p, (engineReaches_writing_of_reading r l p todo got s).trans
      (engineReaches_endIteration_of_writing r l p _ [] s)⟩

/-- After the end of an iteration its writes stand with those of the iterations before it, or in the data space. -/
theorem endIteration_joins (r : Running) (l : Loop) (p : Plan) (written : List Host.Cell) (s : State) :
    (∃ r' c, (endIteration r l p written s).seq = .busy r' ∧ r'.word = r.word ∧ r'.phase = .looping l (.head c) ∧
      r'.pending = r.pending ++ written ∧ (endIteration r l p written s).mem = s.mem) ∨
    ((endIteration r l p written s).seq = .idle ∧
      (endIteration r l p written s).mem = (s.mem.writeAll r.pending).writeAll written) := by
  cases h : advanceBlock p s with
  | ok t =>
    rw [endIteration_of_ok r l p written s t h]
    exact .inl ⟨_, p.next, rfl, rfl, rfl, rfl, advanceBlock_mem p s t h⟩
  | error o =>
    rw [endIteration_of_error r l p written s o h, ← Memory.writeAll_append]
    exact .inr ⟨rfl, rfl⟩

/-- A loop command stands at the stage its sequencer says. -/
theorem enterStage_of_phase (s : State) (r : Running) (l : Loop) (stage : Stage) (hq : s.seq = .busy r)
    (hp : r.phase = .looping l stage) : enterStage r l stage s = s := by
  rw [enterStage, ← hp, ← hq]

/-- Settles O57: what a reset leaves of each byte, that every choice of bytes is some reset's, and what the iteration in
progress is. -/
theorem resetDuringACommand : Obligations.ResetDuringACommand := by
  refine ⟨fun s landed rest h => ?_, fun s rest choice hdistinct => ?_,
    fun s hq => ⟨engineView_of_idle s hq, iterationWrites_of_idle s hq⟩,
    fun s r hq => ⟨engineView_of_busy s r hq, iterationWrites_of_no_iteration s r hq, fun l stage hp hstage hs => ?_⟩⟩
  · refine ⟨_, step_reset s landed rest h, fun a ha => ?_, fun a => ?_⟩
    · exact Memory.read_writeAll_other (engineView s) _ a fun c hc => ha c (mem_of_mem_landedCells _ landed c hc)
    · exact (Memory.read_writeAll_old_or_new (engineView s) _ a).imp_right (mem_of_mem_landedCells _ landed _)
  · refine ⟨(iterationWrites s).map fun c => choice c.1, _, step_reset _ _ rest rfl, fun c hc => ?_⟩
    rw [← Memory.read_writeAll_chosen (engineView s) (iterationWrites s) choice c hc hdistinct, ← landedCells_map]
    rfl
  · obtain ⟨p, n, hn⟩ := engineReaches_endIteration r l stage s hstage
    rw [enterStage_of_phase s r l stage hq hp] at hn
    refine ⟨n, _, hn ▸ run_of_no_schedule n s hs, ?_⟩
    rw [engineView_of_busy s r hq]
    refine (endIteration_joins r l p (iterationWrites s) s).imp_right fun ⟨hidle, hmem⟩ => ⟨hidle, fun a => ?_⟩
    rw [hmem]

end Sys2Proof.Machine

/-! SUPPORT. The two forms of a command: the atomic one follows the interleaved one iteration by iteration
(spec/70_reset_and_hazards.md R286; log entry 2). -/

namespace Sys2Proof.Machine

/-- The running command right after the acceptance of word `w` (30_encoding.md R96). -/
def accepted (w : Word) : Running := { word := w, phase := .accepted, pending := [] }

theorem engineStep_accept (w : Word) (s : State) : engineStep (accept w s) = beginCommand (accepted w) (accept w s) := rfl

/-- The machine that runs word `w` atomically, when the interleaved machine `s` has written the bytes `written` in its
finished iterations: they stand in its data space. -/
def atomicState (w : Word) (written : List Host.Cell) (s : State) : State :=
  { s with seq := .busy (accepted w), mem := s.mem.writeAll written }

theorem atomicState_accept (w : Word) (s : State) : atomicState w [] (accept w s) = accept w s := rfl

/-- At a loop head the two forms complete alike: what the interleaved one has pending, the atomic one has written. -/
theorem complete_atomicState (o : Completion) (result phys : Nat) (w : Word) (r : Running) (l : Loop) (stage : Stage)
    (s : State) :
    complete o result phys (enterStage r l stage s) = complete o result phys (atomicState w r.pending s) := rfl

theorem loopHead_atomicState (l : Loop) (w : Word) (written : List Host.Cell) (s : State) (c : Cursors) :
    loopHead l (atomicState w written s) c = loopHead l s c := by
  cases l <;> rfl

/-- The bytes an iteration writes when the engine sees the data space `m` (20_memory.md R65). -/
def planCells (p : Plan) (m : Memory) : List Host.Cell := xorSource p.writes (p.reads.map m.read)

theorem performPlan_atomicState (p : Plan) (w : Word) (written : List Host.Cell) (s : State) :
    performPlan p (atomicState w written s) = atomicState w (written ++ planCells p (s.mem.writeAll written)) s := by
  rw [performPlan, atomicState, atomicState, Memory.writeAll_append]
  rfl

theorem advanceBlock_atomicState_of_ok (p : Plan) (w : Word) (written : List Host.Cell) (s t : State)
    (h : advanceBlock p s = .ok t) : advanceBlock p (atomicState w written s) = .ok (atomicState w written t) := by
  have hmem := advanceBlock_mem p s t h
  exact (advanceBlock_setSeqMem p s _ _).trans (by rw [h, ← hmem]; rfl)

theorem advanceBlock_atomicState_of_error (p : Plan) (w : Word) (written : List Host.Cell) (s : State) (o : Completion)
    (h : advanceBlock p s = .error o) : advanceBlock p (atomicState w written s) = .error o :=
  (advanceBlock_setSeqMem p s _ _).trans (by rw [h]; rfl)

theorem loopHead_enterStage (l l' : Loop) (r : Running) (stage : Stage) (s : State) (c : Cursors) :
    loopHead l (enterStage r l' stage s) c = loopHead l s c := by
  cases l <;> rfl

/-- A loop is over once COUNT is reached (42_block_cipher.md R179, 43_stream_transform.md R195, R200). -/
theorem loopHead_of_count_le (l : Loop) (s : State) (c : Cursors) (h : s.count.toNat ≤ c.written) :
    loopHead l s c = .done .ok c.pos := by
  cases l <;> exact if_pos (Nat.not_lt.mpr h)

theorem engineStep_of_head_done (r : Running) (l : Loop) (s : State) (c : Cursors) (o : Completion) (phys : Nat)
    (h : loopHead l s c = .done o phys) :
    engineStep (enterStage r l (.head c) s) = complete o c.written phys (enterStage r l (.head c) s) := by
  rw [engineStep_looping _ _ l (.head c) rfl rfl, loopStep, loopHead_enterStage, h]

theorem engineStep_of_head_go (r : Running) (l : Loop) (s : State) (c : Cursors) (p : Plan)
    (h : loopHead l s c = .go p) :
    engineStep (enterStage r l (.head c) s) = enterStage r l (.reading p p.reads []) s := by
  rw [engineStep_looping _ _ l (.head c) rfl rfl, loopStep, loopHead_enterStage, h]
  rfl

/-- From the loop head an iteration reads, writes and ends. -/
theorem engineReaches_endIteration_of_head (r : Running) (l : Loop) (s : State) (c : Cursors) (p : Plan)
    (h : loopHead l s c = .go p) :
    engineReaches (enterStage r l (.head c) s) (endIteration r l p (planCells p (s.mem.writeAll r.pending)) s) := by
  refine engineReaches_of_engineStep ?_
  rw [engineStep_of_head_go r l s c p h]
  exact (engineReaches_writing_of_reading r l p p.reads [] s).trans
    (engineReaches_endIteration_of_writing r l p _ [] s)

/-- From the same loop head the interleaved form reaches the state in which the atomic loop ends, whose fuel suffices for
the bytes or blocks left. -/
theorem engineReaches_runLoop (l : Loop) (w : Word) (n : Nat) (c : Cursors) (r : Running) (s : State) (hbo : c.bo < 16)
    (hfuel : s.count.toNat - c.written ≤ n) :
    engineReaches (enterStage r l (.head c) s) (runLoop (loopHead l) n c (atomicState w r.pending s)) := by
  induction n generalizing c r s with
  | zero =>
    refine ⟨1, (engineStep_of_head_done r l s c .ok c.pos (loopHead_of_count_le l s c (by omega))).trans ?_⟩
    exact complete_atomicState _ _ _ w r l _ s
  | succ n ih =>
    cases hhead : loopHead l s c with
    | done o phys =>
      rw [runLoop, loopHead_atomicState, hhead]
      exact ⟨1, (engineStep_of_head_done r l s c o phys hhead).trans (complete_atomicState _ _ _ w r l _ s)⟩
    | go p =>
      have hends := engineReaches_endIteration_of_head r l s c p hhead
      have hsound := loopHead_sound l s c
      rw [hhead] at hsound
      obtain ⟨_, hmoves⟩ := hsound
      obtain ⟨hbo', _⟩ := loopHead_consistent l s c p hhead
      rw [runLoop, loopHead_atomicState, hhead]
      dsimp only
      rw [performPlan_atomicState]
      cases hadvance : advanceBlock p s with
      | error o =>
        rw [endIteration_of_error r l p _ s o hadvance] at hends
        rw [advanceBlock_atomicState_of_error p w _ s o hadvance]
        exact hends
      | ok t =>
        obtain ⟨hframe, _⟩ := advanceBlock_frame p s t hadvance
        have hcount : t.count = s.count := by rw [hframe]
        rw [endIteration_of_ok r l p _ s t hadvance] at hends
        rw [advanceBlock_atomicState_of_ok p w _ s t hadvance]
        have hlt := hmoves hbo
        exact hends.trans (ih p.next (joined r _) t hbo' (by rw [hcount]; omega))

/-- A loop command the engine has just accepted reaches the state its atomic form ends in. -/
theorem engineReaches_runLoopCommand (l : Loop) (w : Word) (s : State)
    (h : beginCommand (accepted w) (accept w s) = beginLoop (accepted w) l (accept w s)) :
    engineReaches (accept w s) (runLoopCommand (loopStart l) (loopHead l) (accept w s)) := by
  refine engineReaches_of_engineStep ?_
  rw [engineStep_accept, h, beginLoop, runLoopCommand]
  cases hstart : loopStart l (accept w s) with
  | error o => exact engineReaches_refl _
  | ok c =>
    obtain ⟨_, hbo, _⟩ := loopStart_ok l _ c hstart
    exact atomicState_accept w s ▸ engineReaches_runLoop l w _ c (accepted w) (accept w s) hbo (Nat.sub_le _ _)

/-- A command the engine has just accepted reaches the state its atomic form ends in: a loop command iteration by
iteration, every other one in one step of work (70_reset_and_hazards.md R283). -/
theorem engineReaches_commandBody (w : Word) (i : Instr) (s : State) (hw : decode w = .ok i) :
    engineReaches (accept w s) (commandBody i (accept w s)) := by
  rcases beginCommand_cases (accepted w) (accept w s) with ⟨e, he, _⟩ | ⟨l, hl, h⟩ | ⟨j, hj, _, h⟩
  · exact nomatch hw.symm.trans he
  · obtain rfl : i = loopInstr l := Except.ok.inj (hw.symm.trans hl)
    rw [commandBody_loopInstr]
    exact engineReaches_runLoopCommand l w s h
  · obtain rfl : i = j := Except.ok.inj (hw.symm.trans hj)
    exact ⟨1, (engineStep_accept w s).trans h⟩

/-- An illegal word the engine has just accepted completes in one step of work (30_encoding.md R93). -/
theorem engineReaches_illegalCommand (w : Word) (e : DecodeError) (s : State) (hw : decode w = .error e) :
    engineReaches (accept w s) (endedWith .illegalCommand 0 0 s) := by
  refine ⟨1, (engineStep_accept w s).trans ?_⟩
  rw [beginCommand, accepted, hw]
  rfl

/-- After the host's write of CMD, and no other move, a run comes to every state that the accepted engine reaches. -/
theorem run_of_cmd_write (s t : State) (w : Word) (hidle : isBusy s = false)
    (h : engineReaches (accept w { s with schedule := [] }) t) :
    ∃ n, Host.Core.run Sys2Proof.core n { s with schedule := [.writeReg 0x04 .word w] } = .next t := by
  obtain ⟨n, rfl⟩ := h
  refine ⟨n + 1, ?_⟩
  rw [run_succ n _ _ (step_writeReg_idle { s with schedule := [.writeReg 0x04 .word w] } .cmd w [] hidle rfl)]
  exact run_of_no_schedule n _ rfl

/-- Settles O46: the engine, left alone after the CMD write, reaches the state of the atomic form, for a legal word and
for an illegal one. -/
theorem atomicCommandEqualsInterleaved : Obligations.AtomicCommandEqualsInterleaved := by
  intro s t w hidle hstep
  refine run_of_cmd_write s t w hidle ?_
  cases hw : decode w with
  | error e =>
    rw [step_command_of_decode_error { s with schedule := [.command w] } w e [] hidle rfl hw] at hstep
    cases hstep
    exact engineReaches_illegalCommand w e { s with schedule := [] } hw
  | ok i =>
    obtain ⟨_, hword⟩ := encodeOfDecodeIsTheWord w i hw
    rw [step_command_of_decode_ok { s with schedule := [.command w] } w i [] rfl hw,
      exec_idle i { s with schedule := [] } hidle, hword] at hstep
    cases hstep
    exact engineReaches_commandBody w i { s with schedule := [] } hw

end Sys2Proof.Machine
